-- ==== Sys2Proof/Word.lean ====
section
/-! DEFINITION. The word types of the machine (spec/00_scope.md R7): 8-bit registers and data,
16-bit addresses. -/

namespace Sys2Proof

/-- One byte: A, X, Y, SP, P and every bus transfer (R7). -/
abbrev Byte := BitVec 8

/-- One 16-bit word: PC and the CPU address bus (R7). -/
abbrev Word := BitVec 16

end Sys2Proof
end

