-- ==== Sys2Proof/Config.lean ====
section
/-! DEFINITION. The parameters the spec has the model take as arguments (spec/00_scope.md R8):
CYCLE_MODEL, DMA_CYCLES, A12_COOLDOWN, CART and POWERON_MEM. All are plain data. -/

namespace Sys2Proof

/-- CYCLE_MODEL (spec/30_encoding.md R107, R108). -/
inductive CycleModel where
  | base
  | documented
  deriving DecidableEq, Repr

/-- DMA_CYCLES: the source allows "513 or 514" (spec/20_memory.md R58; 513 in State.reset, log
entry 4). -/
inductive DmaCost where
  | c513
  | c514
  deriving DecidableEq, Repr

/-- The parameters in force while the machine runs; no step changes them (DEDUCED, log entry 3).
A12_COOLDOWN is any natural number (spec/62_mappers_controllers.md R324). -/
structure Params where
  cycleModel  : CycleModel
  dmaCost     : DmaCost
  a12Cooldown : Nat
  deriving DecidableEq, Repr

/-- The defaults of R8; A12_COOLDOWN is OPEN there, and 0 is this model's value for State.reset
(DESIGN CHOICE, log entry 5). -/
def Params.default : Params :=
  { cycleModel := .base, dmaCost := .c513, a12Cooldown := 0 }

/-- The header's and a mapper's nametable mirroring (spec/60_exceptions.md R236). -/
inductive Mirroring where
  | horizontal
  | vertical
  | fourScreen
  deriving DecidableEq, Repr

/-- A memory as plain data: address and byte pairs, addresses strictly rising, no byte 0x00 listed;
an unlisted address reads 0x00 (DESIGN CHOICE, log entry 1). -/
abbrev Memory := List Host.Cell

/-- CART (spec/60_exceptions.md R236): a decoded header and two byte arrays, each array given by its
length and its bytes that are not 0x00. The header's trainer flag is ignored. -/
structure Cartridge where
  mapperId  : Nat
  mirroring : Mirroring
  battery   : Bool
  trainer   : Bool
  prgLen    : Nat
  prgRom    : Memory
  chrLen    : Nat
  chrRom    : Memory
  deriving DecidableEq, Repr

/-- POWERON_MEM (R8, spec/70_reset_and_hazards.md R351) and the host's saved PRG-RAM image
(spec/20_memory.md R77). -/
structure PowerOnMem where
  ram        : Memory
  ciram      : Memory
  oam        : Memory
  palettes   : Memory
  prgRam     : Memory
  chrRam     : Memory
  savedImage : Option Memory
  deriving DecidableEq, Repr

/-- Every byte 0x00 and no saved image: what State.reset uses (DESIGN CHOICE, log entry 1). -/
def PowerOnMem.zero : PowerOnMem :=
  { ram := [], ciram := [], oam := [], palettes := [], prgRam := [], chrRam := [],
    savedImage := none }

end Sys2Proof
end

