-- ==== Sys2Proof/Machine/State.lean ====
section
/-! DEFINITION. The machine's state, all of it plain data: the inventory of spec/10_state.md with the
widths of its rules, the mapper registers of spec/62_mappers_controllers.md, the parameters of
spec/00_scope.md R8; the reasons a step can stop; and the state right after reset. -/

namespace Sys2Proof.Machine

open Sys2Proof

/-- The CPU (R20 to R25, R31, R32). -/
structure Cpu where
  a           : Byte
  x           : Byte
  y           : Byte
  sp          : Byte
  pc          : Word
  p           : Byte
  halted      : Option (Byte × Word)
  extraCycles : Nat
  deriving DecidableEq, Repr

/-- The PPU's registers, latches and memories (R36, R37). `x` is fine X. -/
structure Ppu where
  ctrl        : Byte
  mask        : Byte
  vblank      : Bool
  sprite0     : Bool
  overflow    : Bool
  oamaddr     : Byte
  v           : BitVec 15
  t           : BitVec 15
  x           : BitVec 3
  w           : Bool
  readBuffer  : Byte
  nmiOccurred : Bool
  scanline    : Int
  cycle       : Nat
  ciram       : Memory
  oam         : Memory
  palettes    : Memory
  framebuffer : Memory
  deriving DecidableEq, Repr

/-- MMC1's registers (spec/62_mappers_controllers.md R310). -/
structure Mmc1 where
  shift   : BitVec 5
  count   : Nat
  control : BitVec 5
  chr0    : BitVec 5
  chr1    : BitVec 5
  prg     : BitVec 5
  deriving DecidableEq, Repr

/-- MMC3's registers (R318). -/
structure Mmc3 where
  bankSelect    : Byte
  regs          : Vector Byte 8
  mirrorReg     : Bool
  mirrorWritten : Bool
  prgRamCtl     : Byte
  irqLatch      : Byte
  irqCounter    : Byte
  irqReload     : Bool
  irqEnabled    : Bool
  irqPending    : Bool
  lowCount      : Nat
  cooldown      : Nat
  deriving DecidableEq, Repr

/-- The four supported mappers, "a variant-tagged sum type" (R300), each with its registers. -/
inductive Mapper where
  | nrom
  | uxrom (bank : Nat)
  | mmc1 (r : Mmc1)
  | mmc3 (r : Mmc3)
  deriving DecidableEq, Repr

/-- The cartridge in the machine (spec/10_state.md R38): the mapper, the header's mirroring and
battery flag, and the three memories. chrIsRam says that chr is CHR-RAM. -/
structure Cart where
  mapper    : Mapper
  mirroring : Mirroring
  battery   : Bool
  prgLen    : Nat
  prgRom    : Memory
  chrLen    : Nat
  chr       : Memory
  chrIsRam  : Bool
  prgRam    : Memory
  deriving DecidableEq, Repr

/-- The two controllers and their shared strobe (R330). -/
structure Pads where
  buttons1 : Byte
  buttons2 : Byte
  shift1   : Byte
  shift2   : Byte
  strobe   : Bool
  deriving DecidableEq, Repr

/-- Why a step stops. -/
inductive Fault where
  /-- CpuHalt(op, addr) (spec/60_exceptions.md R220). Raised by `step` on a CPU that is already
  halted: "every later step returns the same CpuHalt". The halting instruction itself takes a next
  state that records it (DEDUCED, log entry 6). Safe: the machine does stop there. -/
  | cpuHalt (op : Byte) (addr : Word)
  deriving DecidableEq, Repr

/-- Why a call is refused with nothing changed. -/
inductive Refusal where
  /-- An instruction without a meaning; exec uses it for no instruction of this model. Safe. -/
  | notModelled (mnemonic : String)
  /-- DriverMisuse (R221): step, frame or reset before powerOn. Raised by `step`, `frame` and
  `hostReset` (a refusal: DEDUCED, log entry 8). Safe: the spec refuses the call. -/
  | driverMisuse
  /-- InvalidCartridge (R221, R236): raised by `powerOn`. Safe: the spec refuses the call. -/
  | invalidCartridge
  deriving DecidableEq, Repr

/-- The driver's state (spec/10_state.md R39), and the count the last step returned (R110; the
model's own field: DESIGN CHOICE, log entry 7). -/
structure Driver where
  poweredOn     : Bool
  frameComplete : Bool
  fatal         : Option Fault
  stepCycles    : Option Nat
  deriving DecidableEq, Repr

/-- The whole machine. -/
structure State where
  cpu    : Cpu
  ram    : Memory
  ppu    : Ppu
  cart   : Cart
  pads   : Pads
  driver : Driver
  params : Params
  deriving DecidableEq, Repr

/-- The PPU at reset with given memories (R36, spec/61_ppu.md R284). -/
def Ppu.atReset (ciram oam palettes framebuffer : Memory) : Ppu :=
  { ctrl := 0, mask := 0, vblank := false, sprite0 := false, overflow := false, oamaddr := 0,
    v := 0, t := 0, x := 0, w := false, readBuffer := 0, nmiOccurred := false,
    scanline := -1, cycle := 0,
    ciram := ciram, oam := oam, palettes := palettes, framebuffer := framebuffer }

/-- MMC1 at reset (R310): control 0x0C, the rest 0. -/
def Mmc1.atReset : Mmc1 :=
  { shift := 0, count := 0, control := 0x0C, chr0 := 0, chr1 := 0, prg := 0 }

/-- MMC3 at reset (R318): all 0. -/
def Mmc3.atReset : Mmc3 :=
  { bankSelect := 0, regs := Vector.replicate 8 0, mirrorReg := false, mirrorWritten := false,
    prgRamCtl := 0, irqLatch := 0, irqCounter := 0, irqReload := false, irqEnabled := false,
    irqPending := false, lowCount := 0, cooldown := 0 }

/-- The controllers at power-on (R330). -/
def Pads.atPowerOn : Pads :=
  { buttons1 := 0, buttons2 := 0, shift1 := 0, shift2 := 0, strobe := false }

/-- The cartridge in State.reset: NROM, 16 KiB of PRG-ROM that reads 0x00, CHR-RAM, Vertical, no
battery (DESIGN CHOICE, log entry 2; CART is an input the spec gives no default). -/
def Cart.blank : Cart :=
  { mapper := .nrom, mirroring := .vertical, battery := false,
    prgLen := 0x4000, prgRom := [], chrLen := 0x2000, chr := [], chrIsRam := true, prgRam := [] }

/-- The machine right after powerOn of the blank cartridge (spec/70_reset_and_hazards.md R351). PC is
the word at $FFFC, which reads 0x0000 there (DESIGN CHOICE, log entry 2). -/
def State.reset : State :=
  { cpu := { a := 0, x := 0, y := 0, sp := 0xFD, pc := 0x0000, p := 0x24, halted := none,
             extraCycles := 0 },
    ram := [],
    ppu := Ppu.atReset [] [] [] [],
    cart := Cart.blank,
    pads := Pads.atPowerOn,
    driver := { poweredOn := true, frameComplete := false, fatal := none, stepCycles := none },
    params := Params.default }

end Sys2Proof.Machine
end

