-- ==== Sys2Proof/Machine/Controller.lean ====
section
/-! DEFINITION. The two controller ports (spec/62_mappers_controllers.md R330 to R335). -/

namespace Sys2Proof.Machine

open Sys2Proof

/-- p ∈ {1, 2}. -/
inductive Pad where
  | one
  | two
  deriving DecidableEq, Repr

/-- The buttons in bit order (R331). -/
inductive Button where
  | a | b | select | start | up | down | left | right
  deriving DecidableEq, Repr

/-- The byte with only that button's bit set (R331). -/
def Button.maskByte : Button → Byte
  | .a      => 0x01
  | .b      => 0x02
  | .select => 0x04
  | .start  => 0x08
  | .up     => 0x10
  | .down   => 0x20
  | .left   => 0x40
  | .right  => 0x80

/-- A pad's live buttons with one set or cleared. -/
def Button.apply (btn : Button) (pressed : Bool) (old : Byte) : Byte :=
  if pressed then old ||| btn.maskByte else old &&& ~~~ btn.maskByte

/-- setButton (R331): it does not touch shift. -/
def Pads.setButton (p : Pads) (pad : Pad) (btn : Button) (pressed : Bool) : Pads :=
  match pad with
  | .one => { p with buttons1 := btn.apply pressed p.buttons1 }
  | .two => { p with buttons2 := btn.apply pressed p.buttons2 }

/-- ControllerStrobe (R332): the 1 to 0 transition latches both pads. -/
def Pads.strobeWrite (p : Pads) (d : Byte) : Pads :=
  let s := d.getLsbD 0
  if p.strobe && !s then { p with shift1 := p.buttons1, shift2 := p.buttons2, strobe := s }
  else { p with strobe := s }

/-- One shift of a pad's register: a 1 comes in at bit 7 (R333). -/
def shiftPad (r : Byte) : Byte := (r >>> 1) ||| 0x80

/-- ControllerRead (R333). -/
def Pads.read (p : Pads) (pad : Pad) : Byte × Pads :=
  match pad with
  | .one =>
    if p.strobe then (p.buttons1 &&& 1, p)
    else (p.shift1 &&& 1, { p with shift1 := shiftPad p.shift1 })
  | .two =>
    if p.strobe then (p.buttons2 &&& 1, p)
    else (p.shift2 &&& 1, { p with shift2 := shiftPad p.shift2 })

end Sys2Proof.Machine
end

