-- ==== Sys2Proof/Machine/Bits.lean ====
section
/-! DEFINITION. Byte order and extension helpers (spec/00_scope.md R9, R10). -/

namespace Sys2Proof.Machine

/-- `(hi << 8) | lo` (R9). -/
def word16 (hi lo : Byte) : Word := hi ++ lo

/-- `w >> 8`. -/
def hiByte (w : Word) : Byte := w.extractLsb' 8 8

/-- `w & 0xFF`. -/
def loByte (w : Word) : Byte := w.extractLsb' 0 8

/-- `zext_16` (R10). -/
def zext16 (b : Byte) : Word := b.setWidth 16

/-- `sext_16` (R10). -/
def sext16 (b : Byte) : Word := b.signExtend 16

/-- Bit i as a number, 0 or 1. -/
def bitAt (n i : Nat) : Nat := (n >>> i) &&& 1

end Sys2Proof.Machine
end

