-- ==== Sys2Proof/Machine/Flags.lean ====
section
/-! DEFINITION. The status register's flags (spec/10_state.md R25 to R29) and every flag computation:
SetZN (spec/00_scope.md R14), the ADC sum (spec/41_arithmetic_logic.md R140), the compare, and the
bytes P is pushed as. -/

namespace Sys2Proof.Machine

open Sys2Proof

/-- The eight bits of P (R25). -/
inductive Flag where
  | c | z | i | d | b | u | v | n
  deriving DecidableEq, Repr

/-- The bit number of a flag (R25). -/
def Flag.index : Flag → Nat
  | .c => 0
  | .z => 1
  | .i => 2
  | .d => 3
  | .b => 4
  | .u => 5
  | .v => 6
  | .n => 7

/-- The byte with only that flag's bit set. -/
def Flag.maskByte : Flag → Byte
  | .c => 0x01
  | .z => 0x02
  | .i => 0x04
  | .d => 0x08
  | .b => 0x10
  | .u => 0x20
  | .v => 0x40
  | .n => 0x80

/-- `P.f`. -/
def getFlag (p : Byte) (f : Flag) : Bool := p.getLsbD f.index

/-- P with `P.f <- b`. -/
def setFlag (p : Byte) (f : Flag) (b : Bool) : Byte :=
  if b then p ||| f.maskByte else p &&& ~~~ f.maskByte

/-- What the register holds of a byte written to P: B is 0 and U is 1 (R26, R28; on
every write: DEDUCED, log entry 16). -/
def normP (v : Byte) : Byte := (v &&& 0xCF) ||| 0x20

/-- The byte PHP and BRK push (R28). -/
def pushedByBrk (p : Byte) : Byte := p ||| 0x30

/-- The byte NMI and IRQ push (R28). -/
def pushedByInterrupt (p : Byte) : Byte := (p &&& ~~~ 0x10#8) ||| 0x20

/-- `SetZN(r)` on P (R14). -/
def setZN (p r : Byte) : Byte := setFlag (setFlag p .z (r == 0)) .n (r.getLsbD 7)

/-- The exact sum `A + M + P.C` of R140, 0..511. -/
def adcSum (a m p : Byte) : Nat := a.toNat + m.toNat + (if getFlag p .c then 1 else 0)

/-- The byte ADC leaves in A. -/
def adcResult (a m p : Byte) : Byte := BitVec.ofNat 8 (adcSum a m p)

/-- The P that ADC leaves (R140); SBC passes M ^ 0xFF (R141). -/
def adcFlags (a m p : Byte) : Byte :=
  let r := adcResult a m p
  let p1 := setFlag p .c (decide (0xFF < adcSum a m p))
  let p2 := setFlag p1 .v (((~~~ (a ^^^ m)) &&& (a ^^^ r)).getLsbD 7)
  setZN p2 r

/-- The P that a compare of register r with m leaves (R145 to R147). -/
def cmpFlags (r m p : Byte) : Byte :=
  setZN (setFlag p .c (decide (m.toNat ≤ r.toNat))) (r - m)

/-- The P that BIT leaves (R148). -/
def bitFlags (a m p : Byte) : Byte :=
  setFlag (setFlag (setFlag p .z ((a &&& m) == 0)) .n (m.getLsbD 7)) .v (m.getLsbD 6)

/-- A shift's result and the carry it leaves, from the value and the old carry (R160 to R163). -/
def aslByte (v : Byte) (_ : Bool) : Byte × Bool := (v <<< 1, v.getLsbD 7)

def lsrByte (v : Byte) (_ : Bool) : Byte × Bool := (v >>> 1, v.getLsbD 0)

def rolByte (v : Byte) (c : Bool) : Byte × Bool :=
  ((v <<< 1) ||| (if c then 0x01 else 0x00), v.getLsbD 7)

def rorByte (v : Byte) (c : Bool) : Byte × Bool :=
  ((v >>> 1) ||| (if c then 0x80 else 0x00), v.getLsbD 0)

/-- The P a shift leaves: C from the bit shifted out, Z and N from the result. -/
def shiftFlags (p r : Byte) (c : Bool) : Byte := setZN (setFlag p .c c) r

end Sys2Proof.Machine
end

