-- ==== Sys2Proof/Machine/Memory.lean ====
section
/-! DEFINITION. The operations on one memory: read and write a byte, replace a row of bytes, and the
canonical form. -/

namespace Sys2Proof



/-- What an address that is not listed reads as (DESIGN CHOICE for POWERON_MEM, log entry 1; the
spec's own value for the framebuffer, spec/10_state.md R37). -/
def Memory.unlisted : Byte := 0x00

/-- The byte at address k. -/
def Memory.read (m : Memory) (k : Nat) : Byte :=
  match m with
  | [] => Memory.unlisted
  | c :: rest => if c.1 = k then c.2 else Memory.read rest k

/-- m with k not listed. -/
def Memory.erase (m : Memory) (k : Nat) : Memory := m.filter (fun c => c.1 != k)

/-- m with (k, b) in its place by address; k is not listed in m. -/
def Memory.insert (m : Memory) (k : Nat) (b : Byte) : Memory :=
  match m with
  | [] => [(k, b)]
  | c :: rest => if k < c.1 then (k, b) :: c :: rest else c :: Memory.insert rest k b

/-- m with byte b at address k; writing what an unlisted address reads as removes the entry. -/
def Memory.write (m : Memory) (k : Nat) (b : Byte) : Memory :=
  if b = Memory.unlisted then Memory.erase m k else Memory.insert (Memory.erase m k) k b

/-- The cells of consecutive bytes from address k on, those that must be listed. -/
def Memory.cellsFrom (k : Nat) (bs : List Byte) : Memory :=
  match bs with
  | [] => []
  | b :: rest =>
    if b = Memory.unlisted then Memory.cellsFrom (k + 1) rest
    else (k, b) :: Memory.cellsFrom (k + 1) rest

/-- m with the bytes bs at addresses k, k+1, …. -/
def Memory.writeRow (m : Memory) (k : Nat) (bs : List Byte) : Memory :=
  m.filter (fun c => decide (c.1 < k)) ++ Memory.cellsFrom k bs
    ++ m.filter (fun c => decide (k + bs.length ≤ c.1))

/-- Addresses rise strictly from lo on, and no listed byte reads as an unlisted one. -/
def Memory.wfFrom (lo : Nat) (m : Memory) : Bool :=
  match m with
  | [] => true
  | c :: rest => decide (lo ≤ c.1) && (c.2 != Memory.unlisted) && Memory.wfFrom (c.1 + 1) rest

/-- The canonical form: addresses strictly rising, and no listed byte reads as an unlisted one. -/
def Memory.wf (m : Memory) : Bool := Memory.wfFrom 0 m

/-- Every listed address is below n. -/
def Memory.below (m : Memory) (n : Nat) : Bool := m.all (fun c => decide (c.1 < n))

/-- A memory of n bytes with the given contents, in canonical form: the last byte listed for an
address counts, addresses from n on do not (DESIGN CHOICE, log entry 18). -/
def Memory.load (n : Nat) (m : Memory) : Memory :=
  if m.wf && m.below n then m
  else m.foldl (fun acc c => if c.1 < n then acc.write c.1 c.2 else acc) []

end Sys2Proof
end

