-- ==== Sys2Proof/Machine/Mapper.lean ====
section
/-! DEFINITION. The cartridge mappers (spec/62_mappers_controllers.md R300 to R328): bank arithmetic,
CPU and CHR reads and writes, the register writes of each variant, the MMC3 IRQ counter and its A12
filter, mirroring, reset. CPU addresses are given as numbers 0x4020..0xFFFF, CHR addresses as
0x0000..0x1FFF. -/

namespace Sys2Proof.Machine

open Sys2Proof

/-! Bank counts (R302). -/

def Cart.n16 (c : Cart) : Nat := c.prgLen / 0x4000
def Cart.n8 (c : Cart) : Nat := c.prgLen / 0x2000
def Cart.n4 (c : Cart) : Nat := c.chrLen / 0x1000
def Cart.n1 (c : Cart) : Nat := c.chrLen / 0x400

/-! MMC1 decoding (R309, R311, R312). -/

/-- control[3:2], the PRG mode. -/
def Mmc1.prgMode (r : Mmc1) : Nat := (r.control.toNat >>> 2) &&& 3

/-- control[1:0] as a mirroring (R309). -/
def Mmc1.mirroring (r : Mmc1) : Mirroring :=
  match r.control.toNat &&& 3 with
  | 0 => .horizontal
  | 1 => .vertical
  | 2 => .vertical
  | _ => .horizontal

/-- The 16 KiB bank an address at or above $8000 reads from (R311). -/
def Mmc1.prgBank (r : Mmc1) (n16 a : Nat) : Nat :=
  let p := r.prg.toNat &&& 0x0F
  let low := decide (a < 0xC000)
  match r.prgMode with
  | 2 => if low then 0 else p % n16
  | 3 => if low then p % n16 else n16 - 1
  | _ => if low then (p &&& 0x0E) % n16 else ((p &&& 0x0E) + 1) % n16

/-- The 4 KiB bank a CHR address reads from (R312). -/
def Mmc1.chrBank (r : Mmc1) (n4 a : Nat) : Nat :=
  let low := decide (a < 0x1000)
  if r.control.getLsbD 4 then
    if low then r.chr0.toNat % n4 else r.chr1.toNat % n4
  else
    let base := r.chr0.toNat &&& 0x1E
    if low then base % n4 else (base + 1) % n4

/-! MMC3 decoding (R319, R320). -/

/-- `R[i]` as a number. -/
def Mmc3.reg (r : Mmc3) (i : Fin 8) : Nat := (r.regs[i]).toNat

/-- The 8 KiB bank of the window an address at or above $8000 lies in, before the modulo (R319). -/
def Mmc3.prgBank (r : Mmc3) (n8 a : Nat) : Nat :=
  let pm := r.bankSelect.getLsbD 6
  match (a >>> 13) &&& 3 with
  | 0 => if pm then n8 - 2 else r.reg 6
  | 1 => r.reg 7
  | 2 => if pm then r.reg 6 else n8 - 2
  | _ => n8 - 1

/-- The bank of a 1 KiB slot in the column cm = 0 of R320's table, before the modulo. -/
def Mmc3.chrSlot (r : Mmc3) (slot : Nat) : Nat :=
  match slot with
  | 0 => r.reg 0 &&& 0xFE
  | 1 => (r.reg 0 &&& 0xFE) + 1
  | 2 => r.reg 1 &&& 0xFE
  | 3 => (r.reg 1 &&& 0xFE) + 1
  | 4 => r.reg 2
  | 5 => r.reg 3
  | 6 => r.reg 4
  | _ => r.reg 5

/-- The bank of the 1 KiB slot of a CHR address; cm = 1 exchanges the two halves (R320). -/
def Mmc3.chrBank (r : Mmc3) (a : Nat) : Nat :=
  let slot := (a >>> 10) &&& 7
  if r.bankSelect.getLsbD 7 then r.chrSlot ((slot + 4) % 8) else r.chrSlot slot

/-! The offsets (R303, R304, R306, R311, R312, R319, R320). -/

/-- Where in prgRom an address at or above $8000 reads. -/
def Cart.prgOffset (c : Cart) (a : Nat) : Nat :=
  match c.mapper with
  | .nrom => (a - 0x8000) % c.prgLen
  | .uxrom bank =>
    if a < 0xC000 then bank * 0x4000 + (a - 0x8000) else (c.n16 - 1) * 0x4000 + (a - 0xC000)
  | .mmc1 r => r.prgBank c.n16 a * 0x4000 + (a &&& 0x3FFF)
  | .mmc3 r => (r.prgBank c.n8 a % c.n8) * 0x2000 + (a &&& 0x1FFF)

/-- Where in chr a CHR address reads. -/
def Cart.chrOffset (c : Cart) (a : Nat) : Nat :=
  match c.mapper with
  | .nrom => a % c.chrLen
  | .uxrom _ => a % c.chrLen
  | .mmc1 r => r.chrBank c.n4 a * 0x1000 + (a &&& 0x0FFF)
  | .mmc3 r => (r.chrBank a % c.n1) * 0x400 + (a &&& 0x3FF)

/-! The CPU side (R301). -/

/-- cpuRead. It has no side effect on any variant. -/
def Cart.cpuRead (c : Cart) (a : Nat) : Byte :=
  if a < 0x6000 then 0x00
  else if a < 0x8000 then c.prgRam.read (a - 0x6000)
  else c.prgRom.read (c.prgOffset a)

/-- The MMC1 serial port (R308). -/
def Mmc1.write (r : Mmc1) (a : Nat) (d : Byte) : Mmc1 :=
  if d.getLsbD 7 then { r with shift := 0, count := 0, control := r.control ||| 0x0C }
  else
    let shift := r.shift ||| (((d &&& 1).setWidth 5) <<< r.count)
    if r.count + 1 = 5 then
      let r := { r with shift := 0, count := 0 }
      match (a >>> 13) &&& 3 with
      | 0 => { r with control := shift }
      | 1 => { r with chr0 := shift }
      | 2 => { r with chr1 := shift }
      | _ => { r with prg := shift }
    else { r with shift := shift, count := r.count + 1 }

/-- The MMC3 registers (R315, R316, R317, R321): address bits 14..13 select the pair, bit 0 the
register in it. -/
def Mmc3.write (r : Mmc3) (a : Nat) (d : Byte) : Mmc3 :=
  let odd := decide (a % 2 = 1)
  match (a >>> 13) &&& 3 with
  | 0 =>
    if odd then { r with regs := r.regs.set (r.bankSelect.toNat % 8) d (by omega) }
    else { r with bankSelect := d }
  | 1 =>
    if odd then { r with prgRamCtl := d }
    else { r with mirrorReg := d.getLsbD 0, mirrorWritten := true }
  | 2 =>
    if odd then { r with irqReload := true, irqCounter := 0 }
    else { r with irqLatch := d }
  | _ =>
    if odd then { r with irqEnabled := true }
    else { r with irqEnabled := false, irqPending := false }

/-- RegisterWrite at or above $8000 (R303, R305, R308, R315). -/
def Cart.registerWrite (c : Cart) (a : Nat) (d : Byte) : Cart :=
  match c.mapper with
  | .nrom => c
  | .uxrom _ => { c with mapper := .uxrom (d.toNat % c.n16) }
  | .mmc1 r => { c with mapper := .mmc1 (r.write a d) }
  | .mmc3 r => { c with mapper := .mmc3 (r.write a d) }

/-- cpuWrite (R301). -/
def Cart.cpuWrite (c : Cart) (a : Nat) (d : Byte) : Cart :=
  if a < 0x6000 then c
  else if a < 0x8000 then { c with prgRam := c.prgRam.write (a - 0x6000) d }
  else c.registerWrite a d

/-! The MMC3 IRQ counter (R322, R324, R326). -/

/-- Mmc3Clock (R322). -/
def Mmc3.clock (r : Mmc3) : Mmc3 :=
  let r1 :=
    if r.irqReload || r.irqCounter == 0 then { r with irqCounter := r.irqLatch, irqReload := false }
    else { r with irqCounter := r.irqCounter - 1 }
  if r1.irqEnabled && r1.irqCounter == 0 then { r1 with irqPending := true } else r1

/-- Tap (R324): the A12 filter on one tapped CHR access; cd is A12_COOLDOWN. -/
def Mmc3.tap (cd : Nat) (r : Mmc3) (a : Nat) : Mmc3 :=
  let a12 := bitAt a 12
  let qualifies := decide (a12 = 1) && decide (8 ≤ r.lowCount) && decide (r.cooldown = 0)
  let r1 := { r with
    cooldown := r.cooldown - 1,
    lowCount := if a12 = 0 then min (r.lowCount + 1) 8 else 0 }
  if qualifies then { r1.clock with cooldown := cd } else r1

/-- Tap for the four variants: MMC3 only (R325). -/
def Cart.tap (cd : Nat) (c : Cart) (a : Nat) : Cart :=
  match c.mapper with
  | .nrom => c
  | .uxrom _ => c
  | .mmc1 _ => c
  | .mmc3 r => { c with mapper := .mmc3 (r.tap cd a) }

/-- ScanlineClock (R326): one synthesised A12 edge, past the filter. -/
def Cart.scanlineClock (c : Cart) : Cart :=
  match c.mapper with
  | .nrom => c
  | .uxrom _ => c
  | .mmc1 _ => c
  | .mmc3 r => { c with mapper := .mmc3 r.clock }

/-- consumeIrq: the level, unchanged by the call (R323, R325). -/
def Cart.consumeIrq (c : Cart) : Bool :=
  match c.mapper with
  | .nrom => false
  | .uxrom _ => false
  | .mmc1 _ => false
  | .mmc3 r => r.irqPending

/-! The PPU side (R301). -/

/-- ChrFetch, the untapped read. -/
def Cart.chrFetch (c : Cart) (a : Nat) : Byte := c.chr.read (c.chrOffset a)

/-- ppuRead: the tap, then the byte. -/
def Cart.ppuRead (cd : Nat) (c : Cart) (a : Nat) : Byte × Cart :=
  ((c.tap cd a).chrFetch a, c.tap cd a)

/-- ppuWrite: the tap, then the write, which CHR-ROM ignores. -/
def Cart.ppuWrite (cd : Nat) (c : Cart) (a : Nat) (d : Byte) : Cart :=
  let c1 := c.tap cd a
  if c1.chrIsRam then { c1 with chr := c1.chr.write (c1.chrOffset a) d } else c1

/-- mirroring() (R327, R317). -/
def Cart.currentMirroring (c : Cart) : Mirroring :=
  match c.mapper with
  | .nrom => c.mirroring
  | .uxrom _ => c.mirroring
  | .mmc1 r => r.mirroring
  | .mmc3 r =>
    match c.mirroring with
    | .fourScreen => .vertical
    | header =>
      if r.mirrorWritten then (if r.mirrorReg then .horizontal else .vertical) else header

/-- The variant with its registers at their reset values (R328). -/
def Mapper.reset : Mapper → Mapper
  | .nrom => .nrom
  | .uxrom _ => .uxrom 0
  | .mmc1 _ => .mmc1 Mmc1.atReset
  | .mmc3 _ => .mmc3 Mmc3.atReset

/-- mapper.reset(): prgRom, chr and prgRam stay (R328). -/
def Cart.reset (c : Cart) : Cart := { c with mapper := c.mapper.reset }

end Sys2Proof.Machine
end

