-- ==== Sys2Proof/Machine/PpuRegs.lean ====
section
/-! DEFINITION. The PPU's address space (spec/20_memory.md R64 to R67) and its eight registers
(spec/61_ppu.md R250 to R261). A function that may drive the A12 tap returns the cartridge too;
cd is A12_COOLDOWN. -/

namespace Sys2Proof.Machine

open Sys2Proof

/-- NtIndex (R65): FourScreen is read as Vertical. -/
def ntIndex (m : Mirroring) (a : Nat) : Nat :=
  let table := (a >>> 10) &&& 3
  let offset := a &&& 0x3FF
  let bank :=
    match m with
    | .horizontal => table >>> 1
    | .vertical   => table &&& 1
    | .fourScreen => table &&& 1
  bank * 0x400 + offset

/-- PalIndex (R66). -/
def palIndex (a : Nat) : Nat :=
  let i := a &&& 0x1F
  if i = 0x10 ∨ i = 0x14 ∨ i = 0x18 ∨ i = 0x1C then i - 0x10 else i

/-- PpuRead (R67). -/
def Ppu.busRead (cd : Nat) (p : Ppu) (c : Cart) (addr : Nat) : Byte × Cart :=
  let a := addr &&& 0x3FFF
  if a < 0x2000 then c.ppuRead cd a
  else if a < 0x3F00 then (p.ciram.read (ntIndex c.currentMirroring a), c)
  else (p.palettes.read (palIndex a), c)

/-- PpuWrite (R67). -/
def Ppu.busWrite (cd : Nat) (p : Ppu) (c : Cart) (addr : Nat) (d : Byte) : Ppu × Cart :=
  let a := addr &&& 0x3FFF
  if a < 0x2000 then (p, c.ppuWrite cd a d)
  else if a < 0x3F00 then
    ({ p with ciram := p.ciram.write (ntIndex c.currentMirroring a) d }, c)
  else ({ p with palettes := p.palettes.write (palIndex a) d }, c)

/-! The named bits of PPUCTRL and PPUMASK (R250, R251). -/

def Ppu.nmiEnabled (p : Ppu) : Bool := p.ctrl.getLsbD 7
def Ppu.spriteSize16 (p : Ppu) : Bool := p.ctrl.getLsbD 5
def Ppu.bgTable (p : Ppu) : Bool := p.ctrl.getLsbD 4
def Ppu.spriteTable (p : Ppu) : Bool := p.ctrl.getLsbD 3
def Ppu.inc32 (p : Ppu) : Bool := p.ctrl.getLsbD 2
def Ppu.showSprites (p : Ppu) : Bool := p.mask.getLsbD 4
def Ppu.showBg (p : Ppu) : Bool := p.mask.getLsbD 3
def Ppu.spritesLeft (p : Ppu) : Bool := p.mask.getLsbD 2
def Ppu.bgLeft (p : Ppu) : Bool := p.mask.getLsbD 1

/-- Inc (R261). -/
def Ppu.inc (p : Ppu) : BitVec 15 := if p.inc32 then 32 else 1

/-- WritePPUCTRL (R250). -/
def Ppu.writeCtrl (p : Ppu) (d : Byte) : Ppu :=
  { p with
    ctrl := d,
    t := (p.t &&& ~~~ 0x0C00#15) ||| (((d &&& 0x03).setWidth 15) <<< 10) }

/-- WritePPUMASK (R251). -/
def Ppu.writeMask (p : Ppu) (d : Byte) : Ppu := { p with mask := d }

/-- The byte PPUSTATUS reads as (R252). -/
def Ppu.statusByte (p : Ppu) : Byte :=
  (if p.vblank then 0x80 else 0x00) ||| (if p.sprite0 then 0x40 else 0x00)
    ||| (if p.overflow then 0x20 else 0x00)

/-- What reading PPUSTATUS leaves (R252). -/
def Ppu.afterStatusRead (p : Ppu) : Ppu := { p with vblank := false, w := false }

/-- WriteOAMADDR (R253). -/
def Ppu.writeOamAddr (p : Ppu) (d : Byte) : Ppu := { p with oamaddr := d }

/-- ReadOAMDATA (R254). -/
def Ppu.readOamData (p : Ppu) : Byte := p.oam.read p.oamaddr.toNat

/-- WriteOAMDATA (R254). -/
def Ppu.writeOamData (p : Ppu) (d : Byte) : Ppu :=
  { p with oam := p.oam.write p.oamaddr.toNat d, oamaddr := p.oamaddr + 1 }

/-- WritePPUSCROLL (R255). -/
def Ppu.writeScroll (p : Ppu) (d : Byte) : Ppu :=
  if p.w then
    { p with
      t := (p.t &&& ~~~ 0x73E0#15) ||| (((d >>> 3).setWidth 15) <<< 5)
        ||| (((d &&& 7).setWidth 15) <<< 12),
      w := false }
  else
    { p with
      t := (p.t &&& ~~~ 0x001F#15) ||| (d >>> 3).setWidth 15,
      x := d.setWidth 3,
      w := true }

/-- WritePPUADDR (R256). -/
def Ppu.writeAddr (p : Ppu) (d : Byte) : Ppu :=
  if p.w then
    let t := (p.t &&& 0x7F00#15) ||| d.setWidth 15
    { p with t := t, v := t, w := false }
  else
    { p with t := (p.t &&& 0x00FF#15) ||| (((d &&& 0x3F).setWidth 15) <<< 8), w := true }

/-- ReadPPUDATA (R257). -/
def Ppu.readData (cd : Nat) (p : Ppu) (c : Cart) : Byte × Ppu × Cart :=
  let a := p.v.toNat &&& 0x3FFF
  if a < 0x3F00 then
    let r := p.busRead cd c a
    (p.readBuffer, { p with readBuffer := r.1, v := p.v + p.inc }, r.2)
  else
    let r := p.busRead cd c a
    let under := p.busRead cd r.2 (p.v - 0x1000).toNat
    (r.1, { p with readBuffer := under.1, v := p.v + p.inc }, under.2)

/-- WritePPUDATA (R258). -/
def Ppu.writeData (cd : Nat) (p : Ppu) (c : Cart) (d : Byte) : Ppu × Cart :=
  let r := p.busWrite cd c p.v.toNat d
  ({ r.1 with v := p.v + p.inc }, r.2)

/-- PpuRegRead of register `$2000 + k`, k = 0..7 (R259). -/
def Ppu.regRead (cd : Nat) (p : Ppu) (c : Cart) (k : Nat) : Byte × Ppu × Cart :=
  match k with
  | 2 => (p.statusByte, p.afterStatusRead, c)
  | 4 => (p.readOamData, p, c)
  | 7 => p.readData cd c
  | _ => (0x00, p, c)

/-- PpuRegWrite of register `$2000 + k`, k = 0..7 (R259); $2002 ignores it. -/
def Ppu.regWrite (cd : Nat) (p : Ppu) (c : Cart) (k : Nat) (d : Byte) : Ppu × Cart :=
  match k with
  | 0 => (p.writeCtrl d, c)
  | 1 => (p.writeMask d, c)
  | 3 => (p.writeOamAddr d, c)
  | 4 => (p.writeOamData d, c)
  | 5 => (p.writeScroll d, c)
  | 6 => (p.writeAddr d, c)
  | 7 => p.writeData cd c d
  | _ => (p, c)

end Sys2Proof.Machine
end

