-- ==== Sys2Proof/Machine/Ops.lean ====
section
/-! DEFINITION. The named operations on the machine: register writes, the CPU bus decoder
(spec/20_memory.md R50, R51) with OAM DMA (R57), Read16, Push and Pull (spec/00_scope.md R12), taking
an interrupt or BRK and returning from one, and the CPU's entry procedures (spec/60_exceptions.md
R211 to R217). -/

namespace Sys2Proof.Machine

open Sys2Proof

/-! Register writes. The only ways a CPU register changes. -/

def State.setA (s : State) (v : Byte) : State := { s with cpu := { s.cpu with a := v } }
def State.setX (s : State) (v : Byte) : State := { s with cpu := { s.cpu with x := v } }
def State.setY (s : State) (v : Byte) : State := { s with cpu := { s.cpu with y := v } }
def State.setSp (s : State) (v : Byte) : State := { s with cpu := { s.cpu with sp := v } }
def State.setPc (s : State) (v : Word) : State := { s with cpu := { s.cpu with pc := v } }

/-- `P <- v`: every write to P holds B at 0 and U at 1 (spec/10_state.md R26, R28). -/
def State.setP (s : State) (v : Byte) : State := { s with cpu := { s.cpu with p := normP v } }

/-- `P.f <- b`. -/
def State.setFlag (s : State) (f : Flag) (b : Bool) : State :=
  s.setP (Machine.setFlag s.cpu.p f b)

/-- `SetZN(r)` (spec/00_scope.md R14). -/
def State.updateZN (s : State) (r : Byte) : State := s.setP (setZN s.cpu.p r)

/-- Cycles the CPU owes the driver (spec/10_state.md R32). -/
def State.addCycles (s : State) (n : Nat) : State :=
  { s with cpu := { s.cpu with extraCycles := s.cpu.extraCycles + n } }

/-- The CPU is halted with its record (R31). -/
def State.halt (s : State) (op : Byte) (addr : Word) : State :=
  { s with cpu := { s.cpu with pc := addr, halted := some (op, addr) } }

/-! The CPU bus. -/

/-- BusRead (R50): the byte, and the state after the device's read side effects. -/
def State.busRead (s : State) (a : Word) : Byte × State :=
  let n := a.toNat
  if n ≤ 0x1FFF then (s.ram.read (n % 0x800), s)
  else if n ≤ 0x3FFF then
    let r := s.ppu.regRead s.params.a12Cooldown s.cart (n % 8)
    (r.1, { s with ppu := r.2.1, cart := r.2.2 })
  else if n = 0x4016 then
    let r := s.pads.read .one
    (r.1, { s with pads := r.2 })
  else if n = 0x4017 then
    let r := s.pads.read .two
    (r.1, { s with pads := r.2 })
  else if n ≤ 0x401F then (0x00, s)
  else (s.cart.cpuRead n, s)

/-- One byte of OAM DMA from page `page` (R57). -/
def State.oamDmaByte (page : Byte) (s : State) (i : Nat) : State :=
  let r := s.busRead (word16 page (BitVec.ofNat 8 i))
  { r.2 with ppu := { r.2.ppu with
      oam := r.2.ppu.oam.write ((r.2.ppu.oamaddr.toNat + i) % 256) r.1 } }

/-- The number DMA_CYCLES stands for (R58). -/
def dmaCycles : DmaCost → Nat
  | .c513 => 513
  | .c514 => 514

/-- OamDma (R57, R58). -/
def State.oamDma (s : State) (page : Byte) : State :=
  ((List.range 256).foldl (State.oamDmaByte page) s).addCycles (dmaCycles s.params.dmaCost)

/-- BusWrite (R51). -/
def State.busWrite (s : State) (a : Word) (d : Byte) : State :=
  let n := a.toNat
  if n ≤ 0x1FFF then { s with ram := s.ram.write (n % 0x800) d }
  else if n ≤ 0x3FFF then
    let r := s.ppu.regWrite s.params.a12Cooldown s.cart (n % 8) d
    { s with ppu := r.1, cart := r.2 }
  else if n = 0x4014 then s.oamDma d
  else if n = 0x4016 then { s with pads := s.pads.strobeWrite d }
  else if n ≤ 0x401F then s
  else { s with cart := s.cart.cpuWrite n d }

/-- Read16 (spec/00_scope.md R12): low byte first, then high. -/
def State.read16 (s : State) (a : Word) : Word × State :=
  let lo := s.busRead a
  let hi := lo.2.busRead (a + 1)
  (word16 hi.1 lo.1, hi.2)

/-! The stack, in page 1 (spec/10_state.md R23). -/

/-- The address `0x0100 | SP`. -/
def stackAddr (sp : Byte) : Word := word16 0x01 sp

/-- Push. -/
def State.push (s : State) (v : Byte) : State :=
  (s.busWrite (stackAddr s.cpu.sp) v).setSp (s.cpu.sp - 1)

/-- Pull. -/
def State.pull (s : State) : Byte × State :=
  let s1 := s.setSp (s.cpu.sp + 1)
  s1.busRead (stackAddr s1.cpu.sp)

/-- A word pushed high byte first (spec/20_memory.md R59). -/
def State.pushWord (s : State) (w : Word) : State := (s.push (hiByte w)).push (loByte w)

/-- A word pulled low byte first. -/
def State.pullWord (s : State) : Word × State :=
  let lo := s.pull
  let hi := lo.2.pull
  (word16 hi.1 lo.1, hi.2)

/-! Taking an exception, and returning. -/

/-- The entry BRK, NMI and IRQ share (spec/60_exceptions.md R210, R212, R213,
spec/43_control_transfer.md R183): push the return address and a status byte, set P.I, load PC from
the vector. -/
def State.enterVector (s : State) (ret : Word) (pushed : Byte) (vector : Word) : State :=
  let s1 := (s.pushWord ret).push pushed
  let s2 := s1.setFlag .i true
  let r := s2.read16 vector
  r.2.setPc r.1

/-- The return from one (R184, R217): P from the stack with B discarded and U forced, then PC. -/
def State.returnFromInterrupt (s : State) : State :=
  let p := s.pull
  let w := (p.2.setP p.1).pullWord
  w.2.setPc w.1

/-- CpuNmi (R212, R214). -/
def State.cpuNmi (s : State) : State :=
  match s.cpu.halted with
  | some _ => s
  | none => (s.enterVector s.cpu.pc (pushedByInterrupt s.cpu.p) 0xFFFA).addCycles 7

/-- CpuIrq (R213, R214): suppressed while P.I = 1. -/
def State.cpuIrq (s : State) : State :=
  match s.cpu.halted with
  | some _ => s
  | none =>
    if getFlag s.cpu.p .i then s
    else (s.enterVector s.cpu.pc (pushedByInterrupt s.cpu.p) 0xFFFE).addCycles 7

/-- CpuReset (R211). -/
def State.cpuReset (s : State) : State :=
  let s1 := { s with cpu := { s.cpu with
    a := 0, x := 0, y := 0, sp := 0xFD, p := 0x24, halted := none, extraCycles := 0 } }
  let r := s1.read16 0xFFFC
  r.2.setPc r.1

end Sys2Proof.Machine
end

