-- ==== Sys2Proof/Syntax.lean ====
section
/-! DEFINITION. The instructions of spec/opcode_table.json. The table has one row per opcode byte;
a row is a mnemonic and an operand form, so Instr has one constructor per mnemonic with the form as
its argument (DESIGN CHOICE, log entry 9). NOP has two: the documented row and the unofficial ones. -/

namespace Sys2Proof

/-- The memory operand forms (spec/30_encoding.md R91, R93 to R96). -/
inductive MemOperand where
  | zp  (z : Byte)
  | zpx (z : Byte)
  | zpy (z : Byte)
  | abs (a : Word)
  | abx (a : Word)
  | aby (a : Word)
  | izx (z : Byte)
  | izy (z : Byte)
  deriving DecidableEq, Repr

/-- What a read instruction takes M from: the immediate byte or memory (R92, R15). -/
inductive Source where
  | imm (v : Byte)
  | mem (m : MemOperand)
  deriving DecidableEq, Repr

/-- What a shift works on: A or memory (R92). -/
inductive Target where
  | acc
  | mem (m : MemOperand)
  deriving DecidableEq, Repr

/-- The two forms of JMP (R97). -/
inductive JumpTarget where
  | abs (a : Word)
  | ind (p : Word)
  deriving DecidableEq, Repr

/-- The operand an unofficial NOP carries and does not use (spec/45_unofficial.md R202). -/
inductive NopOperand where
  | imp
  | imm (v : Byte)
  | zp  (z : Byte)
  | zpx (z : Byte)
  | abs (a : Word)
  | abx (a : Word)
  deriving DecidableEq, Repr

/-- The instruction set. `nopUnofficial`, `kil` and `unknown` carry their opcode byte, because
several opcodes share one row form (R202, R203, R204). -/
inductive Instr where
  -- spec/40_load_store_transfer.md
  | lda (o : Source)
  | ldx (o : Source)
  | ldy (o : Source)
  | sta (m : MemOperand)
  | stx (m : MemOperand)
  | sty (m : MemOperand)
  | tax
  | tay
  | txa
  | tya
  | tsx
  | txs
  | pha
  | pla
  | php
  | plp
  -- spec/41_arithmetic_logic.md
  | adc (o : Source)
  | sbc (o : Source)
  | and (o : Source)
  | ora (o : Source)
  | eor (o : Source)
  | cmp (o : Source)
  | cpx (o : Source)
  | cpy (o : Source)
  | bit (m : MemOperand)
  | inc (m : MemOperand)
  | dec (m : MemOperand)
  | inx
  | iny
  | dex
  | dey
  -- spec/42_shift_rotate.md
  | asl (t : Target)
  | lsr (t : Target)
  | rol (t : Target)
  | ror (t : Target)
  -- spec/43_control_transfer.md
  | jmp (t : JumpTarget)
  | jsr (a : Word)
  | rts
  | bpl (d : Byte)
  | bmi (d : Byte)
  | bvc (d : Byte)
  | bvs (d : Byte)
  | bcc (d : Byte)
  | bcs (d : Byte)
  | bne (d : Byte)
  | beq (d : Byte)
  | brk
  | rti
  -- spec/44_flags_misc.md
  | clc
  | sec
  | cli
  | sei
  | cld
  | sed
  | clv
  | nop
  -- spec/45_unofficial.md
  | slo (m : MemOperand)
  | nopUnofficial (op : Byte) (o : NopOperand)
  | kil (op : Byte)
  | unknown (op : Byte)
  deriving DecidableEq, Repr

end Sys2Proof
end

