-- ==== Sys2Proof/Machine/Operands.lean ====
section
/-! DEFINITION. Every operand form (spec/30_encoding.md R92 to R97): effective addresses, the operand
value M, the read-modify-write access, the branch target, the indirect pointer of JMP. They run on the
state after the operand bytes have been fetched (R98), so PC is the next instruction's address. -/

namespace Sys2Proof.Machine

open Sys2Proof

/-- The byte at a zero-page address. Page 0 is RAM, so the read has no side effect
(spec/20_memory.md R50, R62; DEDUCED, log entry 19). -/
def State.zeroPage (s : State) (z : Byte) : Byte := (s.busRead (zext16 z)).1

/-- The little-endian pointer at z, its second byte wrapping within page 0 (R95, R96). -/
def State.zeroPagePointer (s : State) (z : Byte) : Word :=
  word16 (s.zeroPage (z + 1)) (s.zeroPage z)

/-- The address an index is added to: abs16, or the pointer of (zp),Y; else the address itself. -/
def State.eaBase (s : State) : MemOperand → Word
  | .zp z  => zext16 z
  | .zpx z => zext16 (z + s.cpu.x)
  | .zpy z => zext16 (z + s.cpu.y)
  | .abs a => a
  | .abx a => a
  | .aby a => a
  | .izx z => s.zeroPagePointer (z + s.cpu.x)
  | .izy z => s.zeroPagePointer z

/-- The effective address EA (R93 to R96). -/
def State.ea (s : State) : MemOperand → Word
  | .zp z  => zext16 z
  | .zpx z => zext16 (z + s.cpu.x)
  | .zpy z => zext16 (z + s.cpu.y)
  | .abs a => a
  | .abx a => a + zext16 s.cpu.x
  | .aby a => a + zext16 s.cpu.y
  | .izx z => s.zeroPagePointer (z + s.cpu.x)
  | .izy z => s.zeroPagePointer z + zext16 s.cpu.y

/-- *Page crossed* (R94, R96). -/
def State.pageCrossed (s : State) (m : MemOperand) : Bool := hiByte (s.ea m) != hiByte (s.eaBase m)

/-- M of a read instruction: one MemRead in a memory form (R99). -/
def State.load (s : State) : Source → Byte × State
  | .imm v => (v, s)
  | .mem m => s.busRead (s.ea m)

/-- A read-modify-write access of EA: one read, then one write of the result (R99). -/
def State.modify (s : State) (m : MemOperand) (f : Byte → Byte) : Byte × State :=
  let r := s.busRead (s.ea m)
  (r.1, r.2.busWrite (s.ea m) (f r.1))

/-- A shift or rotate of A or memory (spec/42_shift_rotate.md): f gives the result and the carry from
the value and the old carry. -/
def State.shift (s : State) (t : Target) (f : Byte → Bool → Byte × Bool) : State :=
  let c := getFlag s.cpu.p .c
  match t with
  | .acc =>
    let r := f s.cpu.a c
    (s.setA r.1).setP (shiftFlags s.cpu.p r.1 r.2)
  | .mem m =>
    let a := s.modify m (fun v => (f v c).1)
    let r := f a.1 c
    a.2.setP (shiftFlags s.cpu.p r.1 r.2)

/-- The target of a branch (R97). -/
def State.branchTarget (s : State) (d : Byte) : Word := s.cpu.pc + sext16 d

/-- A branch that tests flag f for value b (spec/43_control_transfer.md R174). -/
def State.branch (s : State) (f : Flag) (b : Bool) (d : Byte) : State :=
  if getFlag s.cpu.p f = b then s.setPc (s.branchTarget d) else s

/-- IndTarget (R171): the pointer's high byte comes from the pointer's own page. -/
def State.indTarget (s : State) (p : Word) : Word × State :=
  let lo := s.busRead p
  let hi := lo.2.busRead (word16 (hiByte p) (loByte p + 1))
  (word16 hi.1 lo.1, hi.2)

end Sys2Proof.Machine
end

