-- ==== Sys2Proof/Machine/Arithmetic.lean ====
section
/-! DEFINITION. Arithmetic, logic, compare and increment instructions
(spec/41_arithmetic_logic.md R140 to R155), and the shifts (spec/42_shift_rotate.md R160 to R163). -/

namespace Sys2Proof.Machine

open Sys2Proof

/-- A gets r, and Z and N follow it. -/
def State.setAccumulator (s : State) (r : Byte) : State := (s.setA r).updateZN r

/-- A + m + C into A, with C, V, Z, N (R140); P.D changes nothing (R155). -/
def State.addToA (s : State) (m : Byte) : State :=
  (s.setA (adcResult s.cpu.a m s.cpu.p)).setP (adcFlags s.cpu.a m s.cpu.p)

/-- ADC (R140). -/
def execAdc (o : Source) (s : State) : Host.Outcome State Fault Refusal :=
  let r := s.load o
  .next (r.2.addToA r.1)

/-- SBC (R141): ADC of M ^ 0xFF. -/
def execSbc (o : Source) (s : State) : Host.Outcome State Fault Refusal :=
  let r := s.load o
  .next (r.2.addToA (r.1 ^^^ 0xFF))

/-- AND (R142). -/
def execAnd (o : Source) (s : State) : Host.Outcome State Fault Refusal :=
  let r := s.load o
  .next (r.2.setAccumulator (s.cpu.a &&& r.1))

/-- ORA (R143). -/
def execOra (o : Source) (s : State) : Host.Outcome State Fault Refusal :=
  let r := s.load o
  .next (r.2.setAccumulator (s.cpu.a ||| r.1))

/-- EOR (R144). -/
def execEor (o : Source) (s : State) : Host.Outcome State Fault Refusal :=
  let r := s.load o
  .next (r.2.setAccumulator (s.cpu.a ^^^ r.1))

/-- CMP (R145). -/
def execCmp (o : Source) (s : State) : Host.Outcome State Fault Refusal :=
  let r := s.load o
  .next (r.2.setP (cmpFlags s.cpu.a r.1 s.cpu.p))

/-- CPX (R146). -/
def execCpx (o : Source) (s : State) : Host.Outcome State Fault Refusal :=
  let r := s.load o
  .next (r.2.setP (cmpFlags s.cpu.x r.1 s.cpu.p))

/-- CPY (R147). -/
def execCpy (o : Source) (s : State) : Host.Outcome State Fault Refusal :=
  let r := s.load o
  .next (r.2.setP (cmpFlags s.cpu.y r.1 s.cpu.p))

/-- BIT (R148): N and V come from M, Z from A & M. -/
def execBit (m : MemOperand) (s : State) : Host.Outcome State Fault Refusal :=
  let r := s.busRead (s.ea m)
  .next (r.2.setP (bitFlags s.cpu.a r.1 s.cpu.p))

/-- INC (R149). -/
def execInc (m : MemOperand) (s : State) : Host.Outcome State Fault Refusal :=
  let r := s.modify m (fun v => v + 1)
  .next (r.2.updateZN (r.1 + 1))

/-- DEC (R150). -/
def execDec (m : MemOperand) (s : State) : Host.Outcome State Fault Refusal :=
  let r := s.modify m (fun v => v - 1)
  .next (r.2.updateZN (r.1 - 1))

/-- INX (R151). -/
def execInx (s : State) : Host.Outcome State Fault Refusal :=
  .next ((s.setX (s.cpu.x + 1)).updateZN (s.cpu.x + 1))

/-- INY (R152). -/
def execIny (s : State) : Host.Outcome State Fault Refusal :=
  .next ((s.setY (s.cpu.y + 1)).updateZN (s.cpu.y + 1))

/-- DEX (R153). -/
def execDex (s : State) : Host.Outcome State Fault Refusal :=
  .next ((s.setX (s.cpu.x - 1)).updateZN (s.cpu.x - 1))

/-- DEY (R154). -/
def execDey (s : State) : Host.Outcome State Fault Refusal :=
  .next ((s.setY (s.cpu.y - 1)).updateZN (s.cpu.y - 1))

/-- ASL (R160). -/
def execAsl (t : Target) (s : State) : Host.Outcome State Fault Refusal :=
  .next (s.shift t aslByte)

/-- LSR (R161). -/
def execLsr (t : Target) (s : State) : Host.Outcome State Fault Refusal :=
  .next (s.shift t lsrByte)

/-- ROL (R162). -/
def execRol (t : Target) (s : State) : Host.Outcome State Fault Refusal :=
  .next (s.shift t rolByte)

/-- ROR (R163). -/
def execRor (t : Target) (s : State) : Host.Outcome State Fault Refusal :=
  .next (s.shift t rorByte)

end Sys2Proof.Machine
end

