-- ==== Sys2Proof/Machine/Control.lean ====
section
/-! DEFINITION. Jumps, subroutines, branches, BRK and RTI (spec/43_control_transfer.md R170 to R185). -/

namespace Sys2Proof.Machine

open Sys2Proof

/-- JMP (R170). -/
def execJmp (t : JumpTarget) (s : State) : Host.Outcome State Fault Refusal :=
  match t with
  | .abs a => .next (s.setPc a)
  | .ind p =>
    let r := s.indTarget p
    .next (r.2.setPc r.1)

/-- JSR (R172): the pushed address is the JSR's last byte. -/
def execJsr (a : Word) (s : State) : Host.Outcome State Fault Refusal :=
  .next ((s.pushWord (s.cpu.pc - 1)).setPc a)

/-- RTS (R173). -/
def execRts (s : State) : Host.Outcome State Fault Refusal :=
  let r := s.pullWord
  .next (r.2.setPc (r.1 + 1))

/-- BPL (R175). -/
def execBpl (d : Byte) (s : State) : Host.Outcome State Fault Refusal := .next (s.branch .n false d)

/-- BMI (R176). -/
def execBmi (d : Byte) (s : State) : Host.Outcome State Fault Refusal := .next (s.branch .n true d)

/-- BVC (R177). -/
def execBvc (d : Byte) (s : State) : Host.Outcome State Fault Refusal := .next (s.branch .v false d)

/-- BVS (R178). -/
def execBvs (d : Byte) (s : State) : Host.Outcome State Fault Refusal := .next (s.branch .v true d)

/-- BCC (R179). -/
def execBcc (d : Byte) (s : State) : Host.Outcome State Fault Refusal := .next (s.branch .c false d)

/-- BCS (R180). -/
def execBcs (d : Byte) (s : State) : Host.Outcome State Fault Refusal := .next (s.branch .c true d)

/-- BNE (R181). -/
def execBne (d : Byte) (s : State) : Host.Outcome State Fault Refusal := .next (s.branch .z false d)

/-- BEQ (R182). -/
def execBeq (d : Byte) (s : State) : Host.Outcome State Fault Refusal := .next (s.branch .z true d)

/-- BRK (R183): the return address skips the signature byte; P.I does not mask it. -/
def execBrk (s : State) : Host.Outcome State Fault Refusal :=
  .next (s.enterVector (s.cpu.pc + 1) (pushedByBrk s.cpu.p) 0xFFFE)

/-- RTI (R184). -/
def execRti (s : State) : Host.Outcome State Fault Refusal :=
  .next s.returnFromInterrupt

end Sys2Proof.Machine
end

