-- ==== Sys2Proof/Machine/FlagOps.lean ====
section
/-! DEFINITION. Flag instructions and the documented NOP (spec/44_flags_misc.md R190 to R197). -/

namespace Sys2Proof.Machine

open Sys2Proof

/-- CLC (R190). -/
def execClc (s : State) : Host.Outcome State Fault Refusal := .next (s.setFlag .c false)

/-- SEC (R191). -/
def execSec (s : State) : Host.Outcome State Fault Refusal := .next (s.setFlag .c true)

/-- CLI (R192). -/
def execCli (s : State) : Host.Outcome State Fault Refusal := .next (s.setFlag .i false)

/-- SEI (R193). -/
def execSei (s : State) : Host.Outcome State Fault Refusal := .next (s.setFlag .i true)

/-- CLD (R194). -/
def execCld (s : State) : Host.Outcome State Fault Refusal := .next (s.setFlag .d false)

/-- SED (R195). -/
def execSed (s : State) : Host.Outcome State Fault Refusal := .next (s.setFlag .d true)

/-- CLV (R196). -/
def execClv (s : State) : Host.Outcome State Fault Refusal := .next (s.setFlag .v false)

/-- NOP (R197). -/
def execNop (s : State) : Host.Outcome State Fault Refusal := .next s

end Sys2Proof.Machine
end

