-- ==== Sys2Proof/Machine/LoadStore.lean ====
section
/-! DEFINITION. Loads, stores, transfers and stack instructions
(spec/40_load_store_transfer.md R120 to R135). -/

namespace Sys2Proof.Machine

open Sys2Proof

/-- LDA (R120). -/
def execLda (o : Source) (s : State) : Host.Outcome State Fault Refusal :=
  let r := s.load o
  .next ((r.2.setA r.1).updateZN r.1)

/-- LDX (R121). -/
def execLdx (o : Source) (s : State) : Host.Outcome State Fault Refusal :=
  let r := s.load o
  .next ((r.2.setX r.1).updateZN r.1)

/-- LDY (R122). -/
def execLdy (o : Source) (s : State) : Host.Outcome State Fault Refusal :=
  let r := s.load o
  .next ((r.2.setY r.1).updateZN r.1)

/-- STA (R123): no read of EA. -/
def execSta (m : MemOperand) (s : State) : Host.Outcome State Fault Refusal :=
  .next (s.busWrite (s.ea m) s.cpu.a)

/-- STX (R124). -/
def execStx (m : MemOperand) (s : State) : Host.Outcome State Fault Refusal :=
  .next (s.busWrite (s.ea m) s.cpu.x)

/-- STY (R125). -/
def execSty (m : MemOperand) (s : State) : Host.Outcome State Fault Refusal :=
  .next (s.busWrite (s.ea m) s.cpu.y)

/-- TAX (R126). -/
def execTax (s : State) : Host.Outcome State Fault Refusal :=
  .next ((s.setX s.cpu.a).updateZN s.cpu.a)

/-- TAY (R127). -/
def execTay (s : State) : Host.Outcome State Fault Refusal :=
  .next ((s.setY s.cpu.a).updateZN s.cpu.a)

/-- TXA (R128). -/
def execTxa (s : State) : Host.Outcome State Fault Refusal :=
  .next ((s.setA s.cpu.x).updateZN s.cpu.x)

/-- TYA (R129). -/
def execTya (s : State) : Host.Outcome State Fault Refusal :=
  .next ((s.setA s.cpu.y).updateZN s.cpu.y)

/-- TSX (R130). -/
def execTsx (s : State) : Host.Outcome State Fault Refusal :=
  .next ((s.setX s.cpu.sp).updateZN s.cpu.sp)

/-- TXS (R131): it writes no flag. -/
def execTxs (s : State) : Host.Outcome State Fault Refusal :=
  .next (s.setSp s.cpu.x)

/-- PHA (R132). -/
def execPha (s : State) : Host.Outcome State Fault Refusal :=
  .next (s.push s.cpu.a)

/-- PLA (R133). -/
def execPla (s : State) : Host.Outcome State Fault Refusal :=
  let r := s.pull
  .next ((r.2.setA r.1).updateZN r.1)

/-- PHP (R134): B and U are 1 in the pushed byte. -/
def execPhp (s : State) : Host.Outcome State Fault Refusal :=
  .next (s.push (pushedByBrk s.cpu.p))

/-- PLP (R135). -/
def execPlp (s : State) : Host.Outcome State Fault Refusal :=
  let r := s.pull
  .next (r.2.setP r.1)

end Sys2Proof.Machine
end

