-- ==== Sys2Proof/Machine/Unofficial.lean ====
section
/-! DEFINITION. SLO, the unofficial NOPs, KIL and the unknown opcodes
(spec/45_unofficial.md R200 to R204). -/

namespace Sys2Proof.Machine

open Sys2Proof

/-- SLO (R200): shift memory left, then OR it into A; Z and N from the new A. -/
def execSlo (m : MemOperand) (s : State) : Host.Outcome State Fault Refusal :=
  let r := s.modify m (fun v => v <<< 1)
  let a := s.cpu.a ||| (r.1 <<< 1)
  .next ((r.2.setA a).setP (shiftFlags s.cpu.p a (r.1.getLsbD 7)))

/-- An unofficial NOP (R202): nothing beyond the fetches, and no read of the operand's address. -/
def execNopUnofficial (_ : Byte) (_ : NopOperand) (s : State) : Host.Outcome State Fault Refusal :=
  .next s

/-- The halt of KIL and unknown opcodes (R203): PC goes back to the opcode's address, which is
recorded with the opcode byte, in a next state (DEDUCED, log entry 6). PC is one past it here: the
opcode fetch is the only bus access. -/
def State.haltAtOpcode (s : State) (op : Byte) : State := s.halt op (s.cpu.pc - 1)

/-- KIL (R203). -/
def execKil (op : Byte) (s : State) : Host.Outcome State Fault Refusal := .next (s.haltAtOpcode op)

/-- Unknown opcodes (R204). -/
def execUnknown (op : Byte) (s : State) : Host.Outcome State Fault Refusal :=
  .next (s.haltAtOpcode op)

end Sys2Proof.Machine
end

