-- ==== Sys2Proof/WellFormed.lean ====
section
/-! DEFINITION. Which operand forms each mnemonic has (the Encoding line of each rule of
spec/40 to spec/45), and which opcode bytes the rows that carry one admit. Operand bytes have no
reserved values (spec/30_encoding.md R102). exec has a meaning for ill-formed terms too, which the
decoder never gives (DESIGN CHOICE, log entry 17). -/

namespace Sys2Proof

/-- The name of a memory operand form. -/
inductive MemMode where
  | zp | zpx | zpy | abs | abx | aby | izx | izy
  deriving DecidableEq, Repr

def MemOperand.mode : MemOperand → MemMode
  | .zp _  => .zp
  | .zpx _ => .zpx
  | .zpy _ => .zpy
  | .abs _ => .abs
  | .abx _ => .abx
  | .aby _ => .aby
  | .izx _ => .izx
  | .izy _ => .izy

/-- m's form is one of the listed ones. -/
def MemOperand.isOneOf (m : MemOperand) (l : List MemMode) : Bool := l.contains m.mode

/-- An immediate, or a memory form that is listed. -/
def Source.isOneOf (l : List MemMode) : Source → Bool
  | .imm _ => true
  | .mem m => m.isOneOf l

/-- The accumulator, or a memory form that is listed. -/
def Target.isOneOf (l : List MemMode) : Target → Bool
  | .acc   => true
  | .mem m => m.isOneOf l

/-- The seven memory forms LDA, STA, ADC, SBC, AND, ORA, EOR, CMP and SLO have (R120, R123, R140 to
R145, R200). -/
def modesAcc : List MemMode := [.zp, .zpx, .abs, .abx, .aby, .izx, .izy]
/-- R121. -/
def modesLdx : List MemMode := [.zp, .zpy, .abs, .aby]
/-- R122; also the four forms of the shifts, INC and DEC (R149, R150, R160 to R163). -/
def modesLdy : List MemMode := [.zp, .zpx, .abs, .abx]
/-- R124. -/
def modesStx : List MemMode := [.zp, .zpy, .abs]
/-- R125. -/
def modesSty : List MemMode := [.zp, .zpx, .abs]
/-- R146, R147, R148. -/
def modesCpx : List MemMode := [.zp, .abs]

/-- The KIL opcodes (spec/45_unofficial.md R203). -/
def kilOpcodes : List Byte :=
  [0x02, 0x12, 0x22, 0x32, 0x42, 0x52, 0x62, 0x72, 0x92, 0xB2, 0xD2, 0xF2]

/-- The unknown opcodes, in R204's order. -/
def unknownOpcodes : List Byte :=
  [0x0B, 0x2B, 0x4B, 0x6B, 0x8B, 0xAB, 0xCB, 0xEB]
    ++ [0x23, 0x27, 0x2F, 0x33, 0x37, 0x3B, 0x3F]
    ++ [0x43, 0x47, 0x4F, 0x53, 0x57, 0x5B, 0x5F]
    ++ [0x63, 0x67, 0x6F, 0x73, 0x77, 0x7B, 0x7F]
    ++ [0x83, 0x87, 0x8F, 0x93, 0x97, 0x9B, 0x9F]
    ++ [0xA3, 0xA7, 0xAF, 0xB3, 0xB7, 0xBB, 0xBF]
    ++ [0xC3, 0xC7, 0xCF, 0xD3, 0xD7, 0xDB, 0xDF]
    ++ [0xE3, 0xE7, 0xEF, 0xF3, 0xF7, 0xFB, 0xFF]
    ++ [0x9C, 0x9E]

/-- The unofficial NOP opcodes of each form (R202). -/
def nopOpcodes : NopOperand → List Byte
  | .imp   => [0x1A, 0x3A, 0x5A, 0x7A, 0xDA, 0xFA]
  | .imm _ => [0x80, 0x82, 0x89, 0xC2, 0xE2]
  | .zp _  => [0x04, 0x44, 0x64]
  | .zpx _ => [0x14, 0x34, 0x54, 0x74, 0xD4, 0xF4]
  | .abs _ => [0x0C]
  | .abx _ => [0x1C, 0x3C, 0x5C, 0x7C, 0xDC, 0xFC]

/-- i is a row of the opcode table with operands. -/
def Instr.wf : Instr → Bool
  | .lda o => o.isOneOf modesAcc
  | .ldx o => o.isOneOf modesLdx
  | .ldy o => o.isOneOf modesLdy
  | .sta m => m.isOneOf modesAcc
  | .stx m => m.isOneOf modesStx
  | .sty m => m.isOneOf modesSty
  | .tax => true
  | .tay => true
  | .txa => true
  | .tya => true
  | .tsx => true
  | .txs => true
  | .pha => true
  | .pla => true
  | .php => true
  | .plp => true
  | .adc o => o.isOneOf modesAcc
  | .sbc o => o.isOneOf modesAcc
  | .and o => o.isOneOf modesAcc
  | .ora o => o.isOneOf modesAcc
  | .eor o => o.isOneOf modesAcc
  | .cmp o => o.isOneOf modesAcc
  | .cpx o => o.isOneOf modesCpx
  | .cpy o => o.isOneOf modesCpx
  | .bit m => m.isOneOf modesCpx
  | .inc m => m.isOneOf modesLdy
  | .dec m => m.isOneOf modesLdy
  | .inx => true
  | .iny => true
  | .dex => true
  | .dey => true
  | .asl t => t.isOneOf modesLdy
  | .lsr t => t.isOneOf modesLdy
  | .rol t => t.isOneOf modesLdy
  | .ror t => t.isOneOf modesLdy
  | .jmp _ => true
  | .jsr _ => true
  | .rts => true
  | .bpl _ => true
  | .bmi _ => true
  | .bvc _ => true
  | .bvs _ => true
  | .bcc _ => true
  | .bcs _ => true
  | .bne _ => true
  | .beq _ => true
  | .brk => true
  | .rti => true
  | .clc => true
  | .sec => true
  | .cli => true
  | .sei => true
  | .cld => true
  | .sed => true
  | .clv => true
  | .nop => true
  | .slo m => m.isOneOf modesAcc
  | .nopUnofficial op o => (nopOpcodes o).contains op
  | .kil op => kilOpcodes.contains op
  | .unknown op => unknownOpcodes.contains op

end Sys2Proof
end

