-- ==== Sys2Proof/Decode.lean ====
section
/-! DEFINITION. The opcode map of spec/30_encoding.md R100, one function per high nibble and one arm
per low nibble as the spec's table has them; the decoder over bytes; the encoder, written from the
Encoding lines of the instruction rules; and the word numbering of spec/opcode_table.json. -/

namespace Sys2Proof

open Sys2Proof.Machine

/-- Opcodes 0x of R100. -/
def decodeRow0 (lo : Nat) (op b1 : Byte) (w : Word) : Instr :=
  match lo with
  | 0x0 => .brk
  | 0x1 => .ora (.mem (.izx b1))
  | 0x2 => .kil op
  | 0x3 => .slo (.izx b1)
  | 0x4 => .nopUnofficial op (.zp b1)
  | 0x5 => .ora (.mem (.zp b1))
  | 0x6 => .asl (.mem (.zp b1))
  | 0x7 => .slo (.zp b1)
  | 0x8 => .php
  | 0x9 => .ora (.imm b1)
  | 0xA => .asl .acc
  | 0xB => .unknown op
  | 0xC => .nopUnofficial op (.abs w)
  | 0xD => .ora (.mem (.abs w))
  | 0xE => .asl (.mem (.abs w))
  | _ => .slo (.abs w)

/-- Opcodes 1x of R100. -/
def decodeRow1 (lo : Nat) (op b1 : Byte) (w : Word) : Instr :=
  match lo with
  | 0x0 => .bpl b1
  | 0x1 => .ora (.mem (.izy b1))
  | 0x2 => .kil op
  | 0x3 => .slo (.izy b1)
  | 0x4 => .nopUnofficial op (.zpx b1)
  | 0x5 => .ora (.mem (.zpx b1))
  | 0x6 => .asl (.mem (.zpx b1))
  | 0x7 => .slo (.zpx b1)
  | 0x8 => .clc
  | 0x9 => .ora (.mem (.aby w))
  | 0xA => .nopUnofficial op .imp
  | 0xB => .slo (.aby w)
  | 0xC => .nopUnofficial op (.abx w)
  | 0xD => .ora (.mem (.abx w))
  | 0xE => .asl (.mem (.abx w))
  | _ => .slo (.abx w)

/-- Opcodes 2x of R100. -/
def decodeRow2 (lo : Nat) (op b1 : Byte) (w : Word) : Instr :=
  match lo with
  | 0x0 => .jsr w
  | 0x1 => .and (.mem (.izx b1))
  | 0x2 => .kil op
  | 0x3 => .unknown op
  | 0x4 => .bit (.zp b1)
  | 0x5 => .and (.mem (.zp b1))
  | 0x6 => .rol (.mem (.zp b1))
  | 0x7 => .unknown op
  | 0x8 => .plp
  | 0x9 => .and (.imm b1)
  | 0xA => .rol .acc
  | 0xB => .unknown op
  | 0xC => .bit (.abs w)
  | 0xD => .and (.mem (.abs w))
  | 0xE => .rol (.mem (.abs w))
  | _ => .unknown op

/-- Opcodes 3x of R100. -/
def decodeRow3 (lo : Nat) (op b1 : Byte) (w : Word) : Instr :=
  match lo with
  | 0x0 => .bmi b1
  | 0x1 => .and (.mem (.izy b1))
  | 0x2 => .kil op
  | 0x3 => .unknown op
  | 0x4 => .nopUnofficial op (.zpx b1)
  | 0x5 => .and (.mem (.zpx b1))
  | 0x6 => .rol (.mem (.zpx b1))
  | 0x7 => .unknown op
  | 0x8 => .sec
  | 0x9 => .and (.mem (.aby w))
  | 0xA => .nopUnofficial op .imp
  | 0xB => .unknown op
  | 0xC => .nopUnofficial op (.abx w)
  | 0xD => .and (.mem (.abx w))
  | 0xE => .rol (.mem (.abx w))
  | _ => .unknown op

/-- Opcodes 4x of R100. -/
def decodeRow4 (lo : Nat) (op b1 : Byte) (w : Word) : Instr :=
  match lo with
  | 0x0 => .rti
  | 0x1 => .eor (.mem (.izx b1))
  | 0x2 => .kil op
  | 0x3 => .unknown op
  | 0x4 => .nopUnofficial op (.zp b1)
  | 0x5 => .eor (.mem (.zp b1))
  | 0x6 => .lsr (.mem (.zp b1))
  | 0x7 => .unknown op
  | 0x8 => .pha
  | 0x9 => .eor (.imm b1)
  | 0xA => .lsr .acc
  | 0xB => .unknown op
  | 0xC => .jmp (.abs w)
  | 0xD => .eor (.mem (.abs w))
  | 0xE => .lsr (.mem (.abs w))
  | _ => .unknown op

/-- Opcodes 5x of R100. -/
def decodeRow5 (lo : Nat) (op b1 : Byte) (w : Word) : Instr :=
  match lo with
  | 0x0 => .bvc b1
  | 0x1 => .eor (.mem (.izy b1))
  | 0x2 => .kil op
  | 0x3 => .unknown op
  | 0x4 => .nopUnofficial op (.zpx b1)
  | 0x5 => .eor (.mem (.zpx b1))
  | 0x6 => .lsr (.mem (.zpx b1))
  | 0x7 => .unknown op
  | 0x8 => .cli
  | 0x9 => .eor (.mem (.aby w))
  | 0xA => .nopUnofficial op .imp
  | 0xB => .unknown op
  | 0xC => .nopUnofficial op (.abx w)
  | 0xD => .eor (.mem (.abx w))
  | 0xE => .lsr (.mem (.abx w))
  | _ => .unknown op

/-- Opcodes 6x of R100. -/
def decodeRow6 (lo : Nat) (op b1 : Byte) (w : Word) : Instr :=
  match lo with
  | 0x0 => .rts
  | 0x1 => .adc (.mem (.izx b1))
  | 0x2 => .kil op
  | 0x3 => .unknown op
  | 0x4 => .nopUnofficial op (.zp b1)
  | 0x5 => .adc (.mem (.zp b1))
  | 0x6 => .ror (.mem (.zp b1))
  | 0x7 => .unknown op
  | 0x8 => .pla
  | 0x9 => .adc (.imm b1)
  | 0xA => .ror .acc
  | 0xB => .unknown op
  | 0xC => .jmp (.ind w)
  | 0xD => .adc (.mem (.abs w))
  | 0xE => .ror (.mem (.abs w))
  | _ => .unknown op

/-- Opcodes 7x of R100. -/
def decodeRow7 (lo : Nat) (op b1 : Byte) (w : Word) : Instr :=
  match lo with
  | 0x0 => .bvs b1
  | 0x1 => .adc (.mem (.izy b1))
  | 0x2 => .kil op
  | 0x3 => .unknown op
  | 0x4 => .nopUnofficial op (.zpx b1)
  | 0x5 => .adc (.mem (.zpx b1))
  | 0x6 => .ror (.mem (.zpx b1))
  | 0x7 => .unknown op
  | 0x8 => .sei
  | 0x9 => .adc (.mem (.aby w))
  | 0xA => .nopUnofficial op .imp
  | 0xB => .unknown op
  | 0xC => .nopUnofficial op (.abx w)
  | 0xD => .adc (.mem (.abx w))
  | 0xE => .ror (.mem (.abx w))
  | _ => .unknown op

/-- Opcodes 8x of R100. -/
def decodeRow8 (lo : Nat) (op b1 : Byte) (w : Word) : Instr :=
  match lo with
  | 0x0 => .nopUnofficial op (.imm b1)
  | 0x1 => .sta (.izx b1)
  | 0x2 => .nopUnofficial op (.imm b1)
  | 0x3 => .unknown op
  | 0x4 => .sty (.zp b1)
  | 0x5 => .sta (.zp b1)
  | 0x6 => .stx (.zp b1)
  | 0x7 => .unknown op
  | 0x8 => .dey
  | 0x9 => .nopUnofficial op (.imm b1)
  | 0xA => .txa
  | 0xB => .unknown op
  | 0xC => .sty (.abs w)
  | 0xD => .sta (.abs w)
  | 0xE => .stx (.abs w)
  | _ => .unknown op

/-- Opcodes 9x of R100. -/
def decodeRow9 (lo : Nat) (op b1 : Byte) (w : Word) : Instr :=
  match lo with
  | 0x0 => .bcc b1
  | 0x1 => .sta (.izy b1)
  | 0x2 => .kil op
  | 0x3 => .unknown op
  | 0x4 => .sty (.zpx b1)
  | 0x5 => .sta (.zpx b1)
  | 0x6 => .stx (.zpy b1)
  | 0x7 => .unknown op
  | 0x8 => .tya
  | 0x9 => .sta (.aby w)
  | 0xA => .txs
  | 0xB => .unknown op
  | 0xC => .unknown op
  | 0xD => .sta (.abx w)
  | 0xE => .unknown op
  | _ => .unknown op

/-- Opcodes Ax of R100. -/
def decodeRowA (lo : Nat) (op b1 : Byte) (w : Word) : Instr :=
  match lo with
  | 0x0 => .ldy (.imm b1)
  | 0x1 => .lda (.mem (.izx b1))
  | 0x2 => .ldx (.imm b1)
  | 0x3 => .unknown op
  | 0x4 => .ldy (.mem (.zp b1))
  | 0x5 => .lda (.mem (.zp b1))
  | 0x6 => .ldx (.mem (.zp b1))
  | 0x7 => .unknown op
  | 0x8 => .tay
  | 0x9 => .lda (.imm b1)
  | 0xA => .tax
  | 0xB => .unknown op
  | 0xC => .ldy (.mem (.abs w))
  | 0xD => .lda (.mem (.abs w))
  | 0xE => .ldx (.mem (.abs w))
  | _ => .unknown op

/-- Opcodes Bx of R100. -/
def decodeRowB (lo : Nat) (op b1 : Byte) (w : Word) : Instr :=
  match lo with
  | 0x0 => .bcs b1
  | 0x1 => .lda (.mem (.izy b1))
  | 0x2 => .kil op
  | 0x3 => .unknown op
  | 0x4 => .ldy (.mem (.zpx b1))
  | 0x5 => .lda (.mem (.zpx b1))
  | 0x6 => .ldx (.mem (.zpy b1))
  | 0x7 => .unknown op
  | 0x8 => .clv
  | 0x9 => .lda (.mem (.aby w))
  | 0xA => .tsx
  | 0xB => .unknown op
  | 0xC => .ldy (.mem (.abx w))
  | 0xD => .lda (.mem (.abx w))
  | 0xE => .ldx (.mem (.aby w))
  | _ => .unknown op

/-- Opcodes Cx of R100. -/
def decodeRowC (lo : Nat) (op b1 : Byte) (w : Word) : Instr :=
  match lo with
  | 0x0 => .cpy (.imm b1)
  | 0x1 => .cmp (.mem (.izx b1))
  | 0x2 => .nopUnofficial op (.imm b1)
  | 0x3 => .unknown op
  | 0x4 => .cpy (.mem (.zp b1))
  | 0x5 => .cmp (.mem (.zp b1))
  | 0x6 => .dec (.zp b1)
  | 0x7 => .unknown op
  | 0x8 => .iny
  | 0x9 => .cmp (.imm b1)
  | 0xA => .dex
  | 0xB => .unknown op
  | 0xC => .cpy (.mem (.abs w))
  | 0xD => .cmp (.mem (.abs w))
  | 0xE => .dec (.abs w)
  | _ => .unknown op

/-- Opcodes Dx of R100. -/
def decodeRowD (lo : Nat) (op b1 : Byte) (w : Word) : Instr :=
  match lo with
  | 0x0 => .bne b1
  | 0x1 => .cmp (.mem (.izy b1))
  | 0x2 => .kil op
  | 0x3 => .unknown op
  | 0x4 => .nopUnofficial op (.zpx b1)
  | 0x5 => .cmp (.mem (.zpx b1))
  | 0x6 => .dec (.zpx b1)
  | 0x7 => .unknown op
  | 0x8 => .cld
  | 0x9 => .cmp (.mem (.aby w))
  | 0xA => .nopUnofficial op .imp
  | 0xB => .unknown op
  | 0xC => .nopUnofficial op (.abx w)
  | 0xD => .cmp (.mem (.abx w))
  | 0xE => .dec (.abx w)
  | _ => .unknown op

/-- Opcodes Ex of R100. -/
def decodeRowE (lo : Nat) (op b1 : Byte) (w : Word) : Instr :=
  match lo with
  | 0x0 => .cpx (.imm b1)
  | 0x1 => .sbc (.mem (.izx b1))
  | 0x2 => .nopUnofficial op (.imm b1)
  | 0x3 => .unknown op
  | 0x4 => .cpx (.mem (.zp b1))
  | 0x5 => .sbc (.mem (.zp b1))
  | 0x6 => .inc (.zp b1)
  | 0x7 => .unknown op
  | 0x8 => .inx
  | 0x9 => .sbc (.imm b1)
  | 0xA => .nop
  | 0xB => .unknown op
  | 0xC => .cpx (.mem (.abs w))
  | 0xD => .sbc (.mem (.abs w))
  | 0xE => .inc (.abs w)
  | _ => .unknown op

/-- Opcodes Fx of R100. -/
def decodeRowF (lo : Nat) (op b1 : Byte) (w : Word) : Instr :=
  match lo with
  | 0x0 => .beq b1
  | 0x1 => .sbc (.mem (.izy b1))
  | 0x2 => .kil op
  | 0x3 => .unknown op
  | 0x4 => .nopUnofficial op (.zpx b1)
  | 0x5 => .sbc (.mem (.zpx b1))
  | 0x6 => .inc (.zpx b1)
  | 0x7 => .unknown op
  | 0x8 => .sed
  | 0x9 => .sbc (.mem (.aby w))
  | 0xA => .nopUnofficial op .imp
  | 0xB => .unknown op
  | 0xC => .nopUnofficial op (.abx w)
  | 0xD => .sbc (.mem (.abx w))
  | 0xE => .inc (.abx w)
  | _ => .unknown op
/-- The instruction whose opcode byte is op and whose operand bytes are b1 and b2 (R91: the low byte
of an address comes first). Every opcode byte has a row (R101). -/
def decodeOp (op b1 b2 : Byte) : Instr :=
  let lo := op.toNat % 16
  let w := word16 b2 b1
  match op.toNat / 16 with
  | 0x0 => decodeRow0 lo op b1 w
  | 0x1 => decodeRow1 lo op b1 w
  | 0x2 => decodeRow2 lo op b1 w
  | 0x3 => decodeRow3 lo op b1 w
  | 0x4 => decodeRow4 lo op b1 w
  | 0x5 => decodeRow5 lo op b1 w
  | 0x6 => decodeRow6 lo op b1 w
  | 0x7 => decodeRow7 lo op b1 w
  | 0x8 => decodeRow8 lo op b1 w
  | 0x9 => decodeRow9 lo op b1 w
  | 0xA => decodeRowA lo op b1 w
  | 0xB => decodeRowB lo op b1 w
  | 0xC => decodeRowC lo op b1 w
  | 0xD => decodeRowD lo op b1 w
  | 0xE => decodeRowE lo op b1 w
  | _ => decodeRowF lo op b1 w

/-- Operand bytes of a memory form (R91). -/
def MemOperand.bytes : MemOperand → List Byte
  | .zp z  => [z]
  | .zpx z => [z]
  | .zpy z => [z]
  | .abs a => [loByte a, hiByte a]
  | .abx a => [loByte a, hiByte a]
  | .aby a => [loByte a, hiByte a]
  | .izx z => [z]
  | .izy z => [z]

/-- Operand bytes of a read operand. -/
def Source.bytes : Source → List Byte
  | .imm v => [v]
  | .mem m => m.bytes

/-- Operand bytes of a shift's operand. -/
def Target.bytes : Target → List Byte
  | .acc   => []
  | .mem m => m.bytes

/-- Operand bytes of JMP. -/
def JumpTarget.bytes : JumpTarget → List Byte
  | .abs a => [loByte a, hiByte a]
  | .ind p => [loByte p, hiByte p]

/-- Operand bytes of an unofficial NOP. -/
def NopOperand.bytes : NopOperand → List Byte
  | .imp   => []
  | .imm v => [v]
  | .zp z  => [z]
  | .zpx z => [z]
  | .abs a => [loByte a, hiByte a]
  | .abx a => [loByte a, hiByte a]

/-- The operand bytes of an instruction. -/
def Instr.operandBytes : Instr → List Byte
  | .lda o => o.bytes
  | .ldx o => o.bytes
  | .ldy o => o.bytes
  | .sta m => m.bytes
  | .stx m => m.bytes
  | .sty m => m.bytes
  | .tax => []
  | .tay => []
  | .txa => []
  | .tya => []
  | .tsx => []
  | .txs => []
  | .pha => []
  | .pla => []
  | .php => []
  | .plp => []
  | .adc o => o.bytes
  | .sbc o => o.bytes
  | .and o => o.bytes
  | .ora o => o.bytes
  | .eor o => o.bytes
  | .cmp o => o.bytes
  | .cpx o => o.bytes
  | .cpy o => o.bytes
  | .bit m => m.bytes
  | .inc m => m.bytes
  | .dec m => m.bytes
  | .inx => []
  | .iny => []
  | .dex => []
  | .dey => []
  | .asl t => t.bytes
  | .lsr t => t.bytes
  | .rol t => t.bytes
  | .ror t => t.bytes
  | .jmp t => t.bytes
  | .jsr a => [loByte a, hiByte a]
  | .rts => []
  | .bpl d => [d]
  | .bmi d => [d]
  | .bvc d => [d]
  | .bvs d => [d]
  | .bcc d => [d]
  | .bcs d => [d]
  | .bne d => [d]
  | .beq d => [d]
  | .brk => []
  | .rti => []
  | .clc => []
  | .sec => []
  | .cli => []
  | .sei => []
  | .cld => []
  | .sed => []
  | .clv => []
  | .nop => []
  | .slo m => m.bytes
  | .nopUnofficial _ o => o.bytes
  | .kil _ => []
  | .unknown _ => []

/-- length_bytes of the instruction's row (R90). -/
def Instr.length (i : Instr) : Nat := 1 + i.operandBytes.length

/-- length_bytes of the row of opcode byte op: "The opcode byte alone fixes the length" (R90). -/
def opLength (op : Byte) : Nat := (decodeOp op 0 0).length

/-- Why a list of bytes is no instruction: it ends too early. No opcode byte is rejected. -/
inductive DecodeError where
  | noOpcode
  | missingOperand (op : Byte)
  deriving DecidableEq, Repr

/-- The instruction at the front of a list of bytes, and the rest of the list. -/
def decode : List Byte → Except DecodeError (Instr × List Byte)
  | [] => .error .noOpcode
  | op :: rest =>
    if opLength op = 1 then .ok (decodeOp op 0 0, rest)
    else if opLength op = 2 then
      match rest with
      | b1 :: r => .ok (decodeOp op b1 0, r)
      | [] => .error (.missingOperand op)
    else
      match rest with
      | b1 :: b2 :: r => .ok (decodeOp op b1 b2, r)
      | _ => .error (.missingOperand op)

/-- The instruction of a word numbered as spec/opcode_table.json numbers it: bits 7..0 are the
opcode byte, bits 15..8 the first operand byte, bits 23..16 the second; the bits above nbits are 0. -/
def tableBytes (nbits w : Nat) : List Byte :=
  let v := w % 2 ^ nbits
  [BitVec.ofNat 8 v, BitVec.ofNat 8 (v / 256), BitVec.ofNat 8 (v / 65536)]

def decodeTableWord (nbits w : Nat) : Option Instr :=
  match decode (tableBytes nbits w) with
  | .ok r => some r.1
  | .error _ => none

/-! The encoder. -/

/-- R120. -/
def codesLda : MemMode → Option Byte
  | .zp => some 0xA5
  | .zpx => some 0xB5
  | .zpy => none
  | .abs => some 0xAD
  | .abx => some 0xBD
  | .aby => some 0xB9
  | .izx => some 0xA1
  | .izy => some 0xB1
/-- R121. -/
def codesLdx : MemMode → Option Byte
  | .zp => some 0xA6
  | .zpx => none
  | .zpy => some 0xB6
  | .abs => some 0xAE
  | .abx => none
  | .aby => some 0xBE
  | .izx => none
  | .izy => none
/-- R122. -/
def codesLdy : MemMode → Option Byte
  | .zp => some 0xA4
  | .zpx => some 0xB4
  | .zpy => none
  | .abs => some 0xAC
  | .abx => some 0xBC
  | .aby => none
  | .izx => none
  | .izy => none
/-- R123. -/
def codesSta : MemMode → Option Byte
  | .zp => some 0x85
  | .zpx => some 0x95
  | .zpy => none
  | .abs => some 0x8D
  | .abx => some 0x9D
  | .aby => some 0x99
  | .izx => some 0x81
  | .izy => some 0x91
/-- R124. -/
def codesStx : MemMode → Option Byte
  | .zp => some 0x86
  | .zpx => none
  | .zpy => some 0x96
  | .abs => some 0x8E
  | .abx => none
  | .aby => none
  | .izx => none
  | .izy => none
/-- R125. -/
def codesSty : MemMode → Option Byte
  | .zp => some 0x84
  | .zpx => some 0x94
  | .zpy => none
  | .abs => some 0x8C
  | .abx => none
  | .aby => none
  | .izx => none
  | .izy => none
/-- R140. -/
def codesAdc : MemMode → Option Byte
  | .zp => some 0x65
  | .zpx => some 0x75
  | .zpy => none
  | .abs => some 0x6D
  | .abx => some 0x7D
  | .aby => some 0x79
  | .izx => some 0x61
  | .izy => some 0x71
/-- R141. -/
def codesSbc : MemMode → Option Byte
  | .zp => some 0xE5
  | .zpx => some 0xF5
  | .zpy => none
  | .abs => some 0xED
  | .abx => some 0xFD
  | .aby => some 0xF9
  | .izx => some 0xE1
  | .izy => some 0xF1
/-- R142. -/
def codesAnd : MemMode → Option Byte
  | .zp => some 0x25
  | .zpx => some 0x35
  | .zpy => none
  | .abs => some 0x2D
  | .abx => some 0x3D
  | .aby => some 0x39
  | .izx => some 0x21
  | .izy => some 0x31
/-- R143. -/
def codesOra : MemMode → Option Byte
  | .zp => some 0x05
  | .zpx => some 0x15
  | .zpy => none
  | .abs => some 0x0D
  | .abx => some 0x1D
  | .aby => some 0x19
  | .izx => some 0x01
  | .izy => some 0x11
/-- R144. -/
def codesEor : MemMode → Option Byte
  | .zp => some 0x45
  | .zpx => some 0x55
  | .zpy => none
  | .abs => some 0x4D
  | .abx => some 0x5D
  | .aby => some 0x59
  | .izx => some 0x41
  | .izy => some 0x51
/-- R145. -/
def codesCmp : MemMode → Option Byte
  | .zp => some 0xC5
  | .zpx => some 0xD5
  | .zpy => none
  | .abs => some 0xCD
  | .abx => some 0xDD
  | .aby => some 0xD9
  | .izx => some 0xC1
  | .izy => some 0xD1
/-- R146. -/
def codesCpx : MemMode → Option Byte
  | .zp => some 0xE4
  | .zpx => none
  | .zpy => none
  | .abs => some 0xEC
  | .abx => none
  | .aby => none
  | .izx => none
  | .izy => none
/-- R147. -/
def codesCpy : MemMode → Option Byte
  | .zp => some 0xC4
  | .zpx => none
  | .zpy => none
  | .abs => some 0xCC
  | .abx => none
  | .aby => none
  | .izx => none
  | .izy => none
/-- R148. -/
def codesBit : MemMode → Option Byte
  | .zp => some 0x24
  | .zpx => none
  | .zpy => none
  | .abs => some 0x2C
  | .abx => none
  | .aby => none
  | .izx => none
  | .izy => none
/-- R149. -/
def codesInc : MemMode → Option Byte
  | .zp => some 0xE6
  | .zpx => some 0xF6
  | .zpy => none
  | .abs => some 0xEE
  | .abx => some 0xFE
  | .aby => none
  | .izx => none
  | .izy => none
/-- R150. -/
def codesDec : MemMode → Option Byte
  | .zp => some 0xC6
  | .zpx => some 0xD6
  | .zpy => none
  | .abs => some 0xCE
  | .abx => some 0xDE
  | .aby => none
  | .izx => none
  | .izy => none
/-- R160. -/
def codesAsl : MemMode → Option Byte
  | .zp => some 0x06
  | .zpx => some 0x16
  | .zpy => none
  | .abs => some 0x0E
  | .abx => some 0x1E
  | .aby => none
  | .izx => none
  | .izy => none
/-- R161. -/
def codesLsr : MemMode → Option Byte
  | .zp => some 0x46
  | .zpx => some 0x56
  | .zpy => none
  | .abs => some 0x4E
  | .abx => some 0x5E
  | .aby => none
  | .izx => none
  | .izy => none
/-- R162. -/
def codesRol : MemMode → Option Byte
  | .zp => some 0x26
  | .zpx => some 0x36
  | .zpy => none
  | .abs => some 0x2E
  | .abx => some 0x3E
  | .aby => none
  | .izx => none
  | .izy => none
/-- R163. -/
def codesRor : MemMode → Option Byte
  | .zp => some 0x66
  | .zpx => some 0x76
  | .zpy => none
  | .abs => some 0x6E
  | .abx => some 0x7E
  | .aby => none
  | .izx => none
  | .izy => none
/-- R200. -/
def codesSlo : MemMode → Option Byte
  | .zp => some 0x07
  | .zpx => some 0x17
  | .zpy => none
  | .abs => some 0x0F
  | .abx => some 0x1F
  | .aby => some 0x1B
  | .izx => some 0x03
  | .izy => some 0x13

/-- Opcode and operand bytes of a memory form, or nothing where the mnemonic has no such form. -/
def encodeMem (codes : MemMode → Option Byte) (m : MemOperand) : List Byte :=
  match codes m.mode with
  | some op => op :: m.bytes
  | none => []

/-- The same for a read operand; imm is the immediate form's opcode. -/
def encodeSource (imm : Byte) (codes : MemMode → Option Byte) : Source → List Byte
  | .imm v => [imm, v]
  | .mem m => encodeMem codes m

/-- The same for a shift; acc is the accumulator form's opcode. -/
def encodeTarget (acc : Byte) (codes : MemMode → Option Byte) : Target → List Byte
  | .acc   => [acc]
  | .mem m => encodeMem codes m

/-- The bytes of a well-formed instruction; nothing for a term that is no row. -/
def encode : Instr → List Byte
  | .lda o => encodeSource 0xA9 codesLda o
  | .ldx o => encodeSource 0xA2 codesLdx o
  | .ldy o => encodeSource 0xA0 codesLdy o
  | .sta m => encodeMem codesSta m
  | .stx m => encodeMem codesStx m
  | .sty m => encodeMem codesSty m
  | .tax => [0xAA]
  | .tay => [0xA8]
  | .txa => [0x8A]
  | .tya => [0x98]
  | .tsx => [0xBA]
  | .txs => [0x9A]
  | .pha => [0x48]
  | .pla => [0x68]
  | .php => [0x08]
  | .plp => [0x28]
  | .adc o => encodeSource 0x69 codesAdc o
  | .sbc o => encodeSource 0xE9 codesSbc o
  | .and o => encodeSource 0x29 codesAnd o
  | .ora o => encodeSource 0x09 codesOra o
  | .eor o => encodeSource 0x49 codesEor o
  | .cmp o => encodeSource 0xC9 codesCmp o
  | .cpx o => encodeSource 0xE0 codesCpx o
  | .cpy o => encodeSource 0xC0 codesCpy o
  | .bit m => encodeMem codesBit m
  | .inc m => encodeMem codesInc m
  | .dec m => encodeMem codesDec m
  | .inx => [0xE8]
  | .iny => [0xC8]
  | .dex => [0xCA]
  | .dey => [0x88]
  | .asl t => encodeTarget 0x0A codesAsl t
  | .lsr t => encodeTarget 0x4A codesLsr t
  | .rol t => encodeTarget 0x2A codesRol t
  | .ror t => encodeTarget 0x6A codesRor t
  | .jmp (.abs a) => [0x4C, loByte a, hiByte a]
  | .jmp (.ind p) => [0x6C, loByte p, hiByte p]
  | .jsr a => [0x20, loByte a, hiByte a]
  | .rts => [0x60]
  | .bpl d => [0x10, d]
  | .bmi d => [0x30, d]
  | .bvc d => [0x50, d]
  | .bvs d => [0x70, d]
  | .bcc d => [0x90, d]
  | .bcs d => [0xB0, d]
  | .bne d => [0xD0, d]
  | .beq d => [0xF0, d]
  | .brk => [0x00]
  | .rti => [0x40]
  | .clc => [0x18]
  | .sec => [0x38]
  | .cli => [0x58]
  | .sei => [0x78]
  | .cld => [0xD8]
  | .sed => [0xF8]
  | .clv => [0xB8]
  | .nop => [0xEA]
  | .slo m => encodeMem codesSlo m
  | .nopUnofficial op o => if (nopOpcodes o).contains op then op :: o.bytes else []
  | .kil op => if kilOpcodes.contains op then [op] else []
  | .unknown op => if unknownOpcodes.contains op then [op] else []

end Sys2Proof
end

