-- ==== Sys2Proof/Machine/Cycles.lean ====
section
/-! DEFINITION. `Cycles(row)` (spec/30_encoding.md R106 to R108): the base count of each row, and the
penalties of CYCLE_MODEL = documented, computed from the state the instruction starts its execution
in, with no bus access of their own (DEDUCED, log entry 11). -/

namespace Sys2Proof.Machine

open Sys2Proof

/-- Base cycles of a read (R106). -/
def readCycles : MemMode → Nat
  | .zp => 3
  | .zpx => 4
  | .zpy => 4
  | .abs => 4
  | .abx => 4
  | .aby => 4
  | .izx => 6
  | .izy => 5

/-- Base cycles of a store (R106). -/
def storeCycles : MemMode → Nat
  | .zp => 3
  | .zpx => 4
  | .zpy => 4
  | .abs => 4
  | .abx => 5
  | .aby => 5
  | .izx => 6
  | .izy => 6

/-- Base cycles of a read-modify-write in memory (R106, R200). -/
def modifyCycles : MemMode → Nat
  | .zp => 5
  | .zpx => 6
  | .zpy => 6
  | .abs => 6
  | .abx => 7
  | .aby => 7
  | .izx => 8
  | .izy => 8

def sourceCycles : Source → Nat
  | .imm _ => 2
  | .mem m => readCycles m.mode

def targetCycles : Target → Nat
  | .acc   => 2
  | .mem m => modifyCycles m.mode

def nopCycles : NopOperand → Nat
  | .imp   => 2
  | .imm _ => 2
  | .zp _  => 3
  | .zpx _ => 4
  | .abs _ => 4
  | .abx _ => 4

/-- cycles_base of the instruction's row (R106). KIL and unknown opcodes have no count (R109), and
nothing reads the 0 given here for them. -/
def baseCycles : Instr → Nat
  | .lda o => sourceCycles o
  | .ldx o => sourceCycles o
  | .ldy o => sourceCycles o
  | .sta m => storeCycles m.mode
  | .stx m => storeCycles m.mode
  | .sty m => storeCycles m.mode
  | .tax => 2
  | .tay => 2
  | .txa => 2
  | .tya => 2
  | .tsx => 2
  | .txs => 2
  | .pha => 3
  | .pla => 4
  | .php => 3
  | .plp => 4
  | .adc o => sourceCycles o
  | .sbc o => sourceCycles o
  | .and o => sourceCycles o
  | .ora o => sourceCycles o
  | .eor o => sourceCycles o
  | .cmp o => sourceCycles o
  | .cpx o => sourceCycles o
  | .cpy o => sourceCycles o
  | .bit m => readCycles m.mode
  | .inc m => modifyCycles m.mode
  | .dec m => modifyCycles m.mode
  | .inx => 2
  | .iny => 2
  | .dex => 2
  | .dey => 2
  | .asl t => targetCycles t
  | .lsr t => targetCycles t
  | .rol t => targetCycles t
  | .ror t => targetCycles t
  | .jmp (.abs _) => 3
  | .jmp (.ind _) => 5
  | .jsr _ => 6
  | .rts => 6
  | .bpl _ => 2
  | .bmi _ => 2
  | .bvc _ => 2
  | .bvs _ => 2
  | .bcc _ => 2
  | .bcs _ => 2
  | .bne _ => 2
  | .beq _ => 2
  | .brk => 7
  | .rti => 6
  | .clc => 2
  | .sec => 2
  | .cli => 2
  | .sei => 2
  | .cld => 2
  | .sed => 2
  | .clv => 2
  | .nop => 2
  | .slo m => modifyCycles m.mode
  | .nopUnofficial _ o => nopCycles o
  | .kil _ => 0
  | .unknown _ => 0

/-- +1 for an indexed read whose EA crossed a page (R108). -/
def sourcePenalty (s : State) : Source → Nat
  | .imm _ => 0
  | .mem m => if s.pageCrossed m then 1 else 0

/-- +1 for a taken branch, +1 more when the target is on another page than the next instruction
(R108). -/
def branchPenalty (s : State) (f : Flag) (b : Bool) (d : Byte) : Nat :=
  if getFlag s.cpu.p f = b then
    (if hiByte (s.branchTarget d) != hiByte s.cpu.pc then 2 else 1)
  else 0

/-- The penalties of CYCLE_MODEL = documented (R108). -/
def documentedPenalty (s : State) : Instr → Nat
  | .lda o => sourcePenalty s o
  | .ldx o => sourcePenalty s o
  | .ldy o => sourcePenalty s o
  | .adc o => sourcePenalty s o
  | .sbc o => sourcePenalty s o
  | .and o => sourcePenalty s o
  | .ora o => sourcePenalty s o
  | .eor o => sourcePenalty s o
  | .cmp o => sourcePenalty s o
  | .nopUnofficial _ (.abx a) => sourcePenalty s (.mem (.abx a))
  | .bpl d => branchPenalty s .n false d
  | .bmi d => branchPenalty s .n true d
  | .bvc d => branchPenalty s .v false d
  | .bvs d => branchPenalty s .v true d
  | .bcc d => branchPenalty s .c false d
  | .bcs d => branchPenalty s .c true d
  | .bne d => branchPenalty s .z false d
  | .beq d => branchPenalty s .z true d
  | _ => 0

/-- `Cycles(row)` of an instruction about to execute in s (R107, R108). -/
def rowCycles (i : Instr) (s : State) : Nat :=
  match s.params.cycleModel with
  | .base => baseCycles i
  | .documented => baseCycles i + documentedPenalty s i

end Sys2Proof.Machine
end

