-- ==== Sys2Proof/Machine/Scanline.lean ====
section
/-! DEFINITION. The PPU's scanline engine (spec/61_ppu.md R260 to R279): the sub-cycle counter, its
events, the scroll copies, and the renderer of one line. The renderer never changes the cartridge:
its pattern fetches are the untapped ChrFetch (spec/20_memory.md R68). -/

namespace Sys2Proof.Machine

open Sys2Proof

/-! Fields of v and t (R260), as numbers. -/

def fineY (r : BitVec 15) : Nat := (r.toNat >>> 12) &&& 7
def ntOf (r : BitVec 15) : Nat := (r.toNat >>> 10) &&& 3
def coarseY (r : BitVec 15) : Nat := (r.toNat >>> 5) &&& 0x1F
def coarseX (r : BitVec 15) : Nat := r.toNat &&& 0x1F

/-- IncY on v (R268). -/
def incY (v : BitVec 15) : BitVec 15 :=
  if fineY v < 7 then v + 0x1000
  else
    let v1 := v &&& ~~~ 0x7000#15
    let cy := coarseY v1
    let v2 := if cy = 29 then v1 ^^^ 0x0800#15 else v1
    let cy' := if cy = 29 then 0 else if cy = 31 then 0 else cy + 1
    (v2 &&& ~~~ 0x03E0#15) ||| ((BitVec.ofNat 15 cy') <<< 5)

/-- A byte's bit as the renderer takes it from a pattern plane. -/
def planeBit (b : Byte) (i : Nat) : Nat := bitAt b.toNat i

/-- The 2-bit pattern value at bit i of the planes at addr and addr + 8 (R271, R276). -/
def patternAt (c : Cart) (addr i : Nat) : Nat :=
  (planeBit (c.chrFetch (addr + 8)) i) * 2 + planeBit (c.chrFetch addr) i

/-- BgPixel (R271): the pattern value (0 when transparent) and the palette group. -/
def bgPixel (p : Ppu) (c : Cart) (x : Nat) : Nat × Nat :=
  if !p.showBg || (decide (x < 8) && !p.bgLeft) then (0, 0)
  else
    let q := p.x.toNat + x
    let cx0 := coarseX p.v + (q >>> 3)
    let n := if 32 ≤ cx0 then ntOf p.v ^^^ 1 else ntOf p.v
    let cx := if 32 ≤ cx0 then cx0 - 32 else cx0
    let cy := coarseY p.v
    let m := c.currentMirroring
    let tile := (p.ciram.read (ntIndex m (0x2000 ||| (n <<< 10) ||| (cy <<< 5) ||| cx))).toNat
    let at' := (p.ciram.read
      (ntIndex m (0x23C0 ||| (n <<< 10) ||| ((cy >>> 2) <<< 3) ||| (cx >>> 2)))).toNat
    let grp := (at' >>> (((cy &&& 2) <<< 1) ||| (cx &&& 2))) &&& 3
    let base := if p.bgTable then 0x1000 else 0x0000
    (patternAt c (base + tile * 16 + fineY p.v) (7 - (q &&& 7)), grp)

/-- The sprite height h (R274). -/
def Ppu.spriteHeight (p : Ppu) : Nat := if p.spriteSize16 then 16 else 8

/-- One byte of OAM as a number. -/
def Ppu.oamAt (p : Ppu) (i : Nat) : Nat := (p.oam.read i).toNat

/-- Sprite n is in range on line y (R274). -/
def Ppu.spriteInRange (p : Ppu) (y n : Nat) : Bool :=
  decide (p.oamAt (4 * n) < 240) && decide (p.oamAt (4 * n) + 1 ≤ y)
    && decide (y < p.oamAt (4 * n) + 1 + p.spriteHeight)

/-- SpriteEval's list S (R274): every sprite in range, in OAM order. -/
def Ppu.spritesOnLine (p : Ppu) (y : Nat) : List Nat :=
  (List.range 64).filter (fun n => p.spriteInRange y n)

/-- SpritePattern (R276): 0 outside the sprite's box. -/
def spritePattern (p : Ppu) (c : Cart) (n y x : Nat) : Nat :=
  let sy := p.oamAt (4 * n)
  let tile := p.oamAt (4 * n + 1)
  let attr := p.oamAt (4 * n + 2)
  let sx := p.oamAt (4 * n + 3)
  if sx ≤ x ∧ x < sx + 8 then
    let h := p.spriteHeight
    let row0 := y - (sy + 1)
    let col0 := x - sx
    let row := if bitAt attr 7 = 1 then h - 1 - row0 else row0
    let col := if bitAt attr 6 = 1 then 7 - col0 else col0
    let addr :=
      if h = 8 then (if p.spriteTable then 0x1000 else 0) + tile * 16 + row
      else (tile &&& 1) * 0x1000 + ((tile &&& 0xFE) + (row >>> 3)) * 16 + (row &&& 7)
    patternAt c addr (7 - col)
  else 0

/-- The first sprite of S opaque at (y, x), as its pattern and attribute byte. -/
def firstOpaque (p : Ppu) (c : Cart) (y x : Nat) : List Nat → Option (Nat × Nat)
  | [] => none
  | n :: rest =>
    let pat := spritePattern p c n y x
    if pat ≠ 0 then some (pat, p.oamAt (4 * n + 2)) else firstOpaque p c y x rest

/-- SpritePixel (R275). -/
def spritePixel (p : Ppu) (c : Cart) (s : List Nat) (y x : Nat) : Option (Nat × Nat) :=
  if !p.showSprites || (decide (x < 8) && !p.spritesLeft) then none else firstOpaque p c y x s

/-- Compose (R277), before the 6-bit mask. -/
def composePixel (p : Ppu) (bg : Nat × Nat) (sp : Option (Nat × Nat)) : Byte :=
  let back :=
    if bg.1 ≠ 0 then p.palettes.read ((bg.2 <<< 2) ||| bg.1) else p.palettes.read 0
  match sp with
  | none => back
  | some (pat, attr) =>
    if bitAt attr 5 = 0 ∨ bg.1 = 0 then
      p.palettes.read (palIndex (0x3F10 ||| ((attr &&& 3) <<< 2) ||| pat))
    else back

/-- The condition of SpriteZeroCheck at (y, x) (R278). -/
def spriteZeroHit (p : Ppu) (c : Cart) (s : List Nat) (y x : Nat) : Bool :=
  s.contains 0 && p.showBg && p.showSprites && decide ((bgPixel p c x).1 ≠ 0)
    && !(decide (x < 8) && (!p.bgLeft || !p.spritesLeft))
    && decide (spritePattern p c 0 y x ≠ 0)

/-- The framebuffer byte of pixel (y, x) (R270). -/
def pixelColour (p : Ppu) (c : Cart) (s : List Nat) (y x : Nat) : Byte :=
  composePixel p (bgPixel p c x) (spritePixel p c s y x) &&& 0x3F

/-- RenderLine (R270): all 256 pixels from the state at cycle 0 of line y. -/
def renderLine (p : Ppu) (c : Cart) (y : Nat) : Ppu :=
  let s := p.spritesOnLine y
  { p with
    overflow := p.overflow || ((p.showBg || p.showSprites) && decide (8 < s.length)),
    sprite0 := p.sprite0 || (List.range 256).any (fun x => spriteZeroHit p c s y x),
    framebuffer :=
      p.framebuffer.writeRow (y * 256) ((List.range 256).map (fun x => pixelColour p c s y x)) }

/-- The copy of vertical bits from t to v (R266). -/
def Ppu.copyVertical (p : Ppu) : Ppu :=
  { p with v := (p.v &&& ~~~ 0x7BE0#15) ||| (p.t &&& 0x7BE0#15) }

/-- The copy of horizontal bits from t to v (R267). -/
def Ppu.copyHorizontal (p : Ppu) : Ppu :=
  { p with v := (p.v &&& ~~~ 0x041F#15) ||| (p.t &&& 0x041F#15) }

/-- The visible line's start (R267). -/
def Ppu.lineStart (p : Ppu) (c : Cart) (y : Nat) : Ppu :=
  if p.showBg then
    let q := renderLine p.copyHorizontal c y
    { q with v := incY q.v }
  else renderLine p c y

/-- VBlank start (R264). -/
def Ppu.vblankStart (p : Ppu) : Ppu :=
  { p with vblank := true, nmiOccurred := p.nmiOccurred || p.nmiEnabled }

/-- Pre-render clear (R265). -/
def Ppu.preRenderClear (p : Ppu) : Ppu :=
  { p with vblank := false, sprite0 := false, overflow := false }

/-- PpuEvent at the PPU's own position (R263). -/
def ppuEvent (p : Ppu) (c : Cart) : Ppu × Cart :=
  if p.scanline = -1 then
    if p.cycle = 0 then (if p.showBg then p.copyVertical else p, c)
    else if p.cycle = 1 then (p.preRenderClear, c)
    else (p, c)
  else if 0 ≤ p.scanline ∧ p.scanline ≤ 239 then
    if p.cycle = 0 then (p.lineStart c p.scanline.toNat, c)
    else if p.cycle = 260 then (p, if p.showBg then c.scanlineClock else c)
    else (p, c)
  else if p.scanline = 241 ∧ p.cycle = 1 then (p.vblankStart, c)
  else (p, c)

/-- The counters one sub-cycle on (R262), and whether the frame ended. -/
def Ppu.advancePosition (p : Ppu) : Ppu × Bool :=
  let wraps := decide (p.cycle + 1 = 341)
  let line := if wraps then p.scanline + 1 else p.scanline
  ({ p with
      cycle := if wraps then 0 else p.cycle + 1,
      scanline := if line = 261 then -1 else line },
    decide (line = 261))

/-- ppu.reset() (R284). -/
def Ppu.reset (p : Ppu) : Ppu := Ppu.atReset p.ciram p.oam p.palettes p.framebuffer

end Sys2Proof.Machine
end

