-- ==== Sys2Proof/Machine/Driver.lean ====
section
/-! DEFINITION. The driver (spec/60_exceptions.md R230 to R236): fetching an instruction
(spec/30_encoding.md R98), the PPU advance with its interrupt checks, what a step does after the
instruction, power-on, reset, the host's accessors, and placing bytes where the CPU fetches. -/

namespace Sys2Proof.Machine

open Sys2Proof

/-! Fetch. -/

/-- One opcode or operand byte: MemRead(PC), then PC + 1 (spec/10_state.md R24). -/
def State.fetchByte (s : State) : Byte × State :=
  let r := s.busRead s.cpu.pc
  (r.1, r.2.setPc (s.cpu.pc + 1))

/-- The opcode fetch and the operand fetches of R98, ascending, and the instruction they give. A halt
has no operand fetch, because its row's length is 1. -/
def State.fetchInstr (s : State) : Instr × State :=
  let o := s.fetchByte
  if opLength o.1 = 1 then (decodeOp o.1 0 0, o.2)
  else
    let b1 := o.2.fetchByte
    if opLength o.1 = 2 then (decodeOp o.1 b1.1 0, b1.2)
    else
      let b2 := b1.2.fetchByte
      (decodeOp o.1 b1.1 b2.1, b2.2)

/-! The PPU advance. -/

/-- PpuTick (spec/61_ppu.md R262): one sub-cycle and the event of the new position. -/
def State.ppuTick (s : State) : State :=
  let m := s.ppu.advancePosition
  let e := ppuEvent m.1 s.cart
  { s with
    ppu := e.1,
    cart := e.2,
    driver := { s.driver with frameComplete := s.driver.frameComplete || m.2 } }

/-- The NMI check after a sub-cycle: deliver, then acknowledge (R230). -/
def State.deliverNmi (s : State) : State :=
  if s.ppu.nmiOccurred then
    let t := s.cpuNmi
    { t with ppu := { t.ppu with nmiOccurred := false } }
  else s

/-- The IRQ check after it (R230). -/
def State.deliverIrq (s : State) : State :=
  if s.cart.consumeIrq && !getFlag s.cpu.p .i then s.cpuIrq else s

/-- One sub-cycle of the advance with its two checks. -/
def State.subCycle (s : State) : State := s.ppuTick.deliverNmi.deliverIrq

/-- n sub-cycles. -/
def State.advance (n : Nat) (s : State) : State :=
  match n with
  | 0 => s
  | k + 1 => State.advance k s.subCycle

/-- What CpuStep and DriverStep do after the instruction (R98, R110, R230): a halt surfaces in fatal
and the PPU does not advance; otherwise the count c + extraCycles is reported and the PPU advances by
three times that number. -/
def State.finishStep (c : Nat) (s : State) : State :=
  match s.cpu.halted with
  | some h =>
    { s with driver := { s.driver with fatal := some (.cpuHalt h.1 h.2), stepCycles := none } }
  | none =>
    let n := c + s.cpu.extraCycles
    State.advance (3 * n)
      { s with
        cpu := { s.cpu with extraCycles := 0 },
        driver := { s.driver with frameComplete := false, stepCycles := some n } }

/-! Power-on and reset. -/

/-- The conditions of R236. -/
def cartridgeValid (c : Cartridge) : Bool :=
  (c.mapperId == 0 || c.mapperId == 1 || c.mapperId == 2 || c.mapperId == 4)
    && c.prgLen != 0 && c.prgLen % 0x4000 == 0 && c.chrLen % 0x2000 == 0

/-- The mapper a mapperId selects (R300). -/
def mapperOfId (n : Nat) : Mapper :=
  match n with
  | 1 => .mmc1 Mmc1.atReset
  | 2 => .uxrom 0
  | 4 => .mmc3 Mmc3.atReset
  | _ => .nrom

/-- The cartridge in the machine: CHR-RAM of 8 KiB where chrRom is empty, and PRG-RAM from the saved
image where the cartridge is battery-backed and one is supplied (spec/62_mappers_controllers.md R301,
R232). -/
def buildCart (c : Cartridge) (m : PowerOnMem) : Cart :=
  { mapper := mapperOfId c.mapperId,
    mirroring := c.mirroring,
    battery := c.battery,
    prgLen := c.prgLen,
    prgRom := c.prgRom.load c.prgLen,
    chrLen := if c.chrLen = 0 then 0x2000 else c.chrLen,
    chr := if c.chrLen = 0 then m.chrRam.load 0x2000 else c.chrRom.load c.chrLen,
    chrIsRam := c.chrLen == 0,
    prgRam :=
      match m.savedImage with
      | some img => if c.battery then img.load 0x2000 else m.prgRam.load 0x2000
      | none => m.prgRam.load 0x2000 }

/-- ResetSequence (spec/70_reset_and_hazards.md R350): mapper, PPU, CPU, driver. -/
def State.resetSequence (s : State) : State :=
  let t := { s with cart := s.cart.reset, ppu := s.ppu.reset }.cpuReset
  { t with driver :=
      { poweredOn := true, frameComplete := false, fatal := none, stepCycles := none } }

/-- powerOn(cartridge) (R232); POWERON_MEM and the other parameters are arguments (R8). -/
def powerOn (params : Params) (c : Cartridge) (m : PowerOnMem) :
    Host.Outcome State Fault Refusal :=
  if cartridgeValid c then
    .next (State.resetSequence
      { cpu := State.reset.cpu,
        ram := m.ram.load 0x800,
        ppu := Ppu.atReset (m.ciram.load 0x800) (m.oam.load 0x100) (m.palettes.load 0x20) [],
        cart := buildCart c m,
        pads := Pads.atPowerOn,
        driver := State.reset.driver,
        params := params })
  else .refused .invalidCartridge

/-- reset() (R233). -/
def hostReset (s : State) : Host.Outcome State Fault Refusal :=
  if s.driver.poweredOn then .next s.resetSequence else .refused .driverMisuse

/-! The host's accessors (R235), used between steps (DEDUCED, log entry 12). -/

/-- setButton. -/
def State.setButton (s : State) (pad : Pad) (btn : Button) (pressed : Bool) : State :=
  { s with pads := s.pads.setButton pad btn pressed }

/-- framebuffer(): the byte of pixel (y, x); the 61,440 bytes are those of y < 240, x < 256. -/
def State.pixel (s : State) (y x : Nat) : Byte := s.ppu.framebuffer.read (y * 256 + x)

/-- The battery image the host saves (spec/20_memory.md R77). -/
def State.batteryImage (s : State) : Option Memory :=
  if s.cart.battery then some s.cart.prgRam else none

/-- The host writes the battery image between steps (R235). -/
def State.setBatteryImage (s : State) (m : Memory) : State :=
  if s.cart.battery then { s with cart := { s.cart with prgRam := m.load 0x2000 } } else s

/-! Placing bytes where the CPU fetches. -/

/-- The address holds storage that a loader can fill: RAM, PRG-RAM or PRG-ROM. -/
def storable (a : Word) : Bool := decide (a.toNat < 0x2000) || decide (0x6000 ≤ a.toNat)

/-- Byte b in the storage the CPU reads at address a. -/
def State.poke (s : State) (a : Word) (b : Byte) : State :=
  let n := a.toNat
  if n < 0x2000 then { s with ram := s.ram.write (n % 0x800) b }
  else if n < 0x6000 then s
  else if n < 0x8000 then
    { s with cart := { s.cart with prgRam := s.cart.prgRam.write (n - 0x6000) b } }
  else
    { s with cart := { s.cart with prgRom := s.cart.prgRom.write (s.cart.prgOffset n) b } }

/-- Where withFetchWord puts an instruction: at PC, or at $0200 where PC points at no storage. -/
def State.fetchPlace (s : State) : Word :=
  if storable s.cpu.pc && storable (s.cpu.pc + 1) && storable (s.cpu.pc + 2) then s.cpu.pc
  else 0x0200

/-- Bytes at consecutive addresses from a on. -/
def State.pokeAll (s : State) (a : Word) (bs : List Byte) : State :=
  match bs with
  | [] => s
  | b :: rest => State.pokeAll (s.poke a b) (a + 1) rest

/-- The machine powered on and not halted, the bytes where it fetches next, and PC there
(DESIGN CHOICE, log entry 14). -/
def State.placeAtFetch (s : State) (bs : List Byte) : State :=
  let a := s.fetchPlace
  let t := s.pokeAll a bs
  { t with
    cpu := { t.cpu with pc := a, halted := none },
    driver := { t.driver with poweredOn := true } }

end Sys2Proof.Machine
end

