-- ==== Sys2Proof/Machine/Step.lean ====
section
/-! DEFINITION. One step of the machine is one DriverStep (spec/60_exceptions.md R230). -/

namespace Sys2Proof.Machine

open Sys2Proof

/-- The step's instruction, executed, and what the driver does after it. -/
def runInstr (i : Instr) (s : State) : Host.Outcome State Fault Refusal :=
  match exec i s with
  | .next t => .next (t.finishStep (rowCycles i s))
  | .fault r => .fault r
  | .refused r => .refused r

/-- DriverStep. A halted CPU answers the same CpuHalt and nothing changes (R220); before powerOn the
step is refused (R221). -/
def step (s : State) : Host.Outcome State Fault Refusal :=
  if s.driver.poweredOn then
    match s.cpu.halted with
    | some h => .fault (.cpuHalt h.1 h.2)
    | none => runInstr s.fetchInstr.1 s.fetchInstr.2
  else .refused .driverMisuse

/-- At most n steps, up to the first that completes a frame or halts. -/
def frameWithin (n : Nat) (s : State) : Host.Outcome State Fault Refusal :=
  match n with
  | 0 => .next s
  | k + 1 =>
    match step s with
    | .next t =>
      if t.driver.frameComplete || t.cpu.halted.isSome then .next t else frameWithin k t
    | .fault r => .fault r
    | .refused r => .refused r

/-- frame() (R231). Every step advances at least 6 of a frame's 89,342 sub-cycles, so 14,891 steps
reach its end (DEDUCED, log entry 13). -/
def frame (s : State) : Host.Outcome State Fault Refusal := frameWithin 14891 s

/-- s with the table-numbered instruction w where step fetches next. -/
def State.withFetchWord (s : State) (nbits w : Nat) : State := s.placeAtFetch (tableBytes nbits w)

end Sys2Proof.Machine
end

