-- ==== Sys2Proof/Safety.lean ====
section
/-! DEFINITION. What counts as a safe state and a safe run: the ranges, widths and hard-wired bits the
spec gives every piece of state, as one invariant; and a step that neither faults nor refuses. -/

namespace Sys2Proof.Machine

open Sys2Proof

/-- The status bits that never change (spec/10_state.md R26, R28), and a halted CPU's PC at the
recorded opcode (spec/60_exceptions.md R220). -/
structure Cpu.Inv (c : Cpu) : Prop where
  uIsOne   : getFlag c.p .u = true
  bIsZero  : getFlag c.p .b = false
  haltedAt : ∀ op addr, c.halted = some (op, addr) → c.pc = addr

/-- The framebuffer's bytes are colour indices 0..63 (R37). -/
def framebufferColours (m : Memory) : Bool := m.all (fun c => decide (c.2.toNat < 64))

/-- No palette entry is stored under an aliased index (spec/20_memory.md R66). -/
def paletteCanonical (m : Memory) : Bool :=
  m.all (fun c => c.1 != 0x10 && c.1 != 0x14 && c.1 != 0x18 && c.1 != 0x1C)

/-- The PPU's counters and memories are in the ranges of R36 and R37. -/
structure Ppu.Inv (p : Ppu) : Prop where
  lineLow      : -1 ≤ p.scanline
  lineHigh     : p.scanline ≤ 260
  cycleHigh    : p.cycle ≤ 340
  ciramWf      : p.ciram.wf = true
  ciramBelow   : p.ciram.below 0x800 = true
  oamWf        : p.oam.wf = true
  oamBelow     : p.oam.below 0x100 = true
  palWf        : p.palettes.wf = true
  palBelow     : p.palettes.below 0x20 = true
  palCanonical : paletteCanonical p.palettes = true
  frameWf      : p.framebuffer.wf = true
  frameBelow   : p.framebuffer.below 61440 = true
  frameColours : framebufferColours p.framebuffer = true

/-- The mapper registers that are numbers are in range (spec/62_mappers_controllers.md R307, R310,
R318). -/
def Mapper.InRange (n16 : Nat) : Mapper → Prop
  | .nrom => True
  | .uxrom bank => bank < n16
  | .mmc1 r => r.count ≤ 4
  | .mmc3 r => r.lowCount ≤ 8

/-- The cartridge is one powerOn accepts, with its memories in range (R236, spec/10_state.md R38). -/
structure Cart.Inv (c : Cart) : Prop where
  prgSome     : 0 < c.prgLen
  prgBanks    : c.prgLen % 0x4000 = 0
  chrSome     : 0 < c.chrLen
  chrBanks    : c.chrLen % 0x2000 = 0
  prgRomWf    : c.prgRom.wf = true
  prgRomBelow : c.prgRom.below c.prgLen = true
  chrWf       : c.chr.wf = true
  chrBelow    : c.chr.below c.chrLen = true
  prgRamWf    : c.prgRam.wf = true
  prgRamBelow : c.prgRam.below 0x2000 = true
  mapper      : c.mapper.InRange c.n16

/-- The invariant of the machine; a state without it still has a step (DESIGN CHOICE, log entry 15). -/
structure State.Inv (s : State) : Prop where
  cpu      : s.cpu.Inv
  ramWf    : s.ram.wf = true
  ramBelow : s.ram.below 0x800 = true
  ppu      : s.ppu.Inv
  cart     : s.cart.Inv
  fatal    : s.driver.fatal = s.cpu.halted.map (fun h => Fault.cpuHalt h.1 h.2)

/-- The step goes on: it answers a next state. -/
def Safe (s : State) : Prop := ∃ t, step s = .next t

end Sys2Proof.Machine
end

