-- ==== Sys2Proof/Certificates/Slice0/Obligations.lean ====
section
/-! DEFINITION. The statements for the provers, and the words they are said in: what a bus read and a
bus write do, what an operand is, and the row of flags an instruction writes. -/

namespace Sys2Proof.Claims

open Sys2Proof Sys2Proof.Machine

/-! The words. -/

/-- A row of the flag table (spec/10_state.md R29) between the status bytes p and q: each of C, Z, I,
D, V, N is the given value, or unchanged where none is given; B is 0 and U is 1 (R26, R28). -/
structure StatusAfter (p q : Byte) (c z i d v n : Option Bool) : Prop where
  carry     : getFlag q .c = c.getD (getFlag p .c)
  zero      : getFlag q .z = z.getD (getFlag p .z)
  interrupt : getFlag q .i = i.getD (getFlag p .i)
  decimal   : getFlag q .d = d.getD (getFlag p .d)
  overflow  : getFlag q .v = v.getD (getFlag p .v)
  negative  : getFlag q .n = n.getD (getFlag p .n)
  breakBit  : getFlag q .b = false
  unused    : getFlag q .u = true

/-- Only Z and N are written, from r (R14). -/
abbrev ZnFrom (p q r : Byte) : Prop :=
  StatusAfter p q none (some (decide (r = 0))) none none none (some (r.getLsbD 7))

/-- Every byte of every memory reads as before, but for the bytes of CPU RAM. -/
structure DevicesKept (s t : State) : Prop where
  prgRam      : ∀ k, t.cart.prgRam.read k = s.cart.prgRam.read k
  prgRom      : ∀ k, t.cart.prgRom.read k = s.cart.prgRom.read k
  chr         : ∀ k, t.cart.chr.read k = s.cart.chr.read k
  ciram       : ∀ k, t.ppu.ciram.read k = s.ppu.ciram.read k
  oam         : ∀ k, t.ppu.oam.read k = s.ppu.oam.read k
  palettes    : ∀ k, t.ppu.palettes.read k = s.ppu.palettes.read k
  framebuffer : ∀ k, t.ppu.framebuffer.read k = s.ppu.framebuffer.read k

/-- v is the byte a CPU bus read of address a gives in s, and t the state it leaves
(spec/20_memory.md R50, R53, R54, R55): the window a lies in decides, and everything the device's read
side effect does not touch is unchanged, every byte of memory among it. -/
structure ReadAt (s : State) (a : Word) (v : Byte) (t : State) : Prop where
  ram      : a.toNat ≤ 0x1FFF → v = s.ram.read (a.toNat % 0x800) ∧ t = s
  ppu      : 0x2000 ≤ a.toNat → a.toNat ≤ 0x3FFF →
    (v, t.ppu, t.cart) = s.ppu.regRead s.params.a12Cooldown s.cart (a.toNat % 8) ∧ t.pads = s.pads
  pad1     : a.toNat = 0x4016 →
    (v, t.pads) = s.pads.read .one ∧ t.ppu = s.ppu ∧ t.cart = s.cart
  pad2     : a.toNat = 0x4017 →
    (v, t.pads) = s.pads.read .two ∧ t.ppu = s.ppu ∧ t.cart = s.cart
  unmapped : 0x4000 ≤ a.toNat → a.toNat ≤ 0x401F → a.toNat ≠ 0x4016 → a.toNat ≠ 0x4017 →
    v = 0x00 ∧ t = s
  cart     : 0x4020 ≤ a.toNat → v = s.cart.cpuRead a.toNat ∧ t = s
  rest     : t.cpu = s.cpu ∧ t.ram = s.ram ∧ t.driver = s.driver ∧ t.params = s.params
  memories : DevicesKept s t

/-- t is s after byte d is written on the CPU bus at address a (R51, R53, R54, R55): the window a lies
in decides, no other byte of memory changes, and no CPU register does; OAM DMA owes its cycles. -/
structure Written (s : State) (a : Word) (d : Byte) (t : State) : Prop where
  ram      : ∀ k, t.ram.read k
    = if a.toNat ≤ 0x1FFF ∧ k = a.toNat % 0x800 then d else s.ram.read k
  ppu      : 0x2000 ≤ a.toNat → a.toNat ≤ 0x3FFF →
    (t.ppu, t.cart) = s.ppu.regWrite s.params.a12Cooldown s.cart (a.toNat % 8) d
  dma      : a.toNat = 0x4014 → t = s.oamDma d
  strobe   : a.toNat = 0x4016 → t = { s with pads := s.pads.strobeWrite d }
  ignored  : 0x4000 ≤ a.toNat → a.toNat ≤ 0x401F → a.toNat ≠ 0x4014 → a.toNat ≠ 0x4016 → t = s
  cart     : 0x4020 ≤ a.toNat → t = { s with cart := s.cart.cpuWrite a.toNat d }
  cpu      : t.cpu = { s.cpu with extraCycles :=
    if a.toNat = 0x4014 then s.cpu.extraCycles + dmaCycles s.params.dmaCost
    else s.cpu.extraCycles }
  ppuKept  : a.toNat ≤ 0x1FFF → t.ppu = s.ppu ∧ t.cart = s.cart
  padsKept : a.toNat ≤ 0x3FFF → t.pads = s.pads
  prgRam   : ∀ k, t.cart.prgRam.read k
    = if 0x6000 ≤ a.toNat ∧ a.toNat < 0x8000 ∧ k = a.toNat - 0x6000 then d
      else s.cart.prgRam.read k
  prgRom   : ∀ k, t.cart.prgRom.read k = s.cart.prgRom.read k
  chr      : ¬(0x2000 ≤ a.toNat ∧ a.toNat ≤ 0x3FFF ∧ a.toNat % 8 = 7) →
    ∀ k, t.cart.chr.read k = s.cart.chr.read k
  vram     : ¬(0x2000 ≤ a.toNat ∧ a.toNat ≤ 0x3FFF ∧ a.toNat % 8 = 7) →
    ∀ k, t.ppu.ciram.read k = s.ppu.ciram.read k ∧ t.ppu.palettes.read k = s.ppu.palettes.read k
  oam      : ¬(0x2000 ≤ a.toNat ∧ a.toNat ≤ 0x3FFF ∧ a.toNat % 8 = 4) → a.toNat ≠ 0x4014 →
    ∀ k, t.ppu.oam.read k = s.ppu.oam.read k
  frame    : t.ppu.framebuffer = s.ppu.framebuffer ∧ t.driver = s.driver ∧ t.params = s.params

/-- v is the value M of a read instruction in s, and t the state left by getting it
(spec/30_encoding.md R92, R99): the immediate byte and no access, or one read of EA. -/
def Operand (s : State) (o : Source) (v : Byte) (t : State) : Prop :=
  match o with
  | .imm b => v = b ∧ t = s
  | .mem m => ReadAt s (s.ea m) v t

/-- Byte d is stored at EA after v was read there: u is the state between, t the state after (R99). -/
def Modified (s : State) (m : MemOperand) (v d : Byte) (t : State) : Prop :=
  ∃ u, ReadAt s (s.ea m) v u ∧ Written u (s.ea m) d t

/-- Fetching the bytes bs one after another, each a bus read at PC that moves PC on by 1
(spec/10_state.md R24), gives exactly those bytes and leaves t. -/
def Fetches (s : State) (bs : List Byte) (t : State) : Prop :=
  match bs with
  | [] => t = s
  | b :: rest =>
    (s.busRead s.cpu.pc).1 = b
      ∧ Fetches ((s.busRead s.cpu.pc).2.setPc (s.cpu.pc + 1)) rest t

/-- The PPU's place in its frame: sub-cycles since (-1, 0) (spec/61_ppu.md R262). -/
def position (p : Ppu) : Nat := (p.scanline + 1).toNat * 341 + p.cycle

/-- The mapperId of a variant (spec/62_mappers_controllers.md R300). -/
def variantId (m : Mapper) : Nat :=
  match m with
  | .nrom => 0
  | .mmc1 _ => 1
  | .uxrom _ => 2
  | .mmc3 _ => 4

/-- What no instruction and no sub-cycle changes of the cartridge: the ROMs and the header, the mapper's
variant among it (spec/10_state.md R38). -/
structure RomKept (c d : Cart) : Prop where
  variant   : variantId d.mapper = variantId c.mapper
  prgRom    : d.prgRom = c.prgRom
  prgLen    : d.prgLen = c.prgLen
  chrLen    : d.chrLen = c.chrLen
  chrIsRam  : d.chrIsRam = c.chrIsRam
  chrRom    : c.chrIsRam = false → d.chr = c.chr
  mirroring : d.mirroring = c.mirroring
  battery   : d.battery = c.battery

/-- t is s after n CPU reads of address a, whatever they return. -/
def readsAt (a : Word) (n : Nat) (s : State) : State :=
  match n with
  | 0 => s
  | k + 1 => readsAt a k (s.busRead a).2

/-- n clocks of the MMC3 counter. -/
def clocks (n : Nat) (r : Mmc3) : Mmc3 :=
  match n with
  | 0 => r
  | k + 1 => clocks k r.clock

/-- The one address an instruction stores to beside the stack: EA of a store and of a read-modify-write
form (spec/30_encoding.md R99). -/
def storedTo (i : Instr) (s : State) : Option Word :=
  match i with
  | .sta m => some (s.ea m)
  | .stx m => some (s.ea m)
  | .sty m => some (s.ea m)
  | .inc m => some (s.ea m)
  | .dec m => some (s.ea m)
  | .asl (.mem m) => some (s.ea m)
  | .lsr (.mem m) => some (s.ea m)
  | .rol (.mem m) => some (s.ea m)
  | .ror (.mem m) => some (s.ea m)
  | .slo m => some (s.ea m)
  | _ => none

/-- The sub-cycle of a running machine enters an interrupt: after its tick the NMI latch is up, or the
IRQ line is up and P.I is 0 (spec/60_exceptions.md R230). -/
def enters (s : State) : Bool :=
  s.ppuTick.ppu.nmiOccurred || (s.ppuTick.cart.consumeIrq && !getFlag s.cpu.p .i)

/-- How many of the n sub-cycles from s enter an interrupt. -/
def entries (n : Nat) (s : State) : Nat :=
  match n with
  | 0 => 0
  | k + 1 => (if enters s then 1 else 0) + entries k s.subCycle

end Sys2Proof.Claims

open Sys2Proof Sys2Proof.Machine Sys2Proof.Claims

/-! Encoding. -/

/-- Every well-formed instruction, with every operand, encodes to bytes that decode to it, whatever
bytes follow (spec/30_encoding.md R90, R91, R100). -/
def Obligations.EncodeThenDecode : Prop :=
  ∀ (i : Instr) (rest : List Byte), i.wf = true → decode (encode i ++ rest) = .ok (i, rest)

/-- Whatever decodes is well-formed, and its encoding is exactly the bytes that were consumed: no two
encodings of one instruction, no ignored bit, no reserved operand value (R100, R101, R102). -/
def Obligations.DecodeThenEncode : Prop :=
  ∀ (bs : List Byte) (i : Instr) (rest : List Byte),
    decode bs = .ok (i, rest) → i.wf = true ∧ encode i ++ rest = bs

/-- Words written out from the spec's tables, one of each family: the bytes of Scenario A
(spec/95_test_vectors.md 1.4), `JMP ($02FF)`, `LDX $10,Y`, `SLO ($20),Y`, `NOP $2002`, a KIL, an
unknown opcode, `ROR A` and `CLI`. -/
def Obligations.DecodesSpecWords : Prop :=
  decode [0xA9, 0x42] = .ok (.lda (.imm 0x42), [])
    ∧ decode [0xAA] = .ok (.tax, [])
    ∧ decode [0x85, 0x10] = .ok (.sta (.zp 0x10), [])
    ∧ decode [0xE8] = .ok (.inx, [])
    ∧ decode [0x00] = .ok (.brk, [])
    ∧ decode [0x6C, 0xFF, 0x02] = .ok (.jmp (.ind 0x02FF), [])
    ∧ decode [0xB6, 0x10] = .ok (.ldx (.mem (.zpy 0x10)), [])
    ∧ decode [0x13, 0x20] = .ok (.slo (.izy 0x20), [])
    ∧ decode [0x0C, 0x02, 0x20] = .ok (.nopUnofficial 0x0C (.abs 0x2002), [])
    ∧ decode [0xF2] = .ok (.kil 0xF2, [])
    ∧ decode [0xA7] = .ok (.unknown 0xA7, [])
    ∧ decode [0x6A] = .ok (.ror .acc, [])
    ∧ decode [0x58] = .ok (.cli, [])

/-! The step. -/

/-- A step of a machine that is powered on and not halted runs the instruction its next bytes decode
to, on the state those fetches leave; after one that does not halt the count is reported and the PPU
advances three sub-cycles for each cycle of it (spec/30_encoding.md R98, R110, spec/60_exceptions.md
R230). The model's own: exec runs on the state after the fetches (log entry 10, DEDUCED); the halting
step, which the spec has return CpuHalt, answers a next state whose fatal records it (log entry 6,
DEDUCED); and the count returned is kept in stepCycles (log entry 7, DESIGN CHOICE). -/
def Obligations.StepRunsDecodedInstruction : Prop :=
  ∀ (s t : State) (bs : List Byte) (i : Instr),
    s.driver.poweredOn = true → s.cpu.halted = none → decode bs = .ok (i, []) → Fetches s bs t →
    t.cpu = { s.cpu with pc := s.cpu.pc + BitVec.ofNat 16 bs.length }
      ∧ ∃ u, exec i t = .next u
        ∧ (∀ op a, u.cpu.halted = some (op, a) →
            step s = .next { u with driver :=
              { u.driver with fatal := some (.cpuHalt op a), stepCycles := none } })
        ∧ (u.cpu.halted = none →
            step s = .next (State.advance (3 * (rowCycles i t + u.cpu.extraCycles))
              { u with
                cpu := { u.cpu with extraCycles := 0 },
                driver := { u.driver with
                  frameComplete := false,
                  stepCycles := some (rowCycles i t + u.cpu.extraCycles) } }))

/-- A powered-on machine that is not halted always answers a next state, whatever it executes, because
no access and no operand faults (spec/60_exceptions.md R210) and because the model has the halting step
itself, which R220 has return the fatal CpuHalt, answer a state that records it (log entry 6, DEDUCED).
A halted CPU answers the same CpuHalt again and again (R220, the spec's decision D38), and a machine
before powerOn refuses (R221; that it is a refusal is log entry 8, DEDUCED). -/
def Obligations.StepStopsOnlyWhenHaltedOrOff : Prop :=
  (∀ s : State, s.driver.poweredOn = true → s.cpu.halted = none → Safe s)
    ∧ (∀ (s : State) (op : Byte) (a : Word), s.driver.poweredOn = true →
        s.cpu.halted = some (op, a) →
        step s = .fault (.cpuHalt op a) ∧ frame s = .fault (.cpuHalt op a))
    ∧ (∀ s : State, s.driver.poweredOn = false →
        step s = .refused .driverMisuse ∧ frame s = .refused .driverMisuse
          ∧ hostReset s = .refused .driverMisuse)

/-- A step halts the CPU exactly when the opcode byte it fetches is a KIL or an unknown one; then PC
stays at that byte, the record is kept, and beside the fetch's own read nothing else changes
(spec/45_unofficial.md R203, R204, spec/60_exceptions.md R220). The model's own: the halting step, which
those rules have return CpuHalt, answers the next state t with that record in fatal (log entry 6,
DEDUCED), and leaves no count in stepCycles (log entry 7, DESIGN CHOICE). -/
def Obligations.HaltsExactlyOnHaltOpcodes : Prop :=
  ∀ s t : State, s.cpu.halted = none → step s = .next t →
    let op := (s.busRead s.cpu.pc).1
    (op ∈ kilOpcodes ++ unknownOpcodes →
        t = { (s.busRead s.cpu.pc).2 with
              cpu := { s.cpu with halted := some (op, s.cpu.pc) },
              driver := { s.driver with
                fatal := some (.cpuHalt op s.cpu.pc), stepCycles := none } })
      ∧ (op ∉ kilOpcodes ++ unknownOpcodes →
        t.cpu.halted = none ∧ t.driver.fatal = s.driver.fatal)

/-- The count a step reports is its row's count, what the CPU already owed, and the DMA cost exactly when
the instruction stored to $4014; what it owes afterwards is exactly 7 for each interrupt entered in the
sub-cycles of its advance, three for each reported cycle (spec/30_encoding.md R107, R108, R110,
spec/60_exceptions.md R214, R230). The two cycle models, the 7 cycles and the charging of the DMA to the
same step are the spec's decisions D3, D4 and D5; that the count returned is kept in stepCycles is log
entry 7 (DESIGN CHOICE). -/
def Obligations.ReportedCycleCount : Prop :=
  ∀ s t : State, s.cpu.halted = none → step s = .next t → t.cpu.halted = none →
    ∃ i s1 u, s.fetchInstr = (i, s1) ∧ exec i s1 = .next u
      ∧ u.cpu.extraCycles = s.cpu.extraCycles
          + (if storedTo i s1 = some 0x4014 then
              (if s.params.dmaCost = .c513 then 513 else 514) else 0)
      ∧ t.driver.stepCycles = some (rowCycles i s1 + u.cpu.extraCycles)
      ∧ (s.params.cycleModel = .base → rowCycles i s1 = baseCycles i)
      ∧ (s.params.cycleModel = .documented →
          rowCycles i s1 = baseCycles i + documentedPenalty s1 i)
      ∧ (let n := rowCycles i s1 + u.cpu.extraCycles
         let w := { u with
           cpu := { u.cpu with extraCycles := 0 },
           driver := { u.driver with frameComplete := false, stepCycles := some n } }
         t = State.advance (3 * n) w ∧ t.cpu.extraCycles = 7 * entries (3 * n) w)

/-- Every step keeps the invariant: memories canonical and in their ranges, PPU counters in range,
framebuffer bytes colour indices, no palette entry under an aliased index, mapper registers in range,
P.U 1 and P.B 0, and the driver's fatal record the CPU's halt (spec/10_state.md R26, R28, R36 to R39). -/
def Obligations.StepKeepsInvariant : Prop :=
  ∀ s t : State, s.Inv → step s = .next t → t.Inv

/-- The machine right after reset has the invariant. -/
def Obligations.ResetHasInvariant : Prop := State.reset.Inv

/-- powerOn takes exactly the cartridges of spec/60_exceptions.md R236, and leaves the state of
spec/70_reset_and_hazards.md R351 with the given memory contents, the mapper the variant mapperId
selects (spec/62_mappers_controllers.md R300) with its registers at their reset values (R307, R310,
R318). That contents are cut to the
memory's size and put in canonical form is the model's (log entry 18); the invariant holds when no
contents are given for an aliased palette entry. -/
def Obligations.PowerOnStateAndRefusal : Prop :=
  ∀ (params : Params) (c : Cartridge) (m : PowerOnMem),
    let good := (c.mapperId = 0 ∨ c.mapperId = 1 ∨ c.mapperId = 2 ∨ c.mapperId = 4)
      ∧ c.prgLen ≠ 0 ∧ c.prgLen % 0x4000 = 0 ∧ c.chrLen % 0x2000 = 0
    (¬ good → powerOn params c m = .refused .invalidCartridge)
      ∧ (good → ∃ t, powerOn params c m = .next t
          ∧ (paletteCanonical (m.palettes.load 0x20) = true → t.Inv)
          ∧ t.cpu = { a := 0, x := 0, y := 0, sp := 0xFD, p := 0x24, halted := none, extraCycles := 0,
                      pc := word16 (t.cart.cpuRead 0xFFFD) (t.cart.cpuRead 0xFFFC) }
          ∧ t.ram = m.ram.load 0x800
          ∧ t.ppu = Ppu.atReset (m.ciram.load 0x800) (m.oam.load 0x100) (m.palettes.load 0x20) []
          ∧ t.pads = Pads.atPowerOn
          ∧ t.cart.prgLen = c.prgLen ∧ t.cart.prgRom = c.prgRom.load c.prgLen
          ∧ t.cart.mirroring = c.mirroring ∧ t.cart.battery = c.battery
          ∧ (c.mapperId = 0 → t.cart.mapper = .nrom)
          ∧ (c.mapperId = 1 → t.cart.mapper = .mmc1
              { shift := 0, count := 0, control := 0x0C, chr0 := 0, chr1 := 0, prg := 0 })
          ∧ (c.mapperId = 2 → t.cart.mapper = .uxrom 0)
          ∧ (c.mapperId = 4 → t.cart.mapper = .mmc3
              { bankSelect := 0, regs := Vector.replicate 8 0, mirrorReg := false,
                mirrorWritten := false, prgRamCtl := 0, irqLatch := 0, irqCounter := 0,
                irqReload := false, irqEnabled := false, irqPending := false, lowCount := 0,
                cooldown := 0 })
          ∧ (c.chrLen ≠ 0 → t.cart.chrIsRam = false ∧ t.cart.chrLen = c.chrLen
              ∧ t.cart.chr = c.chrRom.load c.chrLen)
          ∧ (c.chrLen = 0 → t.cart.chrIsRam = true ∧ t.cart.chrLen = 0x2000
              ∧ t.cart.chr = m.chrRam.load 0x2000)
          ∧ (∀ img, c.battery = true → m.savedImage = some img → t.cart.prgRam = img.load 0x2000)
          ∧ (c.battery = false ∨ m.savedImage = none → t.cart.prgRam = m.prgRam.load 0x2000)
          ∧ t.driver.poweredOn = true ∧ t.driver.frameComplete = false ∧ t.driver.fatal = none
          ∧ t.params = params)

/-- reset() of a powered-on machine: the CPU's reset entry (spec/60_exceptions.md R211) with the vector
read through the reset bank map, which is the word four bytes before the end of the ROM; the PPU's and
the mapper's registers at their reset values, every memory and the controllers kept (spec/70_reset_and_hazards.md R350, R351). -/
def Obligations.HostResetRestarts : Prop :=
  ∀ s : State, s.driver.poweredOn = true → s.cart.Inv →
    ∃ t, hostReset s = .next t
      ∧ t.cpu = { a := 0, x := 0, y := 0, sp := 0xFD, p := 0x24, halted := none, extraCycles := 0,
                  pc := word16 (t.cart.cpuRead 0xFFFD) (t.cart.cpuRead 0xFFFC) }
      ∧ (s.cart.mapper ≠ .nrom ∨ s.cart.prgLen ≤ 0x8000 →
          t.cart.cpuRead 0xFFFD = s.cart.prgRom.read (s.cart.prgLen - 3)
            ∧ t.cart.cpuRead 0xFFFC = s.cart.prgRom.read (s.cart.prgLen - 4))
      ∧ t.ppu = Ppu.atReset s.ppu.ciram s.ppu.oam s.ppu.palettes s.ppu.framebuffer
      ∧ t.cart = { s.cart with mapper := s.cart.mapper.reset }
      ∧ t.ram = s.ram ∧ t.pads = s.pads ∧ t.params = s.params
      ∧ t.driver.poweredOn = true ∧ t.driver.frameComplete = false ∧ t.driver.fatal = none

/-- No step changes PRG-ROM, CHR-ROM, the header's mapper variant, mirroring and battery flag
(spec/10_state.md R38), the host's buttons (spec/62_mappers_controllers.md R331), or the parameters of
spec/00_scope.md R8, which are fields of this model's State that no step changes (log entry 3,
DEDUCED). -/
def Obligations.StepKeepsRomAndInputs : Prop :=
  ∀ s t : State, step s = .next t →
    RomKept s.cart t.cart ∧ t.params = s.params
      ∧ t.pads.buttons1 = s.pads.buttons1 ∧ t.pads.buttons2 = s.pads.buttons2

/-- The PPU does not move during an instruction: its counters, sprite flags and framebuffer stay, and so
does the driver's state (spec/20_memory.md R72, spec/61_ppu.md R262). Its NMI latch stays too, a write
to PPUCTRL in VBlank included, which is the spec's decision D15 (R250, R264; log entry 20). Neither do
the ROMs and the header change (spec/10_state.md R38). -/
def Obligations.InstructionsDoNotMovePpu : Prop :=
  ∀ (i : Instr) (s t : State), exec i s = .next t →
    t.ppu.scanline = s.ppu.scanline ∧ t.ppu.cycle = s.ppu.cycle
      ∧ t.ppu.sprite0 = s.ppu.sprite0 ∧ t.ppu.overflow = s.ppu.overflow
      ∧ t.ppu.nmiOccurred = s.ppu.nmiOccurred ∧ t.ppu.framebuffer = s.ppu.framebuffer
      ∧ t.driver = s.driver ∧ RomKept s.cart t.cart

/-- P.U is 1 at all times: every instruction and entry keeps it, PLP, RTI and reset force it whatever
they are given, and the byte that PHP, BRK, NMI or IRQ pushes has it (spec/10_state.md R26). -/
def Obligations.UnusedFlagIsOne : Prop :=
  (∀ (i : Instr) (s t : State), exec i s = .next t → getFlag s.cpu.p .u = true →
      getFlag t.cpu.p .u = true)
    ∧ (∀ (s t : State), exec .plp s = .next t → getFlag t.cpu.p .u = true)
    ∧ (∀ (s t : State), exec .rti s = .next t → getFlag t.cpu.p .u = true)
    ∧ (∀ s : State, getFlag s.cpuReset.cpu.p .u = true)
    ∧ (∀ s : State, getFlag s.cpu.p .u = true →
        getFlag s.cpuNmi.cpu.p .u = true ∧ getFlag s.cpuIrq.cpu.p .u = true)
    ∧ (∀ (s t : State), exec .php s = .next t →
        getFlag (t.ram.read (256 + s.cpu.sp.toNat)) .u = true)
    ∧ (∀ (s t : State), exec .brk s = .next t →
        getFlag (t.ram.read (256 + (s.cpu.sp - 2).toNat)) .u = true)
    ∧ (∀ s : State, s.cpu.halted = none →
        getFlag (s.cpuNmi.ram.read (256 + (s.cpu.sp - 2).toNat)) .u = true)
    ∧ (∀ s : State, s.cpu.halted = none → getFlag s.cpu.p .i = false →
        getFlag (s.cpuIrq.ram.read (256 + (s.cpu.sp - 2).toNat)) .u = true)

/-! The CPU bus. -/

/-- BusRead's decoder, window by window (spec/20_memory.md R50). -/
def Obligations.BusReadDecoder : Prop :=
  ∀ (s : State) (a : Word), ReadAt s a (s.busRead a).1 (s.busRead a).2

/-- BusWrite's decoder, window by window (R51). -/
def Obligations.BusWriteDecoder : Prop :=
  ∀ (s : State) (a : Word) (d : Byte), Written s a d (s.busWrite a d)

/-- RAM mirroring (R52). -/
def Obligations.RamMirroring : Prop :=
  ∀ (s : State) (a : Word) (v : Byte), a.toNat ≤ 0x1FFF →
    ((s.busWrite a v).busRead (BitVec.ofNat 16 (a.toNat % 0x800))).1 = v
      ∧ s.busRead a = s.busRead (BitVec.ofNat 16 (a.toNat % 0x800))

/-- PPU register mirroring: the same access at the register's own address gives the same byte and the
same state (R53). -/
def Obligations.PpuRegisterMirroring : Prop :=
  ∀ (s : State) (a : Word) (d : Byte), 0x2000 ≤ a.toNat → a.toNat ≤ 0x3FFF →
    s.busRead a = s.busRead (0x2000 ||| (a &&& 7))
      ∧ s.busWrite a d = s.busWrite (0x2000 ||| (a &&& 7)) d

/-- The APU and I/O space apart from $4014, $4016 and $4017 is unmapped, and $4014 reads 0 (R54). -/
def Obligations.ApuSpaceIsUnmapped : Prop :=
  ∀ (s : State) (a : Word) (d : Byte), 0x4000 ≤ a.toNat → a.toNat ≤ 0x401F →
    (a.toNat ≠ 0x4016 → a.toNat ≠ 0x4017 → s.busRead a = (0x00, s))
      ∧ (a.toNat ≠ 0x4014 → a.toNat ≠ 0x4016 → a.toNat ≠ 0x4017 → s.busWrite a d = s)

/-- The cartridge space under all four mappers: PRG-RAM at $6000, PRG-ROM at $8000 at an offset inside
the ROM, the rest of it unmapped, and no write reaching the ROM (spec/62_mappers_controllers.md R301,
R302, whose decisions D30 to D32 the spec marks as its own). -/
def Obligations.CartridgeCpuSpace : Prop :=
  ∀ (c : Cart) (a : Nat) (d : Byte), c.Inv → 0x4020 ≤ a → a ≤ 0xFFFF →
    (a < 0x6000 → c.cpuRead a = 0x00 ∧ c.cpuWrite a d = c)
      ∧ (0x6000 ≤ a → a < 0x8000 → c.cpuRead a = c.prgRam.read (a - 0x6000)
          ∧ (c.cpuWrite a d).cpuRead a = d
          ∧ ∀ b, 0x4020 ≤ b → b ≠ a → (c.cpuWrite a d).cpuRead b = c.cpuRead b)
      ∧ (0x8000 ≤ a → c.cpuRead a = c.prgRom.read (c.prgOffset a) ∧ c.prgOffset a < c.prgLen
          ∧ c.cpuWrite a d = { c with mapper := (c.cpuWrite a d).mapper })

/-- OAM DMA: 256 bus reads in ascending order, each byte stored at OAMADDR + i modulo 256; from RAM and
from the cartridge the bytes are those of the page, and OAM holds exactly them; OAMADDR, the CPU's
registers and CPU RAM stay, and the cost is owed (spec/20_memory.md R57, R58; that it is charged to the
writing step is the spec's decision D5). -/
def Obligations.OamDmaCopiesPage : Prop :=
  ∀ (s : State) (page : Byte),
    let t := s.oamDma page
    (∃ σ : Nat → State, σ 0 = s
        ∧ (∀ i, i < 256 → ∃ b u, ReadAt (σ i) (word16 page (BitVec.ofNat 8 i)) b u
            ∧ σ (i + 1) = { u with ppu := { u.ppu with
                oam := u.ppu.oam.write ((s.ppu.oamaddr.toNat + i) % 256) b } })
        ∧ t = (σ 256).addCycles (dmaCycles s.params.dmaCost))
      ∧ t.ppu.oamaddr = s.ppu.oamaddr
      ∧ t.cpu = { s.cpu with extraCycles := s.cpu.extraCycles + dmaCycles s.params.dmaCost }
      ∧ (∀ k, t.ram.read k = s.ram.read k) ∧ t.driver = s.driver ∧ t.params = s.params
      ∧ (page.toNat < 0x20 → t.cart = s.cart ∧ t.pads = s.pads ∧ ∀ i, i < 256 →
          t.ppu.oam.read ((s.ppu.oamaddr.toNat + i) % 256)
            = s.ram.read ((page.toNat * 256 + i) % 0x800))
      ∧ (0x41 ≤ page.toNat → t.cart = s.cart ∧ t.pads = s.pads ∧ ∀ i, i < 256 →
          t.ppu.oam.read ((s.ppu.oamaddr.toNat + i) % 256) = s.cart.cpuRead (page.toNat * 256 + i))

/-! The PPU's memories and registers. -/

/-- The four aliased palette entries, in both directions, and no other (spec/20_memory.md R66). -/
def Obligations.PaletteMirrors : Prop :=
  ∀ (cd : Nat) (p : Ppu) (c : Cart) (v : Byte) (a b : Nat),
    0x3F00 ≤ a → a ≤ 0x3FFF → 0x3F00 ≤ b → b ≤ 0x3FFF →
    let w := p.busWrite cd c a v
    ((a % 32 = b % 32 ∨ (a % 4 = 0 ∧ b % 4 = 0 ∧ a % 16 = b % 16)) → (w.1.busRead cd w.2 b).1 = v)
      ∧ (¬(a % 32 = b % 32 ∨ (a % 4 = 0 ∧ b % 4 = 0 ∧ a % 16 = b % 16)) →
          (w.1.busRead cd w.2 b).1 = (p.busRead cd c b).1)

/-- Nametable space reads and writes CIRAM through the mapper's current mirroring, FourScreen as
Vertical (R65). -/
def Obligations.NametableMirroring : Prop :=
  ∀ (cd : Nat) (p : Ppu) (c : Cart) (v : Byte) (a : Nat), 0x2000 ≤ a → a ≤ 0x3EFF →
    let table := (a / 0x400) % 4
    let bank := if c.currentMirroring = .horizontal then table / 2 else table % 2
    p.busRead cd c a = (p.ciram.read (bank * 0x400 + a % 0x400), c)
      ∧ p.busWrite cd c a v
        = ({ p with ciram := p.ciram.write (bank * 0x400 + a % 0x400) v }, c)

/-- A read of $2002 or a mirror: the three flags in bits 7 to 5, 0 below, then VBlank and the write
toggle cleared and nothing else, the NMI latch included (spec/61_ppu.md R252; bits 4 to 0 reading 0 and
the latch kept are the spec's decisions D23 and D15). -/
def Obligations.StatusReadClears : Prop :=
  ∀ (s : State) (a : Word), 0x2000 ≤ a.toNat → a.toNat ≤ 0x3FFF → a.toNat % 8 = 2 →
    (s.busRead a).1.getLsbD 7 = s.ppu.vblank
      ∧ (s.busRead a).1.getLsbD 6 = s.ppu.sprite0
      ∧ (s.busRead a).1.getLsbD 5 = s.ppu.overflow
      ∧ (s.busRead a).1.toNat % 32 = 0
      ∧ (s.busRead a).2 = { s with ppu := { s.ppu with vblank := false, w := false } }

/-- The two writes of PPUSCROLL and of PPUADDR, bit by bit (R255, R256). -/
def Obligations.ScrollAndAddressWrites : Prop :=
  ∀ (cd : Nat) (p : Ppu) (c : Cart) (d : Byte),
    (p.regRead cd c 5 = (0x00, p, c) ∧ p.regRead cd c 6 = (0x00, p, c))
    ∧ (p.w = false →
      (∃ t, p.regWrite cd c 5 d = ({ p with t := t, x := d.extractLsb' 0 3, w := true }, c)
        ∧ (∀ i, i < 5 → t.getLsbD i = d.getLsbD (i + 3))
        ∧ (∀ i, 5 ≤ i → t.getLsbD i = p.t.getLsbD i))
      ∧ (∃ t, p.regWrite cd c 6 d = ({ p with t := t, w := true }, c)
        ∧ (∀ i, i < 8 → t.getLsbD i = p.t.getLsbD i)
        ∧ (∀ i, 8 ≤ i → i < 14 → t.getLsbD i = d.getLsbD (i - 8))
        ∧ t.getLsbD 14 = false))
    ∧ (p.w = true →
      (∃ t, p.regWrite cd c 5 d = ({ p with t := t, w := false }, c)
        ∧ (∀ i, i < 5 → t.getLsbD i = p.t.getLsbD i)
        ∧ (∀ i, 5 ≤ i → i < 10 → t.getLsbD i = d.getLsbD (i - 2))
        ∧ (∀ i, 10 ≤ i → i < 12 → t.getLsbD i = p.t.getLsbD i)
        ∧ (∀ i, 12 ≤ i → i < 15 → t.getLsbD i = d.getLsbD (i - 12)))
      ∧ (∃ t, p.regWrite cd c 6 d = ({ p with t := t, v := t, w := false }, c)
        ∧ (∀ i, i < 8 → t.getLsbD i = d.getLsbD i)
        ∧ (∀ i, 8 ≤ i → t.getLsbD i = p.t.getLsbD i)))

/-- A PPUDATA read: below $3F00 the old buffer, which then takes the byte at v; from $3F00 the palette
byte at once, the buffer taking the nametable byte under it; v moves by 1 or 32; a CHR byte comes
through the mapper's tap, a nametable byte does not (R257, R261). -/
def Obligations.DataPortRead : Prop :=
  ∀ (cd : Nat) (p : Ppu) (c : Cart),
    let a := p.v.toNat % 0x4000
    let v' := BitVec.ofNat 15 (p.v.toNat + if p.ctrl.getLsbD 2 then 32 else 1)
    (a < 0x3F00 → p.regRead cd c 7
        = (p.readBuffer, { p with readBuffer := (p.busRead cd c a).1, v := v' },
            (p.busRead cd c a).2))
      ∧ (0x3F00 ≤ a → p.regRead cd c 7
        = (p.palettes.read (palIndex a),
            { p with
              readBuffer := p.ciram.read (ntIndex c.currentMirroring (a - 0x1000)), v := v' }, c))
      ∧ (a < 0x2000 → p.busRead cd c a = ((c.tap cd a).chrFetch a, c.tap cd a))
      ∧ (0x2000 ≤ a → a < 0x3F00 →
          p.busRead cd c a = (p.ciram.read (ntIndex c.currentMirroring a), c))

/-- A PPUDATA write through the PPU's address space, and what it can change there (R258, R67; that the
write goes to v is the spec's decision D24). -/
def Obligations.DataPortWrite : Prop :=
  ∀ (cd : Nat) (p : Ppu) (c : Cart) (d : Byte),
    let a := p.v.toNat % 0x4000
    let v' := BitVec.ofNat 15 (p.v.toNat + if p.ctrl.getLsbD 2 then 32 else 1)
    (a < 0x2000 → p.regWrite cd c 7 d = ({ p with v := v' }, c.ppuWrite cd a d))
      ∧ (0x2000 ≤ a → a < 0x3F00 → p.regWrite cd c 7 d
          = ({ p with ciram := p.ciram.write (ntIndex c.currentMirroring a) d, v := v' }, c))
      ∧ (0x3F00 ≤ a → p.regWrite cd c 7 d
          = ({ p with palettes := p.palettes.write (palIndex a) d, v := v' }, c))
      ∧ (c.chrIsRam = false → ∀ k, (c.ppuWrite cd a d).chr.read k = c.chr.read k)
      ∧ (c.chrIsRam = true → a < 0x2000 → ∀ k, (c.ppuWrite cd a d).chr.read k
          = if k = (c.tap cd a).chrOffset a then d else c.chr.read k)

/-- The PPU registers without a toggle or an address of their own. OAMADDR and OAMDATA: a write to
OAMDATA stores at OAMADDR and moves it on by 1 modulo 256, a read does not move it, and all 8 bits come
back (R253, R254; all 8 bits is the spec's decision D28). PPUCTRL: a write stores the byte and puts its
two low bits in t[11:10], and touches no NMI latch (R250; the latch is decision D15). PPUMASK: a write
stores the byte (R251). A write to PPUSTATUS is ignored, and a read of PPUCTRL, PPUMASK or OAMADDR gives
0 and changes nothing (R252, R259; decision D23). -/
def Obligations.OamPort : Prop :=
  ∀ (cd : Nat) (p : Ppu) (c : Cart) (d : Byte),
    p.regWrite cd c 3 d = ({ p with oamaddr := d }, c)
      ∧ p.regRead cd c 3 = (0x00, p, c)
      ∧ p.regRead cd c 4 = (p.oam.read p.oamaddr.toNat, p, c)
      ∧ (∃ m, p.regWrite cd c 4 d
            = ({ p with oam := m, oamaddr := BitVec.ofNat 8 (p.oamaddr.toNat + 1) }, c)
          ∧ ∀ k, m.read k = if k = p.oamaddr.toNat then d else p.oam.read k)
      ∧ p.regRead cd c 0 = (0x00, p, c)
      ∧ (∃ t, p.regWrite cd c 0 d = ({ p with ctrl := d, t := t }, c)
          ∧ ∀ i, t.getLsbD i = if i = 10 then d.getLsbD 0 else if i = 11 then d.getLsbD 1
              else p.t.getLsbD i)
      ∧ p.regRead cd c 1 = (0x00, p, c)
      ∧ p.regWrite cd c 1 d = ({ p with mask := d }, c)
      ∧ p.regWrite cd c 2 d = (p, c)

/-- Each sub-cycle moves the PPU one place on in its frame of 262 lines of 341, and the driver's flag
is raised exactly on the return to (-1, 0) (R262, R234). -/
def Obligations.SubCycleMovesPosition : Prop :=
  ∀ s : State, s.ppu.Inv →
    position s.ppuTick.ppu = (position s.ppu + 1) % 89342
      ∧ s.ppuTick.driver = { s.driver with
          frameComplete := s.driver.frameComplete || decide (position s.ppuTick.ppu = 0) }
      ∧ s.ppuTick.cpu = s.cpu ∧ (∀ k, s.ppuTick.ram.read k = s.ram.read k)

/-- VBlank is set at (241, 1), where the NMI latch is set too if PPUCTRL bit 7 is 1, and cleared at
(-1, 1); no other sub-cycle changes VBlank or the latch (R263, R264, R265; decision D15 for the latch).
The sprite flags are cleared at (-1, 1) and set only at the start of a visible line y: overflow when a
layer is shown and more than 8 sprites are in range (R274, decision D19), the sprite-0 hit when sprite 0
is in range, both layers are shown, and at some pixel that neither left-column clip takes both patterns
are opaque (R278; no exclusion of x = 255 is decision D21); no other sub-cycle changes them. -/
def Obligations.VblankAndNmiLatch : Prop :=
  ∀ s : State,
    let t := s.ppuTick
    let drawn := 0 ≤ t.ppu.scanline ∧ t.ppu.scanline ≤ 239 ∧ t.ppu.cycle = 0
    let p := s.ppu.advancePosition.1
    let q := if p.showBg then p.copyHorizontal else p
    let y := t.ppu.scanline.toNat
    let top := fun n => (s.ppu.oam.read (4 * n)).toNat
    let h := if s.ppu.ctrl.getLsbD 5 then 16 else 8
    let inRange := (List.range 64).filter
      (fun n => decide (top n < 240 ∧ top n + 1 ≤ y ∧ y < top n + 1 + h))
    let bg := s.ppu.mask.getLsbD 3
    let sprites := s.ppu.mask.getLsbD 4
    (t.ppu.scanline = 241 → t.ppu.cycle = 1 → t.ppu.vblank = true
        ∧ t.ppu.nmiOccurred = (s.ppu.nmiOccurred || s.ppu.ctrl.getLsbD 7))
      ∧ (t.ppu.scanline = -1 → t.ppu.cycle = 1 → t.ppu.vblank = false
        ∧ t.ppu.sprite0 = false ∧ t.ppu.overflow = false)
      ∧ (¬(t.ppu.cycle = 1 ∧ (t.ppu.scanline = 241 ∨ t.ppu.scanline = -1)) →
          t.ppu.vblank = s.ppu.vblank)
      ∧ (¬(t.ppu.cycle = 1 ∧ t.ppu.scanline = 241) → t.ppu.nmiOccurred = s.ppu.nmiOccurred)
      ∧ (drawn →
          t.ppu.overflow = (s.ppu.overflow || ((bg || sprites) && decide (8 < inRange.length)))
            ∧ (t.ppu.sprite0 = true ↔ s.ppu.sprite0 = true
                ∨ (0 ∈ inRange ∧ bg = true ∧ sprites = true ∧ ∃ x, x < 256
                    ∧ (bgPixel q s.cart x).1 ≠ 0 ∧ spritePattern q s.cart 0 y x ≠ 0
                    ∧ ¬(x < 8 ∧ (s.ppu.mask.getLsbD 1 = false ∨ s.ppu.mask.getLsbD 2 = false)))))
      ∧ (¬(t.ppu.cycle = 1 ∧ t.ppu.scanline = -1) → ¬ drawn →
          t.ppu.sprite0 = s.ppu.sprite0 ∧ t.ppu.overflow = s.ppu.overflow)

/-- The vertical scroll step: fine Y counts, then coarse Y, row 29 wrapping into the other vertical
nametable and row 31 wrapping without a switch; the horizontal bits stay (R268, which the spec takes
from general knowledge and marks as its decision D17). -/
def Obligations.VerticalScrollStep : Prop :=
  ∀ v : BitVec 15,
    coarseX (incY v) = coarseX v ∧ ntOf (incY v) % 2 = ntOf v % 2
      ∧ (fineY v < 7 → fineY (incY v) = fineY v + 1 ∧ coarseY (incY v) = coarseY v
          ∧ ntOf (incY v) = ntOf v)
      ∧ (fineY v = 7 → fineY (incY v) = 0
          ∧ (coarseY v = 29 → coarseY (incY v) = 0 ∧ ntOf (incY v) / 2 = 1 - ntOf v / 2)
          ∧ (coarseY v = 31 → coarseY (incY v) = 0 ∧ ntOf (incY v) = ntOf v)
          ∧ (coarseY v ≠ 29 → coarseY v ≠ 31 →
              coarseY (incY v) = coarseY v + 1 ∧ ntOf (incY v) = ntOf v))

/-- A visible line's start writes that line's 256 pixels and no other, every one a colour index below
64; with both layers off it is the backdrop; no other sub-cycle writes the framebuffer (R267, R270, and
the spec's decisions D16, D22). With the background shown, that start first copies v[10] and v[4:0] from
t and at its end steps v down one row (R267, D17), (-1, 0) copies v[14:11] and v[9:5] from t (R266), and
(y, 260) of a visible line clocks the mapper once, past the filter (R279, D18); no other sub-cycle
changes v or the cartridge. A sub-cycle changes nothing else but the PPU's counters, status flags and
NMI latch, and the driver's flag. -/
def Obligations.VisibleLineIsRendered : Prop :=
  ∀ s : State,
    let t := s.ppuTick
    let drawn := 0 ≤ t.ppu.scanline ∧ t.ppu.scanline ≤ 239 ∧ t.ppu.cycle = 0
    let p := s.ppu.advancePosition.1
    let q := if p.showBg then p.copyHorizontal else p
    (¬ drawn → t.ppu.framebuffer = s.ppu.framebuffer)
      ∧ (drawn → ∀ y x, x < 256 →
          (y ≠ t.ppu.scanline.toNat → t.pixel y x = s.pixel y x)
            ∧ (y = t.ppu.scanline.toNat → (t.pixel y x).toNat < 64
                ∧ (s.ppu.mask.getLsbD 3 = false → s.ppu.mask.getLsbD 4 = false →
                    t.pixel y x = s.ppu.palettes.read 0 &&& 0x3F)
                ∧ t.pixel y x
                  = composePixel q (bgPixel q s.cart x)
                      (spritePixel q s.cart (q.spritesOnLine y) y x) &&& 0x3F))
      ∧ (∀ i, q.v.getLsbD i = if s.ppu.mask.getLsbD 3 = true ∧ (i = 10 ∨ i < 5)
          then s.ppu.t.getLsbD i else s.ppu.v.getLsbD i)
      ∧ (drawn → t.ppu.v = if s.ppu.mask.getLsbD 3 then incY q.v else s.ppu.v)
      ∧ (t.ppu.scanline = -1 → t.ppu.cycle = 0 → ∀ i, t.ppu.v.getLsbD i
          = if s.ppu.mask.getLsbD 3 = true ∧ (11 ≤ i ∨ (5 ≤ i ∧ i ≤ 9))
            then s.ppu.t.getLsbD i else s.ppu.v.getLsbD i)
      ∧ (¬ drawn → ¬(t.ppu.scanline = -1 ∧ t.ppu.cycle = 0) → t.ppu.v = s.ppu.v)
      ∧ t.cart = (if 0 ≤ t.ppu.scanline ∧ t.ppu.scanline ≤ 239 ∧ t.ppu.cycle = 260
          ∧ s.ppu.mask.getLsbD 3 = true then s.cart.scanlineClock else s.cart)
      ∧ t.ppu = { s.ppu with
          v := t.ppu.v, framebuffer := t.ppu.framebuffer, scanline := t.ppu.scanline,
          cycle := t.ppu.cycle, vblank := t.ppu.vblank, sprite0 := t.ppu.sprite0,
          overflow := t.ppu.overflow, nmiOccurred := t.ppu.nmiOccurred }
      ∧ t = { s with
          ppu := t.ppu, cart := t.cart,
          driver := { s.driver with frameComplete := t.driver.frameComplete } }

/-! The mappers and the controllers. -/

/-- UxROM: a write selects the low window's bank modulo the bank count, the last bank stays at $C000
(spec/62_mappers_controllers.md R305, R306; the modulo on the whole byte is the spec's decision D33).
NROM: PRG-ROM read modulo its length, writes ignored (R303, decision D32). Both: CHR fixed (R304,
R306). -/
def Obligations.UxromBanking : Prop :=
  (∀ (c : Cart) (bank a : Nat) (d : Byte), c.Inv → c.mapper = .uxrom bank → 0x8000 ≤ a → a ≤ 0xFFFF →
    c.cpuWrite a d = { c with mapper := .uxrom (d.toNat % c.n16) }
      ∧ (∀ b, 0x8000 ≤ b → b < 0xC000 →
          (c.cpuWrite a d).cpuRead b = c.prgRom.read (d.toNat % c.n16 * 0x4000 + (b - 0x8000)))
      ∧ (∀ b, 0xC000 ≤ b → b ≤ 0xFFFF →
          (c.cpuWrite a d).cpuRead b = c.prgRom.read (c.prgLen - 0x4000 + (b - 0xC000)))
      ∧ c.consumeIrq = false)
    ∧ (∀ (c : Cart) (a : Nat) (d : Byte), c.mapper = .nrom → 0x8000 ≤ a → a ≤ 0xFFFF →
      c.cpuRead a = c.prgRom.read ((a - 0x8000) % c.prgLen) ∧ c.cpuWrite a d = c)
    ∧ (∀ (c : Cart) (bank a : Nat), c.mapper = .nrom ∨ c.mapper = .uxrom bank → a < 0x2000 →
      c.chrFetch a = c.chr.read (a % c.chrLen))

/-- MMC1. Its serial port: every write at $8000..$FFFF reaches it, fewer than five writes change no
register, the fifth loads the five bits, least significant first, into the register its own address
selects, and a write with bit 7 set empties the port and sets PRG mode 3 (R308). Its banking: the 16 KiB
PRG banks of the four modes (R311) and the 4 KiB CHR banks of the two (R312), each modulo the bank count
(R302). All with the spec's decision D34. -/
def Obligations.Mmc1SerialPort : Prop :=
  (∀ (r : Mmc1) (a : Nat) (d : Byte), d.getLsbD 7 = true →
      r.write a d = { r with shift := 0, count := 0, control := r.control ||| 0x0C })
    ∧ (∀ (r : Mmc1) (a : Nat) (d : Byte), d.getLsbD 7 = false → r.count < 4 →
      ∃ sh, r.write a d = { r with shift := sh, count := r.count + 1 })
    ∧ (∀ (r : Mmc1) (a1 a2 a3 a4 a5 : Nat) (d1 d2 d3 d4 d5 : Byte),
      r.shift = 0 → r.count = 0 → 0x8000 ≤ a5 → a5 ≤ 0xFFFF →
      d1.getLsbD 7 = false → d2.getLsbD 7 = false → d3.getLsbD 7 = false → d4.getLsbD 7 = false →
      d5.getLsbD 7 = false →
      ∃ v : BitVec 5, v.getLsbD 0 = d1.getLsbD 0 ∧ v.getLsbD 1 = d2.getLsbD 0
        ∧ v.getLsbD 2 = d3.getLsbD 0 ∧ v.getLsbD 3 = d4.getLsbD 0 ∧ v.getLsbD 4 = d5.getLsbD 0
        ∧ ((((r.write a1 d1).write a2 d2).write a3 d3).write a4 d4).write a5 d5
          = if a5 < 0xA000 then { r with control := v }
            else if a5 < 0xC000 then { r with chr0 := v }
            else if a5 < 0xE000 then { r with chr1 := v }
            else { r with prg := v })
    ∧ (∀ (c : Cart) (r : Mmc1) (a : Nat) (d : Byte), c.mapper = .mmc1 r → 0x8000 ≤ a → a ≤ 0xFFFF →
      let n := c.prgLen / 0x4000
      let mode := r.control.toNat / 4 % 4
      let b := r.prg.toNat % 16
      let bank :=
        if a < 0xC000 then (if mode < 2 then b / 2 * 2 % n else if mode = 2 then 0 else b % n)
        else (if mode < 2 then (b / 2 * 2 + 1) % n else if mode = 2 then b % n else n - 1)
      c.cpuWrite a d = { c with mapper := .mmc1 (r.write a d) }
        ∧ c.cpuRead a = c.prgRom.read (bank * 0x4000 + a % 0x4000))
    ∧ (∀ (c : Cart) (r : Mmc1) (a : Nat), c.mapper = .mmc1 r → a < 0x2000 →
      let n := c.chrLen / 0x1000
      let even := r.chr0.toNat / 2 * 2
      let bank :=
        if r.control.getLsbD 4 then (if a < 0x1000 then r.chr0.toNat % n else r.chr1.toNat % n)
        else (if a < 0x1000 then even % n else (even + 1) % n)
      c.chrFetch a = c.chr.read (bank * 0x1000 + a % 0x1000))

/-- MMC3's counter: a clock reloads it from the latch when a reload is due or it is 0 and counts down
otherwise, and raises the IRQ if it is enabled and the counter then is 0 (R322); with latch N, the IRQ
enabled and a reload due, k clocks leave N + 1 - k and raise the IRQ exactly on clock N + 1 (R326). The
A12 filter: a tapped CHR access clocks it exactly when A12 is 1 after 8 accesses with A12 = 0 and no
cooldown runs (R324; the cooldown's length cd is the parameter of decision D36); ScanlineClock clocks it
past the filter (R326). Both reach MMC3 only, and no other mapper has an IRQ (R325). -/
def Obligations.Mmc3CounterRaisesIrq : Prop :=
  (∀ r : Mmc3,
    let n := if r.irqReload = true ∨ r.irqCounter = 0 then r.irqLatch else r.irqCounter - 1
    r.clock = { r with
      irqCounter := n, irqReload := false,
      irqPending := r.irqPending || (r.irqEnabled && decide (n = 0)) })
    ∧ (∀ (r : Mmc3) (k : Nat), r.irqEnabled = true → r.irqPending = false →
      (r.irqReload = true ∨ r.irqCounter = 0) → 1 ≤ k → k ≤ r.irqLatch.toNat + 1 →
      (clocks k r).irqCounter.toNat = r.irqLatch.toNat + 1 - k
        ∧ (clocks k r).irqPending = decide (k = r.irqLatch.toNat + 1))
    ∧ (∀ (r : Mmc3) (cd a : Nat), a < 0x2000 →
      (a < 0x1000 → r.tap cd a
        = { r with lowCount := min (r.lowCount + 1) 8, cooldown := r.cooldown - 1 })
      ∧ (0x1000 ≤ a → ¬(8 ≤ r.lowCount ∧ r.cooldown = 0) → r.tap cd a
        = { r with lowCount := 0, cooldown := r.cooldown - 1 })
      ∧ (0x1000 ≤ a → 8 ≤ r.lowCount → r.cooldown = 0 → r.tap cd a
        = { r.clock with lowCount := 0, cooldown := cd }))
    ∧ (∀ (c : Cart) (r : Mmc3) (cd a : Nat), c.mapper = .mmc3 r →
      c.tap cd a = { c with mapper := .mmc3 (r.tap cd a) }
        ∧ c.scanlineClock = { c with mapper := .mmc3 r.clock })
    ∧ (∀ (c : Cart) (cd a : Nat), variantId c.mapper ≠ 4 →
      c.tap cd a = c ∧ c.scanlineClock = c ∧ c.consumeIrq = false)

/-- MMC3. Its IRQ is a level: reading it changes nothing; interrupt entry, P.I, the counter and the tap
leave it (R323), and of the register writes exactly those to an even address of $E000..$FFFF lower it
(R315, R321); reset() lowers it too (R328). Its register writes, each reached by a CPU write at
$8000..$FFFF (R315, R316, R317, R321), and its banking: the four 8 KiB PRG windows (R319) and the eight
1 KiB CHR slots (R320), each modulo the bank count (R302). The register layout and the banking are the
spec's decision D35, its PRG-RAM control without effect D30 (log entry 20). -/
def Obligations.Mmc3IrqIsLevel : Prop :=
  (∀ (s : State) (r : Mmc3), s.cart.mapper = .mmc3 r →
      s.cart.consumeIrq = r.irqPending
        ∧ s.cpuIrq.cart = s.cart ∧ s.cpuNmi.cart = s.cart ∧ s.deliverIrq.cart = s.cart
        ∧ (∀ b, (s.setFlag .i b).cart.consumeIrq = r.irqPending)
        ∧ s.cart.reset.consumeIrq = false)
    ∧ (∀ (r : Mmc3) (cd a : Nat) (d : Byte), r.irqPending = true →
        r.clock.irqPending = true ∧ (r.tap cd a).irqPending = true
          ∧ (0x8000 ≤ a → a ≤ 0xFFFF →
              (r.write a d).irqPending = !(decide (0xE000 ≤ a) && decide (a % 2 = 0))))
    ∧ (∀ (r : Mmc3) (a : Nat) (d : Byte), 0x8000 ≤ a → a ≤ 0xFFFF →
      (a < 0xA000 → a % 2 = 0 → r.write a d = { r with bankSelect := d })
        ∧ (a < 0xA000 → a % 2 = 1 → ∃ g, r.write a d = { r with regs := g }
            ∧ ∀ j : Fin 8, g[j] = if j.val = r.bankSelect.toNat % 8 then d else r.regs[j])
        ∧ (0xA000 ≤ a → a < 0xC000 → a % 2 = 0 →
            r.write a d = { r with mirrorReg := d.getLsbD 0, mirrorWritten := true })
        ∧ (0xA000 ≤ a → a < 0xC000 → a % 2 = 1 → r.write a d = { r with prgRamCtl := d })
        ∧ (0xC000 ≤ a → a < 0xE000 → a % 2 = 0 → r.write a d = { r with irqLatch := d })
        ∧ (0xC000 ≤ a → a < 0xE000 → a % 2 = 1 →
            r.write a d = { r with irqReload := true, irqCounter := 0 })
        ∧ (0xE000 ≤ a → a % 2 = 0 →
            r.write a d = { r with irqEnabled := false, irqPending := false })
        ∧ (0xE000 ≤ a → a % 2 = 1 → r.write a d = { r with irqEnabled := true }))
    ∧ (∀ (c : Cart) (r : Mmc3) (a : Nat) (d : Byte), c.mapper = .mmc3 r → 0x8000 ≤ a → a ≤ 0xFFFF →
      let n := c.prgLen / 0x2000
      let mode := r.bankSelect.getLsbD 6
      let bank :=
        if a < 0xA000 then (if mode then n - 2 else r.regs[6].toNat)
        else if a < 0xC000 then r.regs[7].toNat
        else if a < 0xE000 then (if mode then r.regs[6].toNat else n - 2)
        else n - 1
      c.cpuWrite a d = { c with mapper := .mmc3 (r.write a d) }
        ∧ c.cpuRead a = c.prgRom.read (bank % n * 0x2000 + a % 0x2000))
    ∧ (∀ (c : Cart) (r : Mmc3) (a : Nat), c.mapper = .mmc3 r → a < 0x2000 →
      let even := fun (b : Byte) => b.toNat / 2 * 2
      let wide := [even r.regs[0], even r.regs[0] + 1, even r.regs[1], even r.regs[1] + 1]
      let narrow := [r.regs[2].toNat, r.regs[3].toNat, r.regs[4].toNat, r.regs[5].toNat]
      let slots := if r.bankSelect.getLsbD 7 then narrow ++ wide else wide ++ narrow
      c.chrFetch a
        = c.chr.read (slots.getD (a / 0x400) 0 % (c.chrLen / 0x400) * 0x400 + a % 0x400))

/-- The mirroring each mapper reports: the header's, MMC1's control bits, MMC3's register once written
and never over FourScreen (R309, R317, R327; the spec's decisions D34, D35). -/
def Obligations.MapperMirroring : Prop :=
  (∀ c : Cart, c.mapper = .nrom → c.currentMirroring = c.mirroring)
    ∧ (∀ (c : Cart) (bank : Nat), c.mapper = .uxrom bank → c.currentMirroring = c.mirroring)
    ∧ (∀ (c : Cart) (r : Mmc1), c.mapper = .mmc1 r → c.currentMirroring =
        if r.control.getLsbD 0 = r.control.getLsbD 1 then .horizontal else .vertical)
    ∧ (∀ (c : Cart) (r : Mmc3) (a : Nat) (d : Byte), c.mapper = .mmc3 r →
        (c.mirroring = .fourScreen → c.currentMirroring = .vertical)
          ∧ (c.mirroring ≠ .fourScreen → r.mirrorWritten = false → c.currentMirroring = c.mirroring)
          ∧ (c.mirroring ≠ .fourScreen → 0xA000 ≤ a → a < 0xC000 → a % 2 = 0 →
              (c.cpuWrite a d).currentMirroring
                = if d.getLsbD 0 then .horizontal else .vertical))

/-- A strobe of 1 then 0 latches both pads, and the n-th read of $4016 then returns button n of pad 1,
of $4017 button n of pad 2, and 1 from the ninth read on (R332, R333, R335). -/
def Obligations.ControllerRoundTrip : Prop :=
  ∀ (s : State) (d1 d0 : Byte) (n : Nat), d1.getLsbD 0 = true → d0.getLsbD 0 = false →
    let t := (s.busWrite 0x4016 d1).busWrite 0x4016 d0
    ((readsAt 0x4016 n t).busRead 0x4016).1
        = (if (if n < 8 then s.pads.buttons1.getLsbD n else true) then 0x01 else 0x00)
      ∧ ((readsAt 0x4017 n t).busRead 0x4017).1
        = (if (if n < 8 then s.pads.buttons2.getLsbD n else true) then 0x01 else 0x00)

/-! Interrupts. -/

/-- NMI entry of a CPU that is not halted, whatever P.I: PC high, PC low and P with B 0 and U 1 pushed,
P.I set, PC from $FFFA, 7 cycles owed, nothing else changed; a halted CPU ignores it
(spec/60_exceptions.md R212, R214; the 7 cycles are the spec's decision D4). -/
def Obligations.NmiEntry : Prop :=
  (∀ s : State, s.cpu.halted ≠ none → s.cpuNmi = s)
    ∧ (∀ s : State, s.cpu.halted = none →
      s.cpuNmi = { s with
          ram := s.cpuNmi.ram,
          cpu := { s.cpu with
            sp := s.cpu.sp - 3, p := s.cpuNmi.cpu.p,
            pc := word16 (s.cart.cpuRead 0xFFFB) (s.cart.cpuRead 0xFFFA),
            extraCycles := s.cpu.extraCycles + 7 } }
        ∧ StatusAfter s.cpu.p s.cpuNmi.cpu.p none none (some true) none none none
        ∧ ∀ k, s.cpuNmi.ram.read k
          = if k = 256 + s.cpu.sp.toNat then hiByte s.cpu.pc
            else if k = 256 + (s.cpu.sp - 1).toNat then loByte s.cpu.pc
            else if k = 256 + (s.cpu.sp - 2).toNat then (s.cpu.p &&& 0xEF) ||| 0x20
            else s.ram.read k)

/-- IRQ entry: the same through $FFFE, and suppressed with nothing changed while P.I is 1 or the CPU is
halted (R213, R214). -/
def Obligations.IrqEntry : Prop :=
  (∀ s : State, s.cpu.halted ≠ none ∨ getFlag s.cpu.p .i = true → s.cpuIrq = s)
    ∧ (∀ s : State, s.cpu.halted = none → getFlag s.cpu.p .i = false →
      s.cpuIrq = { s with
          ram := s.cpuIrq.ram,
          cpu := { s.cpu with
            sp := s.cpu.sp - 3, p := s.cpuIrq.cpu.p,
            pc := word16 (s.cart.cpuRead 0xFFFF) (s.cart.cpuRead 0xFFFE),
            extraCycles := s.cpu.extraCycles + 7 } }
        ∧ StatusAfter s.cpu.p s.cpuIrq.cpu.p none none (some true) none none none
        ∧ ∀ k, s.cpuIrq.ram.read k
          = if k = 256 + s.cpu.sp.toNat then hiByte s.cpu.pc
            else if k = 256 + (s.cpu.sp - 1).toNat then loByte s.cpu.pc
            else if k = 256 + (s.cpu.sp - 2).toNat then (s.cpu.p &&& 0xEF) ||| 0x20
            else s.ram.read k)

/-- After each sub-cycle NMI is checked first and acknowledged, then IRQ; when both are due only the
NMI is entered, because its entry sets P.I (R225, R230; the order is the spec's decision D13). -/
def Obligations.InterruptPriority : Prop :=
  ∀ s : State, s.cpu.halted = none →
    let u := s.ppuTick
    (u.ppu.nmiOccurred = true →
        s.subCycle = { u.cpuNmi with ppu := { u.ppu with nmiOccurred := false } })
      ∧ (u.ppu.nmiOccurred = false → u.cart.consumeIrq = true → getFlag u.cpu.p .i = false →
        s.subCycle = u.cpuIrq)
      ∧ (u.ppu.nmiOccurred = false → (u.cart.consumeIrq = false ∨ getFlag u.cpu.p .i = true) →
        s.subCycle = u)

/-! The instructions. -/

/-- The effective address of every operand form: zero-page forms wrap in page 0, absolute indexed ones
at 16 bits, and the pointers of the indirect forms lie in page 0 of RAM, second byte included
(spec/30_encoding.md R93 to R96; the 16-bit wrap and the pointer's wrap are the spec's decision D2). -/
def Obligations.EffectiveAddresses : Prop :=
  ∀ (s : State) (z : Byte) (a : Word),
    (s.ea (.zp z)).toNat = z.toNat
      ∧ (s.ea (.zpx z)).toNat = (z.toNat + s.cpu.x.toNat) % 256
      ∧ (s.ea (.zpy z)).toNat = (z.toNat + s.cpu.y.toNat) % 256
      ∧ s.ea (.abs a) = a
      ∧ (s.ea (.abx a)).toNat = (a.toNat + s.cpu.x.toNat) % 65536
      ∧ (s.ea (.aby a)).toNat = (a.toNat + s.cpu.y.toNat) % 65536
      ∧ (s.ea (.izx z)).toNat
        = (s.ram.read ((z.toNat + s.cpu.x.toNat + 1) % 256)).toNat * 256
          + (s.ram.read ((z.toNat + s.cpu.x.toNat) % 256)).toNat
      ∧ (s.ea (.izy z)).toNat
        = ((s.ram.read ((z.toNat + 1) % 256)).toNat * 256 + (s.ram.read z.toNat).toNat
            + s.cpu.y.toNat) % 65536

/-- LDA, LDX and LDY, every form: the register takes M, Z and N follow it, and beside the read's own
effects nothing else changes (spec/40_load_store_transfer.md R120 to R122). -/
def Obligations.Loads : Prop :=
  ∀ (s : State) (o : Source),
    (∃ v u t, Operand s o v u ∧ exec (.lda o) s = .next t
        ∧ t = { u with cpu := { s.cpu with a := v, p := t.cpu.p } } ∧ ZnFrom s.cpu.p t.cpu.p v)
      ∧ (∃ v u t, Operand s o v u ∧ exec (.ldx o) s = .next t
        ∧ t = { u with cpu := { s.cpu with x := v, p := t.cpu.p } } ∧ ZnFrom s.cpu.p t.cpu.p v)
      ∧ (∃ v u t, Operand s o v u ∧ exec (.ldy o) s = .next t
        ∧ t = { u with cpu := { s.cpu with y := v, p := t.cpu.p } } ∧ ZnFrom s.cpu.p t.cpu.p v)

/-- STA, STX and STY, every form: one write of the register at EA with no read of it, and nothing else;
no flag changes (R123 to R125). -/
def Obligations.Stores : Prop :=
  ∀ (s : State) (m : MemOperand),
    (∃ t, exec (.sta m) s = .next t ∧ Written s (s.ea m) s.cpu.a t)
      ∧ (∃ t, exec (.stx m) s = .next t ∧ Written s (s.ea m) s.cpu.x t)
      ∧ (∃ t, exec (.sty m) s = .next t ∧ Written s (s.ea m) s.cpu.y t)

/-- The six transfers: all but TXS set Z and N from the value, TXS writes no flag, and nothing else
changes (R126 to R131). -/
def Obligations.Transfers : Prop :=
  ∀ s : State,
    (∃ t, exec .tax s = .next t ∧ t = { s with cpu := { s.cpu with x := s.cpu.a, p := t.cpu.p } }
        ∧ ZnFrom s.cpu.p t.cpu.p s.cpu.a)
      ∧ (∃ t, exec .tay s = .next t ∧ t = { s with cpu := { s.cpu with y := s.cpu.a, p := t.cpu.p } }
        ∧ ZnFrom s.cpu.p t.cpu.p s.cpu.a)
      ∧ (∃ t, exec .txa s = .next t ∧ t = { s with cpu := { s.cpu with a := s.cpu.x, p := t.cpu.p } }
        ∧ ZnFrom s.cpu.p t.cpu.p s.cpu.x)
      ∧ (∃ t, exec .tya s = .next t ∧ t = { s with cpu := { s.cpu with a := s.cpu.y, p := t.cpu.p } }
        ∧ ZnFrom s.cpu.p t.cpu.p s.cpu.y)
      ∧ (∃ t, exec .tsx s = .next t ∧ t = { s with cpu := { s.cpu with x := s.cpu.sp, p := t.cpu.p } }
        ∧ ZnFrom s.cpu.p t.cpu.p s.cpu.sp)
      ∧ exec .txs s = .next { s with cpu := { s.cpu with sp := s.cpu.x } }

/-- PHA and PHP: one byte of page 1 and SP, nothing else; PHP's byte has B and U set (R132, R134,
spec/10_state.md R23; B set is the spec's decision D7). -/
def Obligations.Pushes : Prop :=
  ∀ s : State,
    (∃ t, exec .pha s = .next t
        ∧ t = { s with ram := t.ram, cpu := { s.cpu with sp := s.cpu.sp - 1 } }
        ∧ ∀ k, t.ram.read k = if k = 256 + s.cpu.sp.toNat then s.cpu.a else s.ram.read k)
      ∧ (∃ t, exec .php s = .next t
        ∧ t = { s with ram := t.ram, cpu := { s.cpu with sp := s.cpu.sp - 1 } }
        ∧ ∀ k, t.ram.read k = if k = 256 + s.cpu.sp.toNat then s.cpu.p ||| 0x30 else s.ram.read k)

/-- PLA and PLP: SP moves on by 1 and the byte there goes to A with Z and N, or to P with B dropped and
U set; no memory changes (R133, R135). -/
def Obligations.Pulls : Prop :=
  ∀ s : State,
    let v := s.ram.read (256 + (s.cpu.sp + 1).toNat)
    (∃ t, exec .pla s = .next t
        ∧ t = { s with cpu := { s.cpu with a := v, sp := s.cpu.sp + 1, p := t.cpu.p } }
        ∧ ZnFrom s.cpu.p t.cpu.p v)
      ∧ (∃ t, exec .plp s = .next t
        ∧ t = { s with cpu := { s.cpu with sp := s.cpu.sp + 1, p := t.cpu.p } }
        ∧ StatusAfter s.cpu.p t.cpu.p (some (getFlag v .c)) (some (getFlag v .z))
            (some (getFlag v .i)) (some (getFlag v .d)) (some (getFlag v .v))
            (some (getFlag v .n)))

/-- What is pushed comes back, wherever SP stands: PHA then PLA, PHP then PLP, JSR then RTS, BRK then RTI
(R133, R135, spec/43_control_transfer.md R173, R184), whatever state w the pull runs in, as long as its
page 1 and its SP are those the push left. -/
def Obligations.StackRoundTrips : Prop :=
  ∀ s t w u : State, (∀ k, 0x100 ≤ k → k < 0x200 → w.ram.read k = t.ram.read k) →
    w.cpu.sp = t.cpu.sp →
    (exec .pha s = .next t → exec .pla w = .next u →
        u.cpu.a = s.cpu.a ∧ u.cpu.sp = s.cpu.sp ∧ u.cpu.pc = w.cpu.pc)
      ∧ (getFlag s.cpu.p .u = true → getFlag s.cpu.p .b = false →
        exec .php s = .next t → exec .plp w = .next u →
        u.cpu.p = s.cpu.p ∧ u.cpu.sp = s.cpu.sp ∧ u.cpu.pc = w.cpu.pc)
      ∧ (∀ dest : Word, exec (.jsr dest) s = .next t → exec .rts w = .next u →
        t.cpu.pc = dest ∧ u.cpu.pc = s.cpu.pc ∧ u.cpu.sp = s.cpu.sp)
      ∧ (getFlag s.cpu.p .u = true → getFlag s.cpu.p .b = false →
        exec .brk s = .next t → exec .rti w = .next u →
        u.cpu.p = s.cpu.p ∧ u.cpu.pc = s.cpu.pc + 1 ∧ u.cpu.sp = s.cpu.sp)

/-- ADC and SBC, every form, binary whatever D holds: the byte, the carry out of the ninth bit, and V
exactly when the two's-complement result leaves -128..127 (spec/41_arithmetic_logic.md R140, R141,
R155). -/
def Obligations.AddAndSubtract : Prop :=
  ∀ (s : State) (o : Source),
    let c := if getFlag s.cpu.p .c then 1 else 0
    (∃ v u t, Operand s o v u ∧ exec (.adc o) s = .next t
        ∧ t = { u with cpu := { s.cpu with
              a := BitVec.ofNat 8 (s.cpu.a.toNat + v.toNat + c), p := t.cpu.p } }
        ∧ StatusAfter s.cpu.p t.cpu.p
            (some (decide (256 ≤ s.cpu.a.toNat + v.toNat + c)))
            (some (decide (t.cpu.a = 0))) none none
            (some (decide (s.cpu.a.toInt + v.toInt + c < -128
              ∨ 127 < s.cpu.a.toInt + v.toInt + c)))
            (some (t.cpu.a.getLsbD 7)))
      ∧ (∃ v u t, Operand s o v u ∧ exec (.sbc o) s = .next t
        ∧ t = { u with cpu := { s.cpu with
              a := BitVec.ofNat 8 (s.cpu.a.toNat + 255 - v.toNat + c), p := t.cpu.p } }
        ∧ StatusAfter s.cpu.p t.cpu.p
            (some (decide (v.toNat + (1 - c) ≤ s.cpu.a.toNat)))
            (some (decide (t.cpu.a = 0))) none none
            (some (decide (s.cpu.a.toInt - v.toInt - (1 - (c : Int)) < -128
              ∨ 127 < s.cpu.a.toInt - v.toInt - (1 - (c : Int)))))
            (some (t.cpu.a.getLsbD 7)))

/-- AND, ORA and EOR, every form: A bit by bit, Z and N from it, nothing else (R142 to R144). -/
def Obligations.LogicIntoA : Prop :=
  ∀ (s : State) (o : Source),
    (∃ v u t, Operand s o v u ∧ exec (.and o) s = .next t
        ∧ t = { u with cpu := { s.cpu with a := t.cpu.a, p := t.cpu.p } }
        ∧ (∀ i, t.cpu.a.getLsbD i = (s.cpu.a.getLsbD i && v.getLsbD i))
        ∧ ZnFrom s.cpu.p t.cpu.p t.cpu.a)
      ∧ (∃ v u t, Operand s o v u ∧ exec (.ora o) s = .next t
        ∧ t = { u with cpu := { s.cpu with a := t.cpu.a, p := t.cpu.p } }
        ∧ (∀ i, t.cpu.a.getLsbD i = (s.cpu.a.getLsbD i || v.getLsbD i))
        ∧ ZnFrom s.cpu.p t.cpu.p t.cpu.a)
      ∧ (∃ v u t, Operand s o v u ∧ exec (.eor o) s = .next t
        ∧ t = { u with cpu := { s.cpu with a := t.cpu.a, p := t.cpu.p } }
        ∧ (∀ i, t.cpu.a.getLsbD i = (s.cpu.a.getLsbD i != v.getLsbD i))
        ∧ ZnFrom s.cpu.p t.cpu.p t.cpu.a)

/-- CMP, CPX, CPY and BIT, every form: only P changes; C is the unsigned order, Z equality, N the byte
difference's top bit; BIT takes N and V from M (R145 to R148). -/
def Obligations.ComparesAndBit : Prop :=
  ∀ (s : State) (o : Source) (m : MemOperand),
    (∃ v u t, Operand s o v u ∧ exec (.cmp o) s = .next t
        ∧ t = { u with cpu := { s.cpu with p := t.cpu.p } }
        ∧ StatusAfter s.cpu.p t.cpu.p (some (decide (v.toNat ≤ s.cpu.a.toNat)))
            (some (decide (s.cpu.a = v))) none none none (some ((s.cpu.a - v).getLsbD 7)))
      ∧ (∃ v u t, Operand s o v u ∧ exec (.cpx o) s = .next t
        ∧ t = { u with cpu := { s.cpu with p := t.cpu.p } }
        ∧ StatusAfter s.cpu.p t.cpu.p (some (decide (v.toNat ≤ s.cpu.x.toNat)))
            (some (decide (s.cpu.x = v))) none none none (some ((s.cpu.x - v).getLsbD 7)))
      ∧ (∃ v u t, Operand s o v u ∧ exec (.cpy o) s = .next t
        ∧ t = { u with cpu := { s.cpu with p := t.cpu.p } }
        ∧ StatusAfter s.cpu.p t.cpu.p (some (decide (v.toNat ≤ s.cpu.y.toNat)))
            (some (decide (s.cpu.y = v))) none none none (some ((s.cpu.y - v).getLsbD 7)))
      ∧ (∃ v u t, ReadAt s (s.ea m) v u ∧ exec (.bit m) s = .next t
        ∧ t = { u with cpu := { s.cpu with p := t.cpu.p } }
        ∧ StatusAfter s.cpu.p t.cpu.p none (some (decide (s.cpu.a &&& v = 0))) none none
            (some (v.getLsbD 6)) (some (v.getLsbD 7)))

/-- INC and DEC: one read of EA and one write there of the byte one up or down modulo 256, Z and N from
it, no other register. INX, INY, DEX and DEY: the register modulo 256, Z and N from it, nothing else
(R149 to R154). -/
def Obligations.IncrementsAndDecrements : Prop :=
  ∀ (s : State) (m : MemOperand),
    (∃ v u t, Modified s m v (BitVec.ofNat 8 (v.toNat + 1)) u ∧ exec (.inc m) s = .next t
        ∧ t = { u with cpu := { u.cpu with p := t.cpu.p } }
        ∧ ZnFrom s.cpu.p t.cpu.p (BitVec.ofNat 8 (v.toNat + 1)))
      ∧ (∃ v u t, Modified s m v (BitVec.ofNat 8 (v.toNat + 255)) u ∧ exec (.dec m) s = .next t
        ∧ t = { u with cpu := { u.cpu with p := t.cpu.p } }
        ∧ ZnFrom s.cpu.p t.cpu.p (BitVec.ofNat 8 (v.toNat + 255)))
      ∧ (∃ t, exec .inx s = .next t
        ∧ t = { s with cpu := { s.cpu with x := BitVec.ofNat 8 (s.cpu.x.toNat + 1), p := t.cpu.p } }
        ∧ ZnFrom s.cpu.p t.cpu.p t.cpu.x)
      ∧ (∃ t, exec .iny s = .next t
        ∧ t = { s with cpu := { s.cpu with y := BitVec.ofNat 8 (s.cpu.y.toNat + 1), p := t.cpu.p } }
        ∧ ZnFrom s.cpu.p t.cpu.p t.cpu.y)
      ∧ (∃ t, exec .dex s = .next t
        ∧ t = { s with cpu := { s.cpu with x := BitVec.ofNat 8 (s.cpu.x.toNat + 255), p := t.cpu.p } }
        ∧ ZnFrom s.cpu.p t.cpu.p t.cpu.x)
      ∧ (∃ t, exec .dey s = .next t
        ∧ t = { s with cpu := { s.cpu with y := BitVec.ofNat 8 (s.cpu.y.toNat + 255), p := t.cpu.p } }
        ∧ ZnFrom s.cpu.p t.cpu.p t.cpu.y)

/-- The accumulator forms of the shifts: the bits move one place, the bit shifted out goes to C, the
rotates bring the old C in, Z and N from the result (spec/42_shift_rotate.md R160 to R163). -/
def Obligations.AccumulatorShifts : Prop :=
  ∀ s : State,
    let c := getFlag s.cpu.p .c
    (∃ t, exec (.asl .acc) s = .next t
        ∧ t = { s with cpu := { s.cpu with a := t.cpu.a, p := t.cpu.p } }
        ∧ t.cpu.a.toNat = 2 * s.cpu.a.toNat % 256
        ∧ StatusAfter s.cpu.p t.cpu.p (some (s.cpu.a.getLsbD 7)) (some (decide (t.cpu.a = 0)))
            none none none (some (t.cpu.a.getLsbD 7)))
      ∧ (∃ t, exec (.lsr .acc) s = .next t
        ∧ t = { s with cpu := { s.cpu with a := t.cpu.a, p := t.cpu.p } }
        ∧ t.cpu.a.toNat = s.cpu.a.toNat / 2
        ∧ StatusAfter s.cpu.p t.cpu.p (some (s.cpu.a.getLsbD 0)) (some (decide (t.cpu.a = 0)))
            none none none (some false))
      ∧ (∃ t, exec (.rol .acc) s = .next t
        ∧ t = { s with cpu := { s.cpu with a := t.cpu.a, p := t.cpu.p } }
        ∧ t.cpu.a.toNat = (2 * s.cpu.a.toNat + c.toNat) % 256
        ∧ StatusAfter s.cpu.p t.cpu.p (some (s.cpu.a.getLsbD 7)) (some (decide (t.cpu.a = 0)))
            none none none (some (t.cpu.a.getLsbD 7)))
      ∧ (∃ t, exec (.ror .acc) s = .next t
        ∧ t = { s with cpu := { s.cpu with a := t.cpu.a, p := t.cpu.p } }
        ∧ t.cpu.a.toNat = s.cpu.a.toNat / 2 + 128 * c.toNat
        ∧ StatusAfter s.cpu.p t.cpu.p (some (s.cpu.a.getLsbD 0)) (some (decide (t.cpu.a = 0)))
            none none none (some c))

/-- The memory forms of the shifts: one read of EA and one write there of the shifted byte, C, Z and N
as for the accumulator, no other register (R160 to R163, spec/30_encoding.md R99). SLO: the same left
shift, the result then ORed into A, Z and N from the new A (spec/45_unofficial.md R200). -/
def Obligations.MemoryShiftsAndSlo : Prop :=
  ∀ (s : State) (m : MemOperand),
    let c := getFlag s.cpu.p .c
    (∃ v r u t, Modified s m v r u ∧ exec (.asl (.mem m)) s = .next t
        ∧ t = { u with cpu := { u.cpu with p := t.cpu.p } }
        ∧ r.toNat = 2 * v.toNat % 256
        ∧ StatusAfter s.cpu.p t.cpu.p (some (v.getLsbD 7)) (some (decide (r = 0)))
            none none none (some (r.getLsbD 7)))
      ∧ (∃ v r u t, Modified s m v r u ∧ exec (.lsr (.mem m)) s = .next t
        ∧ t = { u with cpu := { u.cpu with p := t.cpu.p } }
        ∧ r.toNat = v.toNat / 2
        ∧ StatusAfter s.cpu.p t.cpu.p (some (v.getLsbD 0)) (some (decide (r = 0)))
            none none none (some false))
      ∧ (∃ v r u t, Modified s m v r u ∧ exec (.rol (.mem m)) s = .next t
        ∧ t = { u with cpu := { u.cpu with p := t.cpu.p } }
        ∧ r.toNat = (2 * v.toNat + c.toNat) % 256
        ∧ StatusAfter s.cpu.p t.cpu.p (some (v.getLsbD 7)) (some (decide (r = 0)))
            none none none (some (r.getLsbD 7)))
      ∧ (∃ v r u t, Modified s m v r u ∧ exec (.ror (.mem m)) s = .next t
        ∧ t = { u with cpu := { u.cpu with p := t.cpu.p } }
        ∧ r.toNat = v.toNat / 2 + 128 * c.toNat
        ∧ StatusAfter s.cpu.p t.cpu.p (some (v.getLsbD 0)) (some (decide (r = 0)))
            none none none (some c))
      ∧ (∃ v r u t, Modified s m v r u ∧ exec (.slo m) s = .next t
        ∧ t = { u with cpu := { u.cpu with a := t.cpu.a, p := t.cpu.p } }
        ∧ r.toNat = 2 * v.toNat % 256
        ∧ (∀ i, t.cpu.a.getLsbD i = (s.cpu.a.getLsbD i || r.getLsbD i))
        ∧ StatusAfter s.cpu.p t.cpu.p (some (v.getLsbD 7)) (some (decide (t.cpu.a = 0)))
            none none none (some (t.cpu.a.getLsbD 7)))

/-- JMP: the absolute form sets PC and nothing else; the indirect form reads the target's low byte at
the pointer and its high byte in the pointer's own page (spec/43_control_transfer.md R170, R171). -/
def Obligations.Jumps : Prop :=
  ∀ (s : State) (a : Word),
    exec (.jmp (.abs a)) s = .next { s with cpu := { s.cpu with pc := a } }
      ∧ (∃ lo hi u1 u2 b, ReadAt s a lo u1 ∧ ReadAt u1 b hi u2
          ∧ b.toNat = a.toNat / 256 * 256 + (a.toNat + 1) % 256
          ∧ exec (.jmp (.ind a)) s = .next { u2 with cpu := { s.cpu with pc := word16 hi lo } })

/-- JSR pushes the address of its own last byte, high byte first, and jumps; RTS pulls it and adds 1;
no flag changes and no other byte of memory (R172, R173). -/
def Obligations.CallsAndReturns : Prop :=
  ∀ (s : State) (a : Word),
    (∃ t, exec (.jsr a) s = .next t
        ∧ t = { s with ram := t.ram, cpu := { s.cpu with sp := s.cpu.sp - 2, pc := a } }
        ∧ ∀ k, t.ram.read k
          = if k = 256 + s.cpu.sp.toNat then hiByte (s.cpu.pc - 1)
            else if k = 256 + (s.cpu.sp - 1).toNat then loByte (s.cpu.pc - 1)
            else s.ram.read k)
      ∧ exec .rts s = .next { s with cpu := { s.cpu with
          sp := s.cpu.sp + 2,
          pc := BitVec.ofNat 16 ((s.ram.read (256 + (s.cpu.sp + 2).toNat)).toNat * 256
            + (s.ram.read (256 + (s.cpu.sp + 1).toNat)).toNat + 1) } }

/-- The eight branches: each tests its flag, and a taken one adds the signed displacement to the address
of the next instruction modulo 2^16; nothing else changes (R174 to R182). -/
def Obligations.Branches : Prop :=
  ∀ (s : State) (d : Byte),
    let taken := { s with cpu := { s.cpu with
      pc := BitVec.ofInt 16 ((s.cpu.pc.toNat : Int) + d.toInt) } }
    exec (.bpl d) s = .next (if getFlag s.cpu.p .n = false then taken else s)
      ∧ exec (.bmi d) s = .next (if getFlag s.cpu.p .n = true then taken else s)
      ∧ exec (.bvc d) s = .next (if getFlag s.cpu.p .v = false then taken else s)
      ∧ exec (.bvs d) s = .next (if getFlag s.cpu.p .v = true then taken else s)
      ∧ exec (.bcc d) s = .next (if getFlag s.cpu.p .c = false then taken else s)
      ∧ exec (.bcs d) s = .next (if getFlag s.cpu.p .c = true then taken else s)
      ∧ exec (.bne d) s = .next (if getFlag s.cpu.p .z = false then taken else s)
      ∧ exec (.beq d) s = .next (if getFlag s.cpu.p .z = true then taken else s)

/-- BRK, whatever P.I: the address after the signature byte and P with B and U set are pushed, P.I is
set, PC comes from $FFFE, nothing else changes; RTI takes P with B dropped and U set, then PC, and
changes no memory (R183, R184, spec/60_exceptions.md R215; the spec's decisions D7, D8). -/
def Obligations.BreakAndReturn : Prop :=
  ∀ s : State,
    (∃ t, exec .brk s = .next t
        ∧ t = { s with
            ram := t.ram,
            cpu := { s.cpu with
              sp := s.cpu.sp - 3, p := t.cpu.p,
              pc := word16 (s.cart.cpuRead 0xFFFF) (s.cart.cpuRead 0xFFFE) } }
        ∧ StatusAfter s.cpu.p t.cpu.p none none (some true) none none none
        ∧ ∀ k, t.ram.read k
          = if k = 256 + s.cpu.sp.toNat then hiByte (s.cpu.pc + 1)
            else if k = 256 + (s.cpu.sp - 1).toNat then loByte (s.cpu.pc + 1)
            else if k = 256 + (s.cpu.sp - 2).toNat then s.cpu.p ||| 0x30
            else s.ram.read k)
      ∧ (∃ t, exec .rti s = .next t
        ∧ t = { s with cpu := { s.cpu with
            sp := s.cpu.sp + 3, p := t.cpu.p,
            pc := word16 (s.ram.read (256 + (s.cpu.sp + 3).toNat))
              (s.ram.read (256 + (s.cpu.sp + 2).toNat)) } }
        ∧ t.cpu.p = (s.ram.read (256 + (s.cpu.sp + 1).toNat) &&& 0xCF) ||| 0x20)

/-- The seven flag instructions: one flag, and nothing else but P's B and U held
(spec/44_flags_misc.md R190 to R196). -/
def Obligations.FlagInstructions : Prop :=
  ∀ s : State,
    (∃ t, exec .clc s = .next t ∧ t = { s with cpu := { s.cpu with p := t.cpu.p } }
        ∧ StatusAfter s.cpu.p t.cpu.p (some false) none none none none none)
      ∧ (∃ t, exec .sec s = .next t ∧ t = { s with cpu := { s.cpu with p := t.cpu.p } }
        ∧ StatusAfter s.cpu.p t.cpu.p (some true) none none none none none)
      ∧ (∃ t, exec .cli s = .next t ∧ t = { s with cpu := { s.cpu with p := t.cpu.p } }
        ∧ StatusAfter s.cpu.p t.cpu.p none none (some false) none none none)
      ∧ (∃ t, exec .sei s = .next t ∧ t = { s with cpu := { s.cpu with p := t.cpu.p } }
        ∧ StatusAfter s.cpu.p t.cpu.p none none (some true) none none none)
      ∧ (∃ t, exec .cld s = .next t ∧ t = { s with cpu := { s.cpu with p := t.cpu.p } }
        ∧ StatusAfter s.cpu.p t.cpu.p none none none (some false) none none)
      ∧ (∃ t, exec .sed s = .next t ∧ t = { s with cpu := { s.cpu with p := t.cpu.p } }
        ∧ StatusAfter s.cpu.p t.cpu.p none none none (some true) none none)
      ∧ (∃ t, exec .clv s = .next t ∧ t = { s with cpu := { s.cpu with p := t.cpu.p } }
        ∧ StatusAfter s.cpu.p t.cpu.p none none none none (some false) none)

/-- The NOPs, documented and unofficial with any operand, change nothing, so no operand address is read
(R197, R202; the set is the spec's decision D9). KIL and the unknown opcodes put PC back at the opcode and
record it, and change nothing else (R203, R204; the sets are decision D10); that exec, which runs after
the fetch, puts PC back by 1 is log entry 10, and that it answers a next state, where the spec's step
returns CpuHalt, is log entry 6 (both DEDUCED). -/
def Obligations.NopsAndHalts : Prop :=
  ∀ (s : State) (op : Byte) (o : NopOperand),
    exec .nop s = .next s
      ∧ exec (.nopUnofficial op o) s = .next s
      ∧ exec (.kil op) s = .next { s with cpu := { s.cpu with
          pc := s.cpu.pc - 1, halted := some (op, s.cpu.pc - 1) } }
      ∧ exec (.unknown op) s = .next { s with cpu := { s.cpu with
          pc := s.cpu.pc - 1, halted := some (op, s.cpu.pc - 1) } }
end

