-- ==== Sys2Proof/Laws/Flags.lean ====
section
/-! SUPPORT. Laws of the status register: what each flag is after a flag write, after the register
write that holds B at 0 and U at 1, and after each flag computation. -/

namespace Sys2Proof.Machine

open Sys2Proof

/-- Reading a flag after writing one. -/
theorem getFlag_setFlag (p : Byte) (f g : Flag) (b : Bool) :
    getFlag (setFlag p f b) g = if g = f then b else getFlag p g := by
  cases f <;> cases g <;> cases b <;>
    simp [getFlag, setFlag, Flag.index, Flag.maskByte]

/-- Reading a flag of the register after a byte is written to it (R26, R28). -/
theorem getFlag_normP (v : Byte) (g : Flag) :
    getFlag (normP v) g = if g = .b then false else if g = .u then true else getFlag v g := by
  cases g <;> simp [getFlag, normP, Flag.index]

/-- A byte with the status bits of the register is what the register holds of it. -/
theorem normP_eq_self (v : Byte) (hb : getFlag v .b = false) (hu : getFlag v .u = true) :
    normP v = v := by
  have h : ∀ v : Byte, v.getLsbD 4 = false → v.getLsbD 5 = true → (v &&& 0xCF) ||| 0x20 = v := by
    decide
  exact h v hb hu

theorem normP_normP (v : Byte) : normP (normP v) = normP v := by
  have h : ∀ v : Byte, normP (normP v) = normP v := by decide
  exact h v

/-- Two bytes with the same eight flags are the same byte. -/
theorem eq_of_flags {p q : Byte} (h : ∀ f : Flag, getFlag p f = getFlag q f) : p = q := by
  apply BitVec.eq_of_getLsbD_eq
  intro i hi
  have : i = 0 ∨ i = 1 ∨ i = 2 ∨ i = 3 ∨ i = 4 ∨ i = 5 ∨ i = 6 ∨ i = 7 := by omega
  rcases this with rfl | rfl | rfl | rfl | rfl | rfl | rfl | rfl
  · exact h .c
  · exact h .z
  · exact h .i
  · exact h .d
  · exact h .b
  · exact h .u
  · exact h .v
  · exact h .n

/-- SetZN (R14). -/
theorem getFlag_setZN (p r : Byte) (g : Flag) :
    getFlag (setZN p r) g
      = if g = .n then r.getLsbD 7 else if g = .z then r == 0 else getFlag p g := by
  simp [setZN, getFlag_setFlag]

/-- The flags ADC leaves (R140). -/
theorem getFlag_adcFlags (a m p : Byte) (g : Flag) :
    getFlag (adcFlags a m p) g
      = if g = .n then (adcResult a m p).getLsbD 7
        else if g = .z then adcResult a m p == 0
        else if g = .v then ((~~~ (a ^^^ m)) &&& (a ^^^ adcResult a m p)).getLsbD 7
        else if g = .c then decide (0xFF < adcSum a m p)
        else getFlag p g := by
  simp only [adcFlags, getFlag_setZN, getFlag_setFlag]

/-- The flags a compare leaves (R145). -/
theorem getFlag_cmpFlags (r m p : Byte) (g : Flag) :
    getFlag (cmpFlags r m p) g
      = if g = .n then (r - m).getLsbD 7
        else if g = .z then r - m == 0
        else if g = .c then decide (m.toNat ≤ r.toNat)
        else getFlag p g := by
  simp only [cmpFlags, getFlag_setZN, getFlag_setFlag]

/-- The flags BIT leaves (R148). -/
theorem getFlag_bitFlags (a m p : Byte) (g : Flag) :
    getFlag (bitFlags a m p) g
      = if g = .v then m.getLsbD 6
        else if g = .n then m.getLsbD 7
        else if g = .z then (a &&& m) == 0
        else getFlag p g := by
  simp only [bitFlags, getFlag_setFlag]

/-- The flags a shift leaves. -/
theorem getFlag_shiftFlags (p r : Byte) (c : Bool) (g : Flag) :
    getFlag (shiftFlags p r c) g
      = if g = .n then r.getLsbD 7
        else if g = .z then r == 0
        else if g = .c then c
        else getFlag p g := by
  simp only [shiftFlags, getFlag_setZN, getFlag_setFlag]

/-- The flags of the byte PHP and BRK push (R28). -/
theorem getFlag_pushedByBrk (p : Byte) (g : Flag) :
    getFlag (pushedByBrk p) g = if g = .b then true else if g = .u then true else getFlag p g := by
  cases g <;> simp [getFlag, pushedByBrk, Flag.index]

/-- The flags of the byte NMI and IRQ push (R28). -/
theorem getFlag_pushedByInterrupt (p : Byte) (g : Flag) :
    getFlag (pushedByInterrupt p) g
      = if g = .b then false else if g = .u then true else getFlag p g := by
  cases g <;> simp [getFlag, pushedByInterrupt, Flag.index]

end Sys2Proof.Machine
end

