-- ==== Sys2Proof/Laws/Memory.lean ====
section
/-! SUPPORT. Laws of one memory: read after write, the canonical form is kept by every operation,
and two canonical memories that read alike are the same list. -/

namespace Sys2Proof

@[simp] theorem Memory.read_nil (k : Nat) : Memory.read [] k = Memory.unlisted := rfl

theorem Memory.read_cons (c : Host.Cell) (m : Memory) (k : Nat) :
    Memory.read (c :: m) k = if c.1 = k then c.2 else Memory.read m k := rfl

theorem Memory.erase_cons (c : Host.Cell) (m : Memory) (k : Nat) :
    Memory.erase (c :: m) k = if c.1 = k then Memory.erase m k else c :: Memory.erase m k := by
  by_cases h : c.1 = k <;> simp [Memory.erase, h]

theorem Memory.insert_cons (c : Host.Cell) (m : Memory) (k : Nat) (b : Byte) :
    Memory.insert (c :: m) k b
      = if k < c.1 then (k, b) :: c :: m else c :: Memory.insert m k b := rfl

theorem Memory.read_erase (m : Memory) (k j : Nat) :
    (m.erase k).read j = if j = k then Memory.unlisted else m.read j := by
  induction m with
  | nil => simp [Memory.erase]
  | cons c m ih =>
    rw [Memory.erase_cons]
    by_cases hc : c.1 = k
    · simp only [hc, if_true, ih, Memory.read_cons]
      by_cases hj : j = k
      · simp [hj]
      · simp [hj, show ¬ k = j from fun h => hj h.symm]
    · simp only [hc, if_false, Memory.read_cons, ih]
      by_cases hj : j = k
      · simp [hj, hc]
      · simp [hj]

theorem Memory.read_insert (m : Memory) (k j : Nat) (b : Byte) (h : ∀ c ∈ m, c.1 ≠ k) :
    (m.insert k b).read j = if j = k then b else m.read j := by
  induction m with
  | nil => simp [Memory.insert, Memory.read_cons, eq_comm]
  | cons c m ih =>
    have hc : c.1 ≠ k := h c (by simp)
    have hm := ih (fun d hd => h d (by simp [hd]))
    rw [Memory.insert_cons]
    by_cases hlt : k < c.1
    · simp only [hlt, if_true, Memory.read_cons]
      by_cases hj : j = k
      · simp [hj]
      · simp [hj, show ¬ k = j from fun h => hj h.symm]
    · simp only [hlt, if_false, Memory.read_cons, hm]
      by_cases hj : j = k
      · simp [hj, hc]
      · simp [hj]

theorem Memory.ne_of_mem_erase {m : Memory} {k : Nat} : ∀ c ∈ m.erase k, c.1 ≠ k := by
  intro c hc
  simpa using (List.mem_filter.mp hc).2

/-- Reading after a write: the written byte at its address, the old one elsewhere. -/
theorem Memory.read_write (m : Memory) (k j : Nat) (b : Byte) :
    (m.write k b).read j = if j = k then b else m.read j := by
  unfold Memory.write
  by_cases hb : b = Memory.unlisted
  · simp [hb, Memory.read_erase]
  · rw [if_neg hb, Memory.read_insert _ _ _ _ Memory.ne_of_mem_erase, Memory.read_erase]
    by_cases hj : j = k <;> simp [hj]

@[simp] theorem Memory.read_write_same (m : Memory) (k : Nat) (b : Byte) :
    (m.write k b).read k = b := by simp [Memory.read_write]

theorem Memory.read_write_other (m : Memory) {k j : Nat} (b : Byte) (h : j ≠ k) :
    (m.write k b).read j = m.read j := by simp [Memory.read_write, h]

/-! The canonical form. -/

theorem Memory.wfFrom_cons (lo : Nat) (c : Host.Cell) (m : Memory) :
    Memory.wfFrom lo (c :: m) = true
      ↔ lo ≤ c.1 ∧ c.2 ≠ Memory.unlisted ∧ Memory.wfFrom (c.1 + 1) m = true := by
  simp [Memory.wfFrom, and_assoc]

theorem Memory.wfFrom_mono {lo lo' : Nat} {m : Memory} (h : lo ≤ lo')
    (hm : Memory.wfFrom lo' m = true) : Memory.wfFrom lo m = true := by
  cases m with
  | nil => rfl
  | cons c m =>
    rw [Memory.wfFrom_cons] at hm ⊢
    exact ⟨by omega, hm.2⟩

theorem Memory.le_of_mem_wfFrom {lo : Nat} {m : Memory} (hm : Memory.wfFrom lo m = true) :
    ∀ c ∈ m, lo ≤ c.1 := by
  induction m generalizing lo with
  | nil => simp
  | cons c m ih =>
    rw [Memory.wfFrom_cons] at hm
    intro d hd
    rcases List.mem_cons.mp hd with rfl | hd
    · exact hm.1
    · have := ih hm.2.2 d hd
      omega

theorem Memory.wfFrom_filter {lo : Nat} {m : Memory} (q : Host.Cell → Bool)
    (hm : Memory.wfFrom lo m = true) : Memory.wfFrom lo (m.filter q) = true := by
  induction m generalizing lo with
  | nil => rfl
  | cons c m ih =>
    rw [Memory.wfFrom_cons] at hm
    by_cases hq : q c = true
    · rw [List.filter_cons_of_pos hq, Memory.wfFrom_cons]
      exact ⟨hm.1, hm.2.1, ih hm.2.2⟩
    · rw [List.filter_cons_of_neg hq]
      exact Memory.wfFrom_mono (by omega) (ih hm.2.2)

theorem Memory.wfFrom_insert {lo k : Nat} {m : Memory} {b : Byte} (hm : Memory.wfFrom lo m = true)
    (hk : lo ≤ k) (hb : b ≠ Memory.unlisted) (hn : ∀ c ∈ m, c.1 ≠ k) :
    Memory.wfFrom lo (m.insert k b) = true := by
  induction m generalizing lo with
  | nil => simp [Memory.insert, Memory.wfFrom, hk, hb]
  | cons c m ih =>
    have hc : c.1 ≠ k := hn c (by simp)
    rw [Memory.wfFrom_cons] at hm
    rw [Memory.insert_cons]
    by_cases hlt : k < c.1
    · rw [if_pos hlt, Memory.wfFrom_cons, Memory.wfFrom_cons]
      exact ⟨hk, hb, by simp only; omega, hm.2⟩
    · rw [if_neg hlt, Memory.wfFrom_cons]
      exact ⟨hm.1, hm.2.1, ih hm.2.2 (by omega) (fun d hd => hn d (by simp [hd]))⟩

/-- A write keeps the canonical form. -/
theorem Memory.wf_write {m : Memory} (k : Nat) (b : Byte) (hm : m.wf = true) :
    (m.write k b).wf = true := by
  unfold Memory.write
  by_cases hb : b = Memory.unlisted
  · rw [if_pos hb]; exact Memory.wfFrom_filter _ hm
  · rw [if_neg hb]
    exact Memory.wfFrom_insert (Memory.wfFrom_filter _ hm) (Nat.zero_le _) hb
      Memory.ne_of_mem_erase

theorem Memory.wf_nil : Memory.wf [] = true := rfl

/-! What is listed after an operation. -/

theorem Memory.mem_insert {m : Memory} {k : Nat} {b : Byte} {c : Host.Cell} :
    c ∈ m.insert k b ↔ c = (k, b) ∨ c ∈ m := by
  induction m with
  | nil => simp [Memory.insert]
  | cons d m ih =>
    rw [Memory.insert_cons]
    split
    · simp
    · simp only [List.mem_cons, ih]; tauto

theorem Memory.mem_write {m : Memory} {k : Nat} {b : Byte} {c : Host.Cell}
    (h : c ∈ m.write k b) : c = (k, b) ∨ c ∈ m := by
  unfold Memory.write at h
  split at h
  · exact .inr (List.mem_of_mem_filter h)
  · rcases Memory.mem_insert.mp h with h | h
    · exact .inl h
    · exact .inr (List.mem_of_mem_filter h)

theorem Memory.below_iff {m : Memory} {n : Nat} : m.below n = true ↔ ∀ c ∈ m, c.1 < n := by
  simp [Memory.below]

/-- A write below n keeps every listed address below n. -/
theorem Memory.below_write {m : Memory} {n k : Nat} (b : Byte) (hm : m.below n = true)
    (hk : k < n) : (m.write k b).below n = true := by
  rw [Memory.below_iff] at hm ⊢
  intro c hc
  rcases Memory.mem_write hc with rfl | hc
  · exact hk
  · exact hm c hc

/-! A row of bytes. -/

theorem Memory.cellsFrom_cons (k : Nat) (b : Byte) (bs : List Byte) :
    Memory.cellsFrom k (b :: bs)
      = if b = Memory.unlisted then Memory.cellsFrom (k + 1) bs
        else (k, b) :: Memory.cellsFrom (k + 1) bs := rfl

theorem Memory.wfFrom_cellsFrom (k : Nat) (bs : List Byte) :
    Memory.wfFrom k (Memory.cellsFrom k bs) = true := by
  induction bs generalizing k with
  | nil => rfl
  | cons b bs ih =>
    rw [Memory.cellsFrom_cons]
    split
    · exact Memory.wfFrom_mono (Nat.le_succ k) (ih (k + 1))
    · rw [Memory.wfFrom_cons]
      exact ⟨Nat.le_refl k, by assumption, ih (k + 1)⟩

theorem Memory.mem_cellsFrom {k : Nat} {bs : List Byte} {c : Host.Cell}
    (h : c ∈ Memory.cellsFrom k bs) : k ≤ c.1 ∧ c.1 < k + bs.length ∧ c.2 ∈ bs := by
  induction bs generalizing k with
  | nil => simp [Memory.cellsFrom] at h
  | cons b bs ih =>
    rw [Memory.cellsFrom_cons] at h
    split at h
    · have := ih h
      simp only [List.length_cons, List.mem_cons]
      exact ⟨by omega, by omega, .inr this.2.2⟩
    · rcases List.mem_cons.mp h with rfl | h
      · simp
      · have := ih h
        simp only [List.length_cons, List.mem_cons]
        exact ⟨by omega, by omega, .inr this.2.2⟩

theorem Memory.read_of_all_ne {m : Memory} {j : Nat} (h : ∀ c ∈ m, c.1 ≠ j) :
    m.read j = Memory.unlisted := by
  induction m with
  | nil => rfl
  | cons c m ih =>
    rw [Memory.read_cons, if_neg (h c (by simp)), ih (fun d hd => h d (by simp [hd]))]

theorem Memory.read_append (l r : Memory) (j : Nat) :
    Memory.read (l ++ r) j
      = if ∃ c ∈ l, c.1 = j then Memory.read l j else Memory.read r j := by
  induction l with
  | nil => simp
  | cons c l ih =>
    rw [List.cons_append, Memory.read_cons, Memory.read_cons, ih]
    by_cases h : c.1 = j <;> simp [h]

theorem Memory.read_filter {m : Memory} {q : Host.Cell → Bool} {j : Nat}
    (h : ∀ c : Host.Cell, c.1 = j → q c = true) : Memory.read (m.filter q) j = m.read j := by
  induction m with
  | nil => rfl
  | cons c m ih =>
    by_cases hc : c.1 = j
    · rw [List.filter_cons_of_pos (h c hc), Memory.read_cons, Memory.read_cons, if_pos hc,
        if_pos hc]
    · by_cases hq : q c = true
      · rw [List.filter_cons_of_pos hq, Memory.read_cons, Memory.read_cons, if_neg hc, if_neg hc, ih]
      · rw [List.filter_cons_of_neg hq, Memory.read_cons, if_neg hc, ih]

theorem Memory.read_cellsFrom (k : Nat) (bs : List Byte) (i : Nat) (hi : i < bs.length) :
    Memory.read (Memory.cellsFrom k bs) (k + i) = bs[i] := by
  induction bs generalizing k i with
  | nil => simp at hi
  | cons b bs ih =>
    rw [Memory.cellsFrom_cons]
    cases i with
    | zero =>
      split
      · rename_i hb
        rw [Memory.read_of_all_ne]
        · simp [hb]
        · intro c hc
          have := Memory.mem_cellsFrom hc
          omega
      · simp [Memory.read_cons]
    | succ i =>
      have hi' : i < bs.length := by simpa using hi
      have := ih (k + 1) i hi'
      rw [show k + 1 + i = k + (i + 1) by omega] at this
      split
      · simpa using this
      · rw [Memory.read_cons, if_neg (by simp), this]; simp

/-- Reading after a row is written. -/
theorem Memory.read_writeRow (m : Memory) (k : Nat) (bs : List Byte) (j : Nat) :
    (m.writeRow k bs).read j
      = if h : k ≤ j ∧ j < k + bs.length then bs[j - k]'(by omega) else m.read j := by
  unfold Memory.writeRow
  rw [List.append_assoc, Memory.read_append, Memory.read_append]
  by_cases h1 : j < k
  · rw [dif_neg (by omega)]
    have hrest : ∀ c ∈ Memory.cellsFrom k bs ++ m.filter (fun c => decide (k + bs.length ≤ c.1)),
        c.1 ≠ j := by
      intro c hc
      rcases List.mem_append.mp hc with hc | hc
      · have := Memory.mem_cellsFrom hc; omega
      · have := (List.mem_filter.mp hc).2
        simp at this; omega
    split
    · exact Memory.read_filter (fun c hc => by simp [hc, h1])
    · rename_i hno
      have e : m.read j = Memory.unlisted := by
        apply Memory.read_of_all_ne
        intro c hc hcj
        exact hno ⟨c, List.mem_filter.mpr ⟨hc, by simp [hcj, h1]⟩, hcj⟩
      rw [e]
      split
      · exact Memory.read_of_all_ne (fun c hc => hrest c (List.mem_append_left _ hc))
      · exact Memory.read_of_all_ne (fun c hc => hrest c (List.mem_append_right _ hc))
  · rw [if_neg (by
      rintro ⟨c, hc, hcj⟩
      have := (List.mem_filter.mp hc).2
      simp at this; omega)]
    by_cases h2 : j < k + bs.length
    · rw [dif_pos ⟨by omega, h2⟩]
      have hr := Memory.read_cellsFrom k bs (j - k) (by omega)
      rw [show k + (j - k) = j by omega] at hr
      split
      · exact hr
      · rename_i hno
        rw [← hr, Memory.read_of_all_ne (m := Memory.cellsFrom k bs)
          (fun c hc hcj => hno ⟨c, hc, hcj⟩)]
        apply Memory.read_of_all_ne
        intro c hc
        have := (List.mem_filter.mp hc).2
        simp at this; omega
    · rw [dif_neg (by omega), if_neg (by
        rintro ⟨c, hc, hcj⟩
        have := Memory.mem_cellsFrom hc
        omega)]
      exact Memory.read_filter (fun c hc => by simp [hc]; omega)

theorem Memory.wfFrom_append {lo hi : Nat} {l r : Memory} (hl : Memory.wfFrom lo l = true)
    (hb : ∀ c ∈ l, c.1 < hi) (hr : Memory.wfFrom hi r = true) (hlo : lo ≤ hi) :
    Memory.wfFrom lo (l ++ r) = true := by
  induction l generalizing lo with
  | nil => exact Memory.wfFrom_mono hlo hr
  | cons c l ih =>
    rw [Memory.wfFrom_cons] at hl
    rw [List.cons_append, Memory.wfFrom_cons]
    have := hb c (by simp)
    exact ⟨hl.1, hl.2.1, ih hl.2.2 (fun d hd => hb d (by simp [hd])) (by omega)⟩

theorem Memory.wfFrom_of_le {lo hi : Nat} {m : Memory} (hm : Memory.wfFrom lo m = true)
    (h : ∀ c ∈ m, hi ≤ c.1) : Memory.wfFrom hi m = true := by
  cases m with
  | nil => rfl
  | cons c m =>
    rw [Memory.wfFrom_cons] at hm ⊢
    exact ⟨h c (by simp), hm.2⟩

/-- Writing a row keeps the canonical form. -/
theorem Memory.wf_writeRow {m : Memory} (k : Nat) (bs : List Byte) (hm : m.wf = true) :
    (m.writeRow k bs).wf = true := by
  unfold Memory.writeRow
  rw [List.append_assoc]
  refine Memory.wfFrom_append (hi := k) (Memory.wfFrom_filter _ hm) ?_ ?_ (Nat.zero_le _)
  · intro c hc
    simpa using (List.mem_filter.mp hc).2
  · refine Memory.wfFrom_append (hi := k + bs.length) (Memory.wfFrom_cellsFrom k bs) ?_ ?_
      (by omega)
    · intro c hc
      exact (Memory.mem_cellsFrom hc).2.1
    · refine Memory.wfFrom_of_le (Memory.wfFrom_filter _ hm) ?_
      intro c hc
      simpa using (List.mem_filter.mp hc).2

/-- What a row write lists. -/
theorem Memory.mem_writeRow {m : Memory} {k : Nat} {bs : List Byte} {c : Host.Cell}
    (h : c ∈ m.writeRow k bs) : c ∈ m ∨ (c.1 < k + bs.length ∧ c.2 ∈ bs) := by
  unfold Memory.writeRow at h
  rcases List.mem_append.mp h with h | h
  · rcases List.mem_append.mp h with h | h
    · exact .inl (List.mem_of_mem_filter h)
    · exact .inr (Memory.mem_cellsFrom h).2
  · exact .inl (List.mem_of_mem_filter h)

/-! Loading contents. -/

theorem Memory.foldl_write_keeps {n : Nat} (l : Memory) (acc : Memory)
    (h : acc.wf = true ∧ acc.below n = true) :
    (l.foldl (fun acc c => if c.1 < n then acc.write c.1 c.2 else acc) acc).wf = true
      ∧ (l.foldl (fun acc c => if c.1 < n then acc.write c.1 c.2 else acc) acc).below n = true := by
  induction l generalizing acc with
  | nil => exact h
  | cons c l ih =>
    rw [List.foldl_cons]
    apply ih
    split
    · exact ⟨Memory.wf_write _ _ h.1, Memory.below_write _ h.2 (by assumption)⟩
    · exact h

/-- Loaded contents are canonical and in range. -/
theorem Memory.load_ok (n : Nat) (m : Memory) :
    (m.load n).wf = true ∧ (m.load n).below n = true := by
  unfold Memory.load
  split
  · rename_i h
    simpa using h
  · exact Memory.foldl_write_keeps m [] ⟨rfl, rfl⟩

/-! Equal memories are equal data. -/

theorem Memory.read_head {c : Host.Cell} {m : Memory} : Memory.read (c :: m) c.1 = c.2 := by
  simp [Memory.read_cons]

theorem Memory.wfFrom_ext {lo : Nat} {m m' : Memory} (h : Memory.wfFrom lo m = true)
    (h' : Memory.wfFrom lo m' = true) (e : ∀ k, m.read k = m'.read k) : m = m' := by
  induction m generalizing lo m' with
  | nil =>
    cases m' with
    | nil => rfl
    | cons d m' =>
      rw [Memory.wfFrom_cons] at h'
      have := e d.1
      rw [Memory.read_head] at this
      exact absurd this.symm h'.2.1
  | cons c m ih =>
    rw [Memory.wfFrom_cons] at h
    cases m' with
    | nil =>
      have := e c.1
      rw [Memory.read_head] at this
      exact absurd this h.2.1
    | cons d m' =>
      rw [Memory.wfFrom_cons] at h'
      have hm := Memory.le_of_mem_wfFrom h.2.2
      have hm' := Memory.le_of_mem_wfFrom h'.2.2
      have low : ∀ {a b : Host.Cell} {l : Memory}, b.2 ≠ Memory.unlisted →
          (∀ x ∈ l, a.1 + 1 ≤ x.1) → Memory.read (a :: l) b.1 = b.2 → a.1 ≤ b.1 := by
        intro a b l hb hl hr
        by_contra hlt
        rw [Memory.read_cons, if_neg (by omega), Memory.read_of_all_ne] at hr
        · exact hb hr.symm
        · intro x hx
          have := hl x hx
          omega
      have h1 : c.1 ≤ d.1 := low h'.2.1 hm (by rw [e, Memory.read_head])
      have h2 : d.1 ≤ c.1 := low h.2.1 hm' (by rw [← e, Memory.read_head])
      have hk : c.1 = d.1 := Nat.le_antisymm h1 h2
      have hv : c.2 = d.2 := by
        have := e c.1
        rw [Memory.read_head, hk, Memory.read_head] at this
        exact this
      have hcd : c = d := Prod.ext hk hv
      subst hcd
      have := ih h.2.2 h'.2.2 (by
        intro k
        have := e k
        rw [Memory.read_cons, Memory.read_cons] at this
        by_cases hck : c.1 = k
        · rw [Memory.read_of_all_ne (m := m) (fun x hx => by have := hm x hx; omega),
            Memory.read_of_all_ne (m := m') (fun x hx => by have := hm' x hx; omega)]
        · simpa [hck] using this)
      rw [this]

/-- Canonical memories that read alike at every address are equal. -/
theorem Memory.ext_of_wf {m m' : Memory} (h : m.wf = true) (h' : m'.wf = true)
    (e : ∀ k, m.read k = m'.read k) : m = m' := Memory.wfFrom_ext h h' e

end Sys2Proof
end

