-- ==== Sys2Proof/Laws/Mapper.lean ====
section
/-! SUPPORT. Laws of the cartridge: offsets stay inside the arrays, what each operation leaves
unchanged, and that each keeps the cartridge's invariant. -/

namespace Sys2Proof.Machine

open Sys2Proof

/-! Offsets (R302: "no offset falls outside the array"). -/

theorem land_le_right (a b : Nat) : a &&& b ≤ b := Nat.and_le_right

theorem bank_lt {len unit bank k : Nat} (hb : bank < len / unit) (hk : k < unit) :
    bank * unit + k < len := by
  have h1 : (bank + 1) * unit ≤ len / unit * unit := Nat.mul_le_mul_right unit hb
  have h2 : len / unit * unit ≤ len := Nat.div_mul_le_self len unit
  have h3 : (bank + 1) * unit = bank * unit + unit := by ring
  omega

theorem Mmc1.chrBank_lt (r : Mmc1) {n4 : Nat} (h : 0 < n4) (a : Nat) : r.chrBank n4 a < n4 := by
  unfold Mmc1.chrBank
  dsimp only
  split <;> split <;> exact Nat.mod_lt _ h

theorem Mmc1.prgBank_lt (r : Mmc1) {n16 : Nat} (h : 0 < n16) (a : Nat) :
    r.prgBank n16 a < n16 := by
  have hm : ∀ x, x % n16 < n16 := fun x => Nat.mod_lt x h
  unfold Mmc1.prgBank
  dsimp only
  split
  · split
    · exact h
    · exact hm _
  · split
    · exact hm _
    · omega
  · split <;> exact hm _

/-- A CHR offset lies inside chr. -/
theorem Cart.chrOffset_lt {c : Cart} (h : c.Inv) (a : Nat) : c.chrOffset a < c.chrLen := by
  have hs := h.chrSome
  have hb := h.chrBanks
  unfold Cart.chrOffset
  split
  · exact Nat.mod_lt _ hs
  · exact Nat.mod_lt _ hs
  · rename_i r _
    have h4 : 0 < c.n4 := by unfold Cart.n4; omega
    exact bank_lt (r.chrBank_lt h4 a)
      (Nat.lt_of_le_of_lt (land_le_right a 0x0FFF) (by decide))
  · have h1 : 0 < c.n1 := by unfold Cart.n1; omega
    exact bank_lt (Nat.mod_lt _ h1)
      (Nat.lt_of_le_of_lt (land_le_right a 0x3FF) (by decide))

/-- A PRG offset lies inside prgRom. -/
theorem Cart.prgOffset_lt {c : Cart} (h : c.Inv) {a : Nat} (ha : 0x8000 ≤ a) (ha' : a < 0x10000) :
    c.prgOffset a < c.prgLen := by
  have hs := h.prgSome
  have hb := h.prgBanks
  have h16 : 0 < c.n16 := by unfold Cart.n16; omega
  unfold Cart.prgOffset
  split
  · exact Nat.mod_lt _ hs
  · rename_i bank hm
    have hr := h.mapper
    rw [hm] at hr
    have hr : bank < c.n16 := hr
    split
    · exact bank_lt hr (by omega)
    · exact bank_lt (bank := c.n16 - 1) (show c.n16 - 1 < c.prgLen / 0x4000 by
        unfold Cart.n16 at h16 ⊢; omega) (by omega)
  · rename_i r _
    exact bank_lt (r.prgBank_lt h16 a)
      (Nat.lt_of_le_of_lt (land_le_right a 0x3FFF) (by decide))
  · have h8 : 0 < c.n8 := by unfold Cart.n8; omega
    exact bank_lt (Nat.mod_lt _ h8)
      (Nat.lt_of_le_of_lt (land_le_right a 0x1FFF) (by decide))

/-! The numbers a register decode and an offset take from an address (R308, R311, R315, R319). -/

theorem land_mask (a k : Nat) : a &&& (2 ^ k - 1) = a % 2 ^ k := Nat.and_two_pow_sub_one_eq_mod a k

/-- Address bits 14..13 number the four 8 KiB windows from $8000 on. -/
theorem window_index {a : Nat} (h1 : 0x8000 ≤ a) (h2 : a ≤ 0xFFFF) :
    (a >>> 13) &&& 3 = a / 0x2000 - 4 := by
  have h := land_mask (a >>> 13) 2
  rw [Nat.shiftRight_eq_div_pow] at h ⊢
  simp only [Nat.reducePow, Nat.reduceSub] at h ⊢
  omega

/-- A CPU read in the ROM's window (R301). -/
theorem Cart.cpuRead_rom (c : Cart) {a : Nat} (h : 0x8000 ≤ a) :
    c.cpuRead a = c.prgRom.read (c.prgOffset a) := by
  unfold Cart.cpuRead
  rw [if_neg (by omega), if_neg (by omega)]

/-- A CPU write there reaches the mapper's registers (R301). -/
theorem Cart.cpuWrite_rom (c : Cart) {a : Nat} (h : 0x8000 ≤ a) (d : Byte) :
    c.cpuWrite a d = c.registerWrite a d := by
  unfold Cart.cpuWrite
  rw [if_neg (by omega), if_neg (by omega)]

/-! What an operation changes: the mapper's registers only, or one byte of one RAM. -/

theorem Cart.tap_eq (cd : Nat) (c : Cart) (a : Nat) :
    c.tap cd a = { c with mapper := (c.tap cd a).mapper } := by
  unfold Cart.tap
  split <;> rfl

theorem Cart.scanlineClock_eq (c : Cart) :
    c.scanlineClock = { c with mapper := c.scanlineClock.mapper } := by
  unfold Cart.scanlineClock
  split <;> rfl

theorem Cart.registerWrite_eq (c : Cart) (a : Nat) (d : Byte) :
    c.registerWrite a d = { c with mapper := (c.registerWrite a d).mapper } := by
  unfold Cart.registerWrite
  split <;> rfl

@[simp] theorem Cart.tap_prgRom (cd : Nat) (c : Cart) (a : Nat) :
    (c.tap cd a).prgRom = c.prgRom := by rw [Cart.tap_eq]
@[simp] theorem Cart.tap_prgLen (cd : Nat) (c : Cart) (a : Nat) :
    (c.tap cd a).prgLen = c.prgLen := by rw [Cart.tap_eq]
@[simp] theorem Cart.tap_prgRam (cd : Nat) (c : Cart) (a : Nat) :
    (c.tap cd a).prgRam = c.prgRam := by rw [Cart.tap_eq]
@[simp] theorem Cart.tap_chr (cd : Nat) (c : Cart) (a : Nat) :
    (c.tap cd a).chr = c.chr := by rw [Cart.tap_eq]
@[simp] theorem Cart.tap_chrLen (cd : Nat) (c : Cart) (a : Nat) :
    (c.tap cd a).chrLen = c.chrLen := by rw [Cart.tap_eq]
@[simp] theorem Cart.tap_chrIsRam (cd : Nat) (c : Cart) (a : Nat) :
    (c.tap cd a).chrIsRam = c.chrIsRam := by rw [Cart.tap_eq]
@[simp] theorem Cart.tap_mirroring (cd : Nat) (c : Cart) (a : Nat) :
    (c.tap cd a).mirroring = c.mirroring := by rw [Cart.tap_eq]
@[simp] theorem Cart.tap_battery (cd : Nat) (c : Cart) (a : Nat) :
    (c.tap cd a).battery = c.battery := by rw [Cart.tap_eq]

/-- What ppuWrite leaves: the tapped cartridge, and in CHR-RAM the one byte. -/
theorem Cart.ppuWrite_cases (cd : Nat) (c : Cart) (a : Nat) (d : Byte) :
    (c.chrIsRam = false ∧ c.ppuWrite cd a d = c.tap cd a)
      ∨ (c.chrIsRam = true ∧ c.ppuWrite cd a d
          = { c.tap cd a with chr := c.chr.write ((c.tap cd a).chrOffset a) d }) := by
  unfold Cart.ppuWrite
  cases h : c.chrIsRam <;> simp [h]

/-- What cpuWrite leaves (R301). -/
theorem Cart.cpuWrite_cases (c : Cart) (a : Nat) (d : Byte) :
    (a < 0x6000 ∧ c.cpuWrite a d = c)
      ∨ (0x6000 ≤ a ∧ a < 0x8000 ∧
          c.cpuWrite a d = { c with prgRam := c.prgRam.write (a - 0x6000) d })
      ∨ (0x8000 ≤ a ∧ c.cpuWrite a d = c.registerWrite a d) := by
  unfold Cart.cpuWrite
  by_cases h1 : a < 0x6000
  · simp [h1]
  · by_cases h2 : a < 0x8000
    · simp [h1, h2]; omega
    · simp [h1, h2]; omega

@[simp] theorem Cart.cpuWrite_prgRom (c : Cart) (a : Nat) (d : Byte) :
    (c.cpuWrite a d).prgRom = c.prgRom := by
  rcases c.cpuWrite_cases a d with ⟨_, h⟩ | ⟨_, _, h⟩ | ⟨_, h⟩ <;> rw [h]
  rw [Cart.registerWrite_eq]

@[simp] theorem Cart.cpuWrite_chr (c : Cart) (a : Nat) (d : Byte) :
    (c.cpuWrite a d).chr = c.chr := by
  rcases c.cpuWrite_cases a d with ⟨_, h⟩ | ⟨_, _, h⟩ | ⟨_, h⟩ <;> rw [h]
  rw [Cart.registerWrite_eq]

@[simp] theorem Cart.ppuWrite_prgRom (cd : Nat) (c : Cart) (a : Nat) (d : Byte) :
    (c.ppuWrite cd a d).prgRom = c.prgRom := by
  rcases c.ppuWrite_cases cd a d with ⟨_, h⟩ | ⟨_, h⟩ <;> simp [h]

@[simp] theorem Cart.ppuWrite_prgRam (cd : Nat) (c : Cart) (a : Nat) (d : Byte) :
    (c.ppuWrite cd a d).prgRam = c.prgRam := by
  rcases c.ppuWrite_cases cd a d with ⟨_, h⟩ | ⟨_, h⟩ <;> simp [h]

/-! The invariant. -/

/-- A change of the mapper's registers that keeps them in range keeps the cartridge's invariant. -/
theorem Cart.Inv.withMapper {c : Cart} (h : c.Inv) {m : Mapper} (hm : m.InRange c.n16) :
    Cart.Inv { c with mapper := m } :=
  { prgSome := h.prgSome, prgBanks := h.prgBanks, chrSome := h.chrSome, chrBanks := h.chrBanks,
    prgRomWf := h.prgRomWf, prgRomBelow := h.prgRomBelow, chrWf := h.chrWf, chrBelow := h.chrBelow,
    prgRamWf := h.prgRamWf, prgRamBelow := h.prgRamBelow, mapper := hm }

theorem Mmc1.write_count {r : Mmc1} (h : r.count ≤ 4) (a : Nat) (d : Byte) :
    (r.write a d).count ≤ 4 := by
  unfold Mmc1.write
  split
  · exact Nat.zero_le 4
  · split
    · dsimp only
      split <;> exact Nat.zero_le 4
    · dsimp only
      omega

@[simp] theorem Mmc3.write_lowCount (r : Mmc3) (a : Nat) (d : Byte) :
    (r.write a d).lowCount = r.lowCount := by
  unfold Mmc3.write
  dsimp only
  split <;> split <;> rfl

/-- A clock that reloads the counter (R322). -/
theorem Mmc3.clock_of_reload {r : Mmc3} (h : (r.irqReload || r.irqCounter == 0) = true) :
    r.clock = { r with irqCounter := r.irqLatch, irqReload := false,
                       irqPending := r.irqPending || (r.irqEnabled && r.irqLatch == 0) } := by
  unfold Mmc3.clock
  rw [if_pos h]
  dsimp only
  cases hq : (r.irqEnabled && r.irqLatch == 0) <;> simp

/-- A clock that counts down (R322). -/
theorem Mmc3.clock_of_count {r : Mmc3} (h : (r.irqReload || r.irqCounter == 0) = false) :
    r.clock = { r with irqCounter := r.irqCounter - 1,
                       irqPending := r.irqPending || (r.irqEnabled && r.irqCounter - 1 == 0) } := by
  unfold Mmc3.clock
  rw [h]
  simp only [Bool.false_eq_true, if_false]
  cases hq : (r.irqEnabled && r.irqCounter - 1 == 0) <;> simp

/-- Everything a clock does (R322). -/
theorem Mmc3.clock_eq (r : Mmc3) :
    r.clock = { r with
      irqCounter := if r.irqReload || r.irqCounter == 0 then r.irqLatch else r.irqCounter - 1,
      irqReload := false,
      irqPending := r.irqPending || (r.irqEnabled
        && (if r.irqReload || r.irqCounter == 0 then r.irqLatch else r.irqCounter - 1) == 0) } := by
  cases h : (r.irqReload || r.irqCounter == 0) with
  | true => rw [Mmc3.clock_of_reload h]; rfl
  | false =>
    have hr : r.irqReload = false := by
      cases hr : r.irqReload with
      | false => rfl
      | true => rw [hr] at h; cases h
    rw [Mmc3.clock_of_count h, hr]; rfl

@[simp] theorem Mmc3.clock_lowCount (r : Mmc3) : r.clock.lowCount = r.lowCount := by
  unfold Mmc3.clock
  dsimp only
  split <;> split <;> rfl

theorem Mmc3.tap_lowCount {r : Mmc3} (cd a : Nat) : (r.tap cd a).lowCount ≤ 8 := by
  have h : ∀ k, (if bitAt a 12 = 0 then min (k + 1) 8 else 0) ≤ 8 := by
    intro k; split <;> omega
  unfold Mmc3.tap
  dsimp only
  split
  · dsimp only
    rw [Mmc3.clock_lowCount]
    exact h _
  · exact h _

theorem Cart.Inv.tap {c : Cart} (h : c.Inv) (cd a : Nat) : (c.tap cd a).Inv := by
  unfold Cart.tap
  split
  · exact h
  · exact h
  · exact h
  · exact h.withMapper (Mmc3.tap_lowCount cd a)

theorem Cart.Inv.scanlineClock {c : Cart} (h : c.Inv) : c.scanlineClock.Inv := by
  unfold Cart.scanlineClock
  have hr := h.mapper
  split
  · exact h
  · exact h
  · exact h
  · rename_i r hm
    rw [hm] at hr
    exact h.withMapper (show r.clock.lowCount ≤ 8 by rw [Mmc3.clock_lowCount]; exact hr)

theorem Cart.Inv.registerWrite {c : Cart} (h : c.Inv) (a : Nat) (d : Byte) :
    (c.registerWrite a d).Inv := by
  have hr := h.mapper
  have hs := h.prgSome
  have hb := h.prgBanks
  have h16 : 0 < c.n16 := by unfold Cart.n16; omega
  unfold Cart.registerWrite
  split
  · exact h
  · exact h.withMapper (show d.toNat % c.n16 < c.n16 from Nat.mod_lt _ h16)
  · rename_i r hm
    rw [hm] at hr
    exact h.withMapper (show (r.write a d).count ≤ 4 from Mmc1.write_count hr a d)
  · rename_i r hm
    rw [hm] at hr
    exact h.withMapper (show (r.write a d).lowCount ≤ 8 by rw [Mmc3.write_lowCount]; exact hr)

theorem Cart.Inv.cpuWrite {c : Cart} (h : c.Inv) (a : Nat) (d : Byte) : (c.cpuWrite a d).Inv := by
  rcases c.cpuWrite_cases a d with ⟨_, e⟩ | ⟨h1, h2, e⟩ | ⟨_, e⟩
  · rw [e]; exact h
  · rw [e]
    exact { prgSome := h.prgSome, prgBanks := h.prgBanks, chrSome := h.chrSome,
            chrBanks := h.chrBanks, prgRomWf := h.prgRomWf, prgRomBelow := h.prgRomBelow,
            chrWf := h.chrWf, chrBelow := h.chrBelow,
            prgRamWf := Memory.wf_write _ _ h.prgRamWf,
            prgRamBelow := Memory.below_write _ h.prgRamBelow (by omega), mapper := h.mapper }
  · rw [e]; exact h.registerWrite a d

theorem Cart.Inv.ppuWrite {c : Cart} (h : c.Inv) (cd a : Nat) (d : Byte) :
    (c.ppuWrite cd a d).Inv := by
  have ht := h.tap cd a
  have hc := Cart.chrOffset_lt ht a
  rcases c.ppuWrite_cases cd a d with ⟨_, e⟩ | ⟨_, e⟩
  · rw [e]; exact ht
  · rw [e]
    exact { prgSome := ht.prgSome, prgBanks := ht.prgBanks, chrSome := ht.chrSome,
            chrBanks := ht.chrBanks, prgRomWf := ht.prgRomWf, prgRomBelow := ht.prgRomBelow,
            chrWf := Memory.wf_write _ _ h.chrWf,
            chrBelow := Memory.below_write _ (by simpa using h.chrBelow) hc,
            prgRamWf := ht.prgRamWf, prgRamBelow := ht.prgRamBelow, mapper := ht.mapper }

theorem Cart.Inv.reset {c : Cart} (h : c.Inv) : c.reset.Inv := by
  have hs := h.prgSome
  have hb := h.prgBanks
  have h16 : 0 < c.n16 := by unfold Cart.n16; omega
  unfold Cart.reset
  refine h.withMapper ?_
  cases c.mapper with
  | nrom => trivial
  | uxrom _ => exact h16
  | mmc1 _ => exact Nat.zero_le 4
  | mmc3 _ => exact Nat.zero_le 8

end Sys2Proof.Machine
end

