-- ==== Sys2Proof/Laws/Ppu.lean ====
section
/-! SUPPORT. Laws of the PPU: what a register access and an event change, and that each keeps the
invariants of the PPU and the cartridge. -/

namespace Sys2Proof.Machine

open Sys2Proof

/-! Indices are in range. -/

theorem ntIndex_lt (m : Mirroring) (a : Nat) : ntIndex m a < 0x800 := by
  have h1 : a &&& 0x3FF ≤ 0x3FF := Nat.and_le_right
  have h2 : (a >>> 10) &&& 3 ≤ 3 := Nat.and_le_right
  have h3 : ((a >>> 10) &&& 3) &&& 1 ≤ 1 := Nat.and_le_right
  have h4 : ((a >>> 10) &&& 3) >>> 1 ≤ 1 := by rw [Nat.shiftRight_eq_div_pow]; omega
  unfold ntIndex
  cases m <;> dsimp only <;> omega

theorem palIndex_lt (a : Nat) : palIndex a < 0x20 := by
  have h : a &&& 0x1F ≤ 0x1F := Nat.and_le_right
  unfold palIndex
  dsimp only
  split <;> omega

/-- No palette index is an aliased one (R66). -/
theorem palIndex_canonical (a : Nat) :
    palIndex a ≠ 0x10 ∧ palIndex a ≠ 0x14 ∧ palIndex a ≠ 0x18 ∧ palIndex a ≠ 0x1C := by
  have h : a &&& 0x1F ≤ 0x1F := Nat.and_le_right
  unfold palIndex
  dsimp only
  split <;> omega

/-! A PPU bus read changes the cartridge by the tap or not at all. -/

theorem Ppu.busRead_cart (cd : Nat) (p : Ppu) (c : Cart) (a : Nat) :
    (p.busRead cd c a).2 = c ∨ (p.busRead cd c a).2 = c.tap cd (a &&& 0x3FFF) := by
  unfold Ppu.busRead
  dsimp only
  split
  · exact .inr rfl
  · split <;> exact .inl rfl

/-- A PPU bus read keeps every property of the cartridge that the tap keeps. -/
theorem Ppu.busRead_keeps {q : Cart → Prop} (ht : ∀ cd c a, q c → q (Cart.tap cd c a)) (cd : Nat)
    (p : Ppu) {c : Cart} (a : Nat) (h : q c) : q (p.busRead cd c a).2 := by
  rcases p.busRead_cart cd c a with e | e <;> rw [e]
  · exact h
  · exact ht cd c _ h

/-! Register reads (R259): everything they can do. -/

/-- A register read changes, of the PPU, only VBlank, w, the read buffer and v. -/
theorem Ppu.regRead_ppu (cd : Nat) (p : Ppu) (c : Cart) (k : Nat) :
    (p.regRead cd c k).2.1
      = { p with vblank := (p.regRead cd c k).2.1.vblank, w := (p.regRead cd c k).2.1.w,
                 readBuffer := (p.regRead cd c k).2.1.readBuffer,
                 v := (p.regRead cd c k).2.1.v } := by
  unfold Ppu.regRead
  split
  · rfl
  · rfl
  · unfold Ppu.readData
    dsimp only
    split <;> rfl
  · rfl

/-- A register read keeps every property of the cartridge that the tap keeps. -/
theorem Ppu.regRead_keeps {q : Cart → Prop} (ht : ∀ cd c a, q c → q (Cart.tap cd c a)) (cd : Nat)
    (p : Ppu) {c : Cart} (k : Nat) (h : q c) : q (p.regRead cd c k).2.2 := by
  unfold Ppu.regRead
  split
  · exact h
  · exact h
  · unfold Ppu.readData
    dsimp only
    split
    · exact Ppu.busRead_keeps ht cd p _ h
    · exact Ppu.busRead_keeps ht cd p _ (Ppu.busRead_keeps ht cd p _ h)
  · exact h

/-! Register writes. -/

/-- A PPU bus write changes, of the PPU, only CIRAM and palette RAM. -/
theorem Ppu.busWrite_ppu (cd : Nat) (p : Ppu) (c : Cart) (a : Nat) (d : Byte) :
    (p.busWrite cd c a d).1
      = { p with ciram := (p.busWrite cd c a d).1.ciram,
                 palettes := (p.busWrite cd c a d).1.palettes } := by
  unfold Ppu.busWrite
  dsimp only
  split
  · rfl
  · split <;> rfl

/-- A register write never changes the counters, the status flags, the NMI latch, the read buffer or
the framebuffer. -/
theorem Ppu.regWrite_ppu (cd : Nat) (p : Ppu) (c : Cart) (k : Nat) (d : Byte) :
    (p.regWrite cd c k d).1
      = { (p.regWrite cd c k d).1 with
          scanline := p.scanline, cycle := p.cycle, vblank := p.vblank, sprite0 := p.sprite0,
          overflow := p.overflow, nmiOccurred := p.nmiOccurred, readBuffer := p.readBuffer,
          framebuffer := p.framebuffer } := by
  unfold Ppu.regWrite
  split
  · rfl
  · rfl
  · rfl
  · rfl
  · unfold Ppu.writeScroll
    split <;> rfl
  · unfold Ppu.writeAddr
    dsimp only
    split <;> rfl
  · unfold Ppu.writeData
    dsimp only
    rw [Ppu.busWrite_ppu]
  · rfl

/-- A register write keeps every property of the cartridge that a PPU-side write keeps. -/
theorem Ppu.regWrite_keeps {q : Cart → Prop}
    (ht : ∀ cd c a d, q c → q (Cart.ppuWrite cd c a d)) (cd : Nat)
    (p : Ppu) {c : Cart} (k : Nat) (d : Byte) (h : q c) : q (p.regWrite cd c k d).2 := by
  unfold Ppu.regWrite
  split
  · exact h
  · exact h
  · exact h
  · exact h
  · exact h
  · exact h
  · unfold Ppu.writeData Ppu.busWrite
    dsimp only
    split
    · exact ht cd c _ d h
    · split <;> exact h
  · exact h

/-! The invariant. -/

/-- The invariant depends on the counters and the memories only. -/
theorem Ppu.Inv.congr {p q : Ppu} (h : p.Inv) (e1 : q.scanline = p.scanline) (e2 : q.cycle = p.cycle)
    (e3 : q.ciram = p.ciram) (e4 : q.oam = p.oam) (e5 : q.palettes = p.palettes)
    (e6 : q.framebuffer = p.framebuffer) : q.Inv := by
  cases h
  constructor <;> simp only [e1, e2, e3, e4, e5, e6] <;> assumption

theorem Ppu.Inv.regRead {p : Ppu} (h : p.Inv) (cd : Nat) (c : Cart) (k : Nat) :
    (p.regRead cd c k).2.1.Inv := by
  rw [Ppu.regRead_ppu]
  exact h.congr rfl rfl rfl rfl rfl rfl

theorem paletteCanonical_write {m : Memory} {k : Nat} (b : Byte) (h : paletteCanonical m = true)
    (hk : k ≠ 0x10 ∧ k ≠ 0x14 ∧ k ≠ 0x18 ∧ k ≠ 0x1C) : paletteCanonical (m.write k b) = true := by
  rw [paletteCanonical, List.all_eq_true] at h ⊢
  intro c hc
  rcases Memory.mem_write hc with rfl | hc
  · simpa [and_assoc] using hk
  · exact h c hc

theorem Ppu.Inv.withCiram {p : Ppu} (h : p.Inv) {k : Nat} (hk : k < 0x800) (b : Byte) :
    Ppu.Inv { p with ciram := p.ciram.write k b } :=
  { h with ciramWf := Memory.wf_write _ _ h.ciramWf,
           ciramBelow := Memory.below_write _ h.ciramBelow hk }

theorem Ppu.Inv.withPalettes {p : Ppu} (h : p.Inv) (a : Nat) (b : Byte) :
    Ppu.Inv { p with palettes := p.palettes.write (palIndex a) b } :=
  { h with palWf := Memory.wf_write _ _ h.palWf,
           palBelow := Memory.below_write _ h.palBelow (palIndex_lt a),
           palCanonical := paletteCanonical_write _ h.palCanonical (palIndex_canonical a) }

theorem Ppu.Inv.withOam {p : Ppu} (h : p.Inv) {k : Nat} (hk : k < 0x100) (b : Byte) :
    Ppu.Inv { p with oam := p.oam.write k b } :=
  { h with oamWf := Memory.wf_write _ _ h.oamWf, oamBelow := Memory.below_write _ h.oamBelow hk }

theorem Ppu.Inv.busWrite {p : Ppu} (h : p.Inv) (cd : Nat) (c : Cart) (a : Nat) (d : Byte) :
    (p.busWrite cd c a d).1.Inv := by
  unfold Ppu.busWrite
  dsimp only
  split
  · exact h
  · split
    · exact h.withCiram (ntIndex_lt _ _) d
    · exact h.withPalettes _ d

theorem Ppu.Inv.regWrite {p : Ppu} (h : p.Inv) (cd : Nat) (c : Cart) (k : Nat) (d : Byte) :
    (p.regWrite cd c k d).1.Inv := by
  unfold Ppu.regWrite
  split
  · exact h.congr rfl rfl rfl rfl rfl rfl
  · exact h.congr rfl rfl rfl rfl rfl rfl
  · exact h.congr rfl rfl rfl rfl rfl rfl
  · exact (h.withOam (k := p.oamaddr.toNat) p.oamaddr.isLt d).congr rfl rfl rfl rfl rfl rfl
  · unfold Ppu.writeScroll
    split <;> exact h.congr rfl rfl rfl rfl rfl rfl
  · unfold Ppu.writeAddr
    dsimp only
    split <;> exact h.congr rfl rfl rfl rfl rfl rfl
  · exact (h.busWrite cd c p.v.toNat d).congr rfl rfl rfl rfl rfl rfl
  · exact h

theorem Ppu.Inv.advancePosition {p : Ppu} (h : p.Inv) : p.advancePosition.1.Inv := by
  have h1 := h.lineLow
  have h2 := h.lineHigh
  have h3 := h.cycleHigh
  have key : ∀ (sl : Int) (cy : Nat), -1 ≤ sl → sl ≤ 260 → cy ≤ 340 →
      Ppu.Inv { p with scanline := sl, cycle := cy } :=
    fun sl cy a b e => { h with lineLow := a, lineHigh := b, cycleHigh := e }
  unfold Ppu.advancePosition
  dsimp only
  apply key
  · split <;> split <;> omega
  · split <;> split <;> omega
  · simp only [decide_eq_true_eq]
    split <;> omega

/-- A rendered pixel is a colour index 0..63 (R270). -/
theorem pixelColour_lt (p : Ppu) (c : Cart) (s : List Nat) (y x : Nat) :
    (pixelColour p c s y x).toNat < 64 := by
  unfold pixelColour
  rw [BitVec.toNat_and]
  exact Nat.lt_of_le_of_lt Nat.and_le_right (by decide)

theorem Ppu.Inv.renderLine {p : Ppu} (h : p.Inv) (c : Cart) {y : Nat} (hy : y < 240) :
    (Machine.renderLine p c y).Inv := by
  have hlen : ((List.range 256).map
      (fun x => pixelColour p c (p.spritesOnLine y) y x)).length = 256 := by simp
  have hcol : ∀ b ∈ (List.range 256).map
      (fun x => pixelColour p c (p.spritesOnLine y) y x), b.toNat < 64 := by
    intro b hb
    obtain ⟨x, _, rfl⟩ := List.mem_map.mp hb
    exact pixelColour_lt _ _ _ _ _
  unfold Machine.renderLine
  dsimp only
  exact { h with
    frameWf := Memory.wf_writeRow _ _ h.frameWf
    frameBelow := by
      rw [Memory.below_iff]
      intro d hd
      rcases Memory.mem_writeRow hd with hd | ⟨hd, _⟩
      · exact Memory.below_iff.mp h.frameBelow d hd
      · rw [hlen] at hd
        omega
    frameColours := by
      rw [framebufferColours, List.all_eq_true]
      intro d hd
      rcases Memory.mem_writeRow hd with hd | ⟨_, hd⟩
      · exact List.all_eq_true.mp h.frameColours d hd
      · simpa using hcol d.2 hd }

theorem Ppu.Inv.lineStart {p : Ppu} (h : p.Inv) (c : Cart) {y : Nat} (hy : y < 240) :
    (p.lineStart c y).Inv := by
  have hc : p.copyHorizontal.Inv := h.congr rfl rfl rfl rfl rfl rfl
  unfold Ppu.lineStart
  split
  · exact (hc.renderLine c hy).congr rfl rfl rfl rfl rfl rfl
  · exact h.renderLine c hy

/-- An event keeps the PPU's invariant. -/
theorem Ppu.Inv.event {p : Ppu} (h : p.Inv) (c : Cart) : (ppuEvent p c).1.Inv := by
  unfold ppuEvent
  split
  · split
    · dsimp only
      split
      · exact h.congr rfl rfl rfl rfl rfl rfl
      · exact h
    · split
      · exact h.congr rfl rfl rfl rfl rfl rfl
      · exact h
  · split
    · rename_i hr
      split
      · exact h.lineStart c (by omega)
      · split <;> exact h
    · split
      · exact h.congr rfl rfl rfl rfl rfl rfl
      · exact h

/-- Everything an event does to the PPU: VBlank's start, the pre-render clear, a line's start, and
otherwise at most a change of v; it never moves the counters (R263 to R267). -/
theorem ppuEvent_ppu (p : Ppu) (c : Cart) :
    ((ppuEvent p c).1.scanline = p.scanline ∧ (ppuEvent p c).1.cycle = p.cycle)
      ∧ (p.scanline = 241 → p.cycle = 1 → (ppuEvent p c).1 = p.vblankStart)
      ∧ (p.scanline = -1 → p.cycle = 1 → (ppuEvent p c).1 = p.preRenderClear)
      ∧ (0 ≤ p.scanline → p.scanline ≤ 239 → p.cycle = 0 →
          (ppuEvent p c).1 = p.lineStart c p.scanline.toNat)
      ∧ (¬(p.scanline = 241 ∧ p.cycle = 1) → ¬(p.scanline = -1 ∧ p.cycle = 1) →
          ¬(0 ≤ p.scanline ∧ p.scanline ≤ 239 ∧ p.cycle = 0) →
          ∃ v, (ppuEvent p c).1 = { p with v := v }) := by
  unfold ppuEvent
  refine ⟨?_, ?_, ?_, ?_, ?_⟩
  · split
    · split
      · dsimp only; split <;> exact ⟨rfl, rfl⟩
      · split <;> exact ⟨rfl, rfl⟩
    · split
      · split
        · unfold Ppu.lineStart; split <;> exact ⟨rfl, rfl⟩
        · split <;> exact ⟨rfl, rfl⟩
      · split <;> exact ⟨rfl, rfl⟩
  · intro h1 h2; rw [if_neg (by omega), if_neg (by omega), if_pos ⟨h1, h2⟩]
  · intro h1 h2; rw [if_pos h1, if_neg (by omega), if_pos h2]
  · intro h1 h2 h3; rw [if_neg (by omega), if_pos ⟨h1, h2⟩, if_pos h3]
  · intro h1 h2 h3
    split
    · split
      · dsimp only; split <;> exact ⟨_, rfl⟩
      · rw [if_neg (by omega)]; exact ⟨_, rfl⟩
    · split
      · rw [if_neg (by omega)]; split <;> exact ⟨_, rfl⟩
      · exact ⟨_, rfl⟩

/-- What an event does to v: the vertical copy at (-1, 0), and at a visible line's start the horizontal
copy and IncY, all three only with the background shown (R263, R266, R267). -/
theorem ppuEvent_v (p : Ppu) (c : Cart) :
    (ppuEvent p c).1.v
      = if p.showBg then
          (if p.scanline = -1 ∧ p.cycle = 0 then p.copyVertical.v
           else if 0 ≤ p.scanline ∧ p.scanline ≤ 239 ∧ p.cycle = 0 then incY p.copyHorizontal.v
           else p.v)
        else p.v := by
  unfold ppuEvent Ppu.lineStart
  cases p.showBg <;> (repeat' split) <;> first | rfl | (exfalso; omega)

/-- What an event does to the cartridge: one scanline clock at cycle 260 of a visible line with the
background shown (R279). -/
theorem ppuEvent_cart (p : Ppu) (c : Cart) :
    (ppuEvent p c).2
      = if 0 ≤ p.scanline ∧ p.scanline ≤ 239 ∧ p.cycle = 260 ∧ p.showBg = true
        then c.scanlineClock else c := by
  unfold ppuEvent
  cases p.showBg <;> (repeat' split) <;> first | rfl | (exfalso; omega) | simp_all

/-- An event changes, of the PPU, only v, the flags, the NMI latch and the framebuffer. -/
theorem ppuEvent_frame (p : Ppu) (c : Cart) :
    (ppuEvent p c).1 = { p with
      v := (ppuEvent p c).1.v, vblank := (ppuEvent p c).1.vblank,
      sprite0 := (ppuEvent p c).1.sprite0, overflow := (ppuEvent p c).1.overflow,
      nmiOccurred := (ppuEvent p c).1.nmiOccurred,
      framebuffer := (ppuEvent p c).1.framebuffer } := by
  unfold ppuEvent Ppu.lineStart
  (repeat' split) <;> rfl

/-- An event keeps every property of the cartridge that a scanline clock keeps. -/
theorem ppuEvent_keeps {q : Cart → Prop} (hs : ∀ c, q c → q (Cart.scanlineClock c)) (p : Ppu)
    {c : Cart} (h : q c) : q (ppuEvent p c).2 := by
  unfold ppuEvent
  split
  · split
    · exact h
    · split <;> exact h
  · split
    · split
      · exact h
      · split
        · dsimp only
          split
          · exact hs c h
          · exact h
        · exact h
    · split <;> exact h

theorem Ppu.Inv.reset {p : Ppu} (h : p.Inv) : p.reset.Inv :=
  { h with lineLow := show (-1 : Int) ≤ -1 by decide, lineHigh := show (-1 : Int) ≤ 260 by decide,
           cycleHigh := show 0 ≤ 340 by decide }

end Sys2Proof.Machine
end

