-- ==== Sys2Proof/Laws/State.lean ====
section
/-! SUPPORT. One lemma per field per register write, true by rfl. -/

namespace Sys2Proof.Machine

open Sys2Proof

/-! setA -/

@[simp] theorem State.setA_a (s : State) (v : Byte) : (s.setA v).cpu.a = v := rfl
@[simp] theorem State.setA_x (s : State) (v : Byte) : (s.setA v).cpu.x = s.cpu.x := rfl
@[simp] theorem State.setA_y (s : State) (v : Byte) : (s.setA v).cpu.y = s.cpu.y := rfl
@[simp] theorem State.setA_sp (s : State) (v : Byte) : (s.setA v).cpu.sp = s.cpu.sp := rfl
@[simp] theorem State.setA_pc (s : State) (v : Byte) : (s.setA v).cpu.pc = s.cpu.pc := rfl
@[simp] theorem State.setA_p (s : State) (v : Byte) : (s.setA v).cpu.p = s.cpu.p := rfl
@[simp] theorem State.setA_halted (s : State) (v : Byte) : (s.setA v).cpu.halted = s.cpu.halted := rfl
@[simp] theorem State.setA_extraCycles (s : State) (v : Byte) : (s.setA v).cpu.extraCycles = s.cpu.extraCycles := rfl
@[simp] theorem State.setA_ram (s : State) (v : Byte) : (s.setA v).ram = s.ram := rfl
@[simp] theorem State.setA_ppu (s : State) (v : Byte) : (s.setA v).ppu = s.ppu := rfl
@[simp] theorem State.setA_cart (s : State) (v : Byte) : (s.setA v).cart = s.cart := rfl
@[simp] theorem State.setA_pads (s : State) (v : Byte) : (s.setA v).pads = s.pads := rfl
@[simp] theorem State.setA_driver (s : State) (v : Byte) : (s.setA v).driver = s.driver := rfl
@[simp] theorem State.setA_params (s : State) (v : Byte) : (s.setA v).params = s.params := rfl

/-! setX -/

@[simp] theorem State.setX_a (s : State) (v : Byte) : (s.setX v).cpu.a = s.cpu.a := rfl
@[simp] theorem State.setX_x (s : State) (v : Byte) : (s.setX v).cpu.x = v := rfl
@[simp] theorem State.setX_y (s : State) (v : Byte) : (s.setX v).cpu.y = s.cpu.y := rfl
@[simp] theorem State.setX_sp (s : State) (v : Byte) : (s.setX v).cpu.sp = s.cpu.sp := rfl
@[simp] theorem State.setX_pc (s : State) (v : Byte) : (s.setX v).cpu.pc = s.cpu.pc := rfl
@[simp] theorem State.setX_p (s : State) (v : Byte) : (s.setX v).cpu.p = s.cpu.p := rfl
@[simp] theorem State.setX_halted (s : State) (v : Byte) : (s.setX v).cpu.halted = s.cpu.halted := rfl
@[simp] theorem State.setX_extraCycles (s : State) (v : Byte) : (s.setX v).cpu.extraCycles = s.cpu.extraCycles := rfl
@[simp] theorem State.setX_ram (s : State) (v : Byte) : (s.setX v).ram = s.ram := rfl
@[simp] theorem State.setX_ppu (s : State) (v : Byte) : (s.setX v).ppu = s.ppu := rfl
@[simp] theorem State.setX_cart (s : State) (v : Byte) : (s.setX v).cart = s.cart := rfl
@[simp] theorem State.setX_pads (s : State) (v : Byte) : (s.setX v).pads = s.pads := rfl
@[simp] theorem State.setX_driver (s : State) (v : Byte) : (s.setX v).driver = s.driver := rfl
@[simp] theorem State.setX_params (s : State) (v : Byte) : (s.setX v).params = s.params := rfl

/-! setY -/

@[simp] theorem State.setY_a (s : State) (v : Byte) : (s.setY v).cpu.a = s.cpu.a := rfl
@[simp] theorem State.setY_x (s : State) (v : Byte) : (s.setY v).cpu.x = s.cpu.x := rfl
@[simp] theorem State.setY_y (s : State) (v : Byte) : (s.setY v).cpu.y = v := rfl
@[simp] theorem State.setY_sp (s : State) (v : Byte) : (s.setY v).cpu.sp = s.cpu.sp := rfl
@[simp] theorem State.setY_pc (s : State) (v : Byte) : (s.setY v).cpu.pc = s.cpu.pc := rfl
@[simp] theorem State.setY_p (s : State) (v : Byte) : (s.setY v).cpu.p = s.cpu.p := rfl
@[simp] theorem State.setY_halted (s : State) (v : Byte) : (s.setY v).cpu.halted = s.cpu.halted := rfl
@[simp] theorem State.setY_extraCycles (s : State) (v : Byte) : (s.setY v).cpu.extraCycles = s.cpu.extraCycles := rfl
@[simp] theorem State.setY_ram (s : State) (v : Byte) : (s.setY v).ram = s.ram := rfl
@[simp] theorem State.setY_ppu (s : State) (v : Byte) : (s.setY v).ppu = s.ppu := rfl
@[simp] theorem State.setY_cart (s : State) (v : Byte) : (s.setY v).cart = s.cart := rfl
@[simp] theorem State.setY_pads (s : State) (v : Byte) : (s.setY v).pads = s.pads := rfl
@[simp] theorem State.setY_driver (s : State) (v : Byte) : (s.setY v).driver = s.driver := rfl
@[simp] theorem State.setY_params (s : State) (v : Byte) : (s.setY v).params = s.params := rfl

/-! setSp -/

@[simp] theorem State.setSp_a (s : State) (v : Byte) : (s.setSp v).cpu.a = s.cpu.a := rfl
@[simp] theorem State.setSp_x (s : State) (v : Byte) : (s.setSp v).cpu.x = s.cpu.x := rfl
@[simp] theorem State.setSp_y (s : State) (v : Byte) : (s.setSp v).cpu.y = s.cpu.y := rfl
@[simp] theorem State.setSp_sp (s : State) (v : Byte) : (s.setSp v).cpu.sp = v := rfl
@[simp] theorem State.setSp_pc (s : State) (v : Byte) : (s.setSp v).cpu.pc = s.cpu.pc := rfl
@[simp] theorem State.setSp_p (s : State) (v : Byte) : (s.setSp v).cpu.p = s.cpu.p := rfl
@[simp] theorem State.setSp_halted (s : State) (v : Byte) : (s.setSp v).cpu.halted = s.cpu.halted := rfl
@[simp] theorem State.setSp_extraCycles (s : State) (v : Byte) : (s.setSp v).cpu.extraCycles = s.cpu.extraCycles := rfl
@[simp] theorem State.setSp_ram (s : State) (v : Byte) : (s.setSp v).ram = s.ram := rfl
@[simp] theorem State.setSp_ppu (s : State) (v : Byte) : (s.setSp v).ppu = s.ppu := rfl
@[simp] theorem State.setSp_cart (s : State) (v : Byte) : (s.setSp v).cart = s.cart := rfl
@[simp] theorem State.setSp_pads (s : State) (v : Byte) : (s.setSp v).pads = s.pads := rfl
@[simp] theorem State.setSp_driver (s : State) (v : Byte) : (s.setSp v).driver = s.driver := rfl
@[simp] theorem State.setSp_params (s : State) (v : Byte) : (s.setSp v).params = s.params := rfl

/-! setPc -/

@[simp] theorem State.setPc_a (s : State) (v : Word) : (s.setPc v).cpu.a = s.cpu.a := rfl
@[simp] theorem State.setPc_x (s : State) (v : Word) : (s.setPc v).cpu.x = s.cpu.x := rfl
@[simp] theorem State.setPc_y (s : State) (v : Word) : (s.setPc v).cpu.y = s.cpu.y := rfl
@[simp] theorem State.setPc_sp (s : State) (v : Word) : (s.setPc v).cpu.sp = s.cpu.sp := rfl
@[simp] theorem State.setPc_pc (s : State) (v : Word) : (s.setPc v).cpu.pc = v := rfl
@[simp] theorem State.setPc_p (s : State) (v : Word) : (s.setPc v).cpu.p = s.cpu.p := rfl
@[simp] theorem State.setPc_halted (s : State) (v : Word) : (s.setPc v).cpu.halted = s.cpu.halted := rfl
@[simp] theorem State.setPc_extraCycles (s : State) (v : Word) : (s.setPc v).cpu.extraCycles = s.cpu.extraCycles := rfl
@[simp] theorem State.setPc_ram (s : State) (v : Word) : (s.setPc v).ram = s.ram := rfl
@[simp] theorem State.setPc_ppu (s : State) (v : Word) : (s.setPc v).ppu = s.ppu := rfl
@[simp] theorem State.setPc_cart (s : State) (v : Word) : (s.setPc v).cart = s.cart := rfl
@[simp] theorem State.setPc_pads (s : State) (v : Word) : (s.setPc v).pads = s.pads := rfl
@[simp] theorem State.setPc_driver (s : State) (v : Word) : (s.setPc v).driver = s.driver := rfl
@[simp] theorem State.setPc_params (s : State) (v : Word) : (s.setPc v).params = s.params := rfl

/-! setP -/

@[simp] theorem State.setP_a (s : State) (v : Byte) : (s.setP v).cpu.a = s.cpu.a := rfl
@[simp] theorem State.setP_x (s : State) (v : Byte) : (s.setP v).cpu.x = s.cpu.x := rfl
@[simp] theorem State.setP_y (s : State) (v : Byte) : (s.setP v).cpu.y = s.cpu.y := rfl
@[simp] theorem State.setP_sp (s : State) (v : Byte) : (s.setP v).cpu.sp = s.cpu.sp := rfl
@[simp] theorem State.setP_pc (s : State) (v : Byte) : (s.setP v).cpu.pc = s.cpu.pc := rfl
@[simp] theorem State.setP_p (s : State) (v : Byte) : (s.setP v).cpu.p = normP v := rfl
@[simp] theorem State.setP_halted (s : State) (v : Byte) : (s.setP v).cpu.halted = s.cpu.halted := rfl
@[simp] theorem State.setP_extraCycles (s : State) (v : Byte) : (s.setP v).cpu.extraCycles = s.cpu.extraCycles := rfl
@[simp] theorem State.setP_ram (s : State) (v : Byte) : (s.setP v).ram = s.ram := rfl
@[simp] theorem State.setP_ppu (s : State) (v : Byte) : (s.setP v).ppu = s.ppu := rfl
@[simp] theorem State.setP_cart (s : State) (v : Byte) : (s.setP v).cart = s.cart := rfl
@[simp] theorem State.setP_pads (s : State) (v : Byte) : (s.setP v).pads = s.pads := rfl
@[simp] theorem State.setP_driver (s : State) (v : Byte) : (s.setP v).driver = s.driver := rfl
@[simp] theorem State.setP_params (s : State) (v : Byte) : (s.setP v).params = s.params := rfl

/-! setFlag -/

@[simp] theorem State.setFlag_a (s : State) (f : Flag) (b : Bool) : (s.setFlag f b).cpu.a = s.cpu.a := rfl
@[simp] theorem State.setFlag_x (s : State) (f : Flag) (b : Bool) : (s.setFlag f b).cpu.x = s.cpu.x := rfl
@[simp] theorem State.setFlag_y (s : State) (f : Flag) (b : Bool) : (s.setFlag f b).cpu.y = s.cpu.y := rfl
@[simp] theorem State.setFlag_sp (s : State) (f : Flag) (b : Bool) : (s.setFlag f b).cpu.sp = s.cpu.sp := rfl
@[simp] theorem State.setFlag_pc (s : State) (f : Flag) (b : Bool) : (s.setFlag f b).cpu.pc = s.cpu.pc := rfl
@[simp] theorem State.setFlag_p (s : State) (f : Flag) (b : Bool) : (s.setFlag f b).cpu.p = normP (Machine.setFlag s.cpu.p f b) := rfl
@[simp] theorem State.setFlag_halted (s : State) (f : Flag) (b : Bool) : (s.setFlag f b).cpu.halted = s.cpu.halted := rfl
@[simp] theorem State.setFlag_extraCycles (s : State) (f : Flag) (b : Bool) : (s.setFlag f b).cpu.extraCycles = s.cpu.extraCycles := rfl
@[simp] theorem State.setFlag_ram (s : State) (f : Flag) (b : Bool) : (s.setFlag f b).ram = s.ram := rfl
@[simp] theorem State.setFlag_ppu (s : State) (f : Flag) (b : Bool) : (s.setFlag f b).ppu = s.ppu := rfl
@[simp] theorem State.setFlag_cart (s : State) (f : Flag) (b : Bool) : (s.setFlag f b).cart = s.cart := rfl
@[simp] theorem State.setFlag_pads (s : State) (f : Flag) (b : Bool) : (s.setFlag f b).pads = s.pads := rfl
@[simp] theorem State.setFlag_driver (s : State) (f : Flag) (b : Bool) : (s.setFlag f b).driver = s.driver := rfl
@[simp] theorem State.setFlag_params (s : State) (f : Flag) (b : Bool) : (s.setFlag f b).params = s.params := rfl

/-! updateZN -/

@[simp] theorem State.updateZN_a (s : State) (r : Byte) : (s.updateZN r).cpu.a = s.cpu.a := rfl
@[simp] theorem State.updateZN_x (s : State) (r : Byte) : (s.updateZN r).cpu.x = s.cpu.x := rfl
@[simp] theorem State.updateZN_y (s : State) (r : Byte) : (s.updateZN r).cpu.y = s.cpu.y := rfl
@[simp] theorem State.updateZN_sp (s : State) (r : Byte) : (s.updateZN r).cpu.sp = s.cpu.sp := rfl
@[simp] theorem State.updateZN_pc (s : State) (r : Byte) : (s.updateZN r).cpu.pc = s.cpu.pc := rfl
@[simp] theorem State.updateZN_p (s : State) (r : Byte) : (s.updateZN r).cpu.p = normP (setZN s.cpu.p r) := rfl
@[simp] theorem State.updateZN_halted (s : State) (r : Byte) : (s.updateZN r).cpu.halted = s.cpu.halted := rfl
@[simp] theorem State.updateZN_extraCycles (s : State) (r : Byte) : (s.updateZN r).cpu.extraCycles = s.cpu.extraCycles := rfl
@[simp] theorem State.updateZN_ram (s : State) (r : Byte) : (s.updateZN r).ram = s.ram := rfl
@[simp] theorem State.updateZN_ppu (s : State) (r : Byte) : (s.updateZN r).ppu = s.ppu := rfl
@[simp] theorem State.updateZN_cart (s : State) (r : Byte) : (s.updateZN r).cart = s.cart := rfl
@[simp] theorem State.updateZN_pads (s : State) (r : Byte) : (s.updateZN r).pads = s.pads := rfl
@[simp] theorem State.updateZN_driver (s : State) (r : Byte) : (s.updateZN r).driver = s.driver := rfl
@[simp] theorem State.updateZN_params (s : State) (r : Byte) : (s.updateZN r).params = s.params := rfl

/-! addCycles -/

@[simp] theorem State.addCycles_a (s : State) (n : Nat) : (s.addCycles n).cpu.a = s.cpu.a := rfl
@[simp] theorem State.addCycles_x (s : State) (n : Nat) : (s.addCycles n).cpu.x = s.cpu.x := rfl
@[simp] theorem State.addCycles_y (s : State) (n : Nat) : (s.addCycles n).cpu.y = s.cpu.y := rfl
@[simp] theorem State.addCycles_sp (s : State) (n : Nat) : (s.addCycles n).cpu.sp = s.cpu.sp := rfl
@[simp] theorem State.addCycles_pc (s : State) (n : Nat) : (s.addCycles n).cpu.pc = s.cpu.pc := rfl
@[simp] theorem State.addCycles_p (s : State) (n : Nat) : (s.addCycles n).cpu.p = s.cpu.p := rfl
@[simp] theorem State.addCycles_halted (s : State) (n : Nat) : (s.addCycles n).cpu.halted = s.cpu.halted := rfl
@[simp] theorem State.addCycles_extraCycles (s : State) (n : Nat) : (s.addCycles n).cpu.extraCycles = s.cpu.extraCycles + n := rfl
@[simp] theorem State.addCycles_ram (s : State) (n : Nat) : (s.addCycles n).ram = s.ram := rfl
@[simp] theorem State.addCycles_ppu (s : State) (n : Nat) : (s.addCycles n).ppu = s.ppu := rfl
@[simp] theorem State.addCycles_cart (s : State) (n : Nat) : (s.addCycles n).cart = s.cart := rfl
@[simp] theorem State.addCycles_pads (s : State) (n : Nat) : (s.addCycles n).pads = s.pads := rfl
@[simp] theorem State.addCycles_driver (s : State) (n : Nat) : (s.addCycles n).driver = s.driver := rfl
@[simp] theorem State.addCycles_params (s : State) (n : Nat) : (s.addCycles n).params = s.params := rfl

/-! halt -/

@[simp] theorem State.halt_a (s : State) (op : Byte) (addr : Word) : (s.halt op addr).cpu.a = s.cpu.a := rfl
@[simp] theorem State.halt_x (s : State) (op : Byte) (addr : Word) : (s.halt op addr).cpu.x = s.cpu.x := rfl
@[simp] theorem State.halt_y (s : State) (op : Byte) (addr : Word) : (s.halt op addr).cpu.y = s.cpu.y := rfl
@[simp] theorem State.halt_sp (s : State) (op : Byte) (addr : Word) : (s.halt op addr).cpu.sp = s.cpu.sp := rfl
@[simp] theorem State.halt_pc (s : State) (op : Byte) (addr : Word) : (s.halt op addr).cpu.pc = addr := rfl
@[simp] theorem State.halt_p (s : State) (op : Byte) (addr : Word) : (s.halt op addr).cpu.p = s.cpu.p := rfl
@[simp] theorem State.halt_halted (s : State) (op : Byte) (addr : Word) : (s.halt op addr).cpu.halted = some (op, addr) := rfl
@[simp] theorem State.halt_extraCycles (s : State) (op : Byte) (addr : Word) : (s.halt op addr).cpu.extraCycles = s.cpu.extraCycles := rfl
@[simp] theorem State.halt_ram (s : State) (op : Byte) (addr : Word) : (s.halt op addr).ram = s.ram := rfl
@[simp] theorem State.halt_ppu (s : State) (op : Byte) (addr : Word) : (s.halt op addr).ppu = s.ppu := rfl
@[simp] theorem State.halt_cart (s : State) (op : Byte) (addr : Word) : (s.halt op addr).cart = s.cart := rfl
@[simp] theorem State.halt_pads (s : State) (op : Byte) (addr : Word) : (s.halt op addr).pads = s.pads := rfl
@[simp] theorem State.halt_driver (s : State) (op : Byte) (addr : Word) : (s.halt op addr).driver = s.driver := rfl
@[simp] theorem State.halt_params (s : State) (op : Byte) (addr : Word) : (s.halt op addr).params = s.params := rfl

end Sys2Proof.Machine
end

