-- ==== Sys2Proof/Laws/Bus.lean ====
section
/-! SUPPORT. Laws of the CPU bus, the stack, and taking and leaving an interrupt: for each operation,
what it answers on plain memory and everything it can change. -/

namespace Sys2Proof.Machine

open Sys2Proof

/-! Words and bytes. -/

@[simp] theorem hiByte_word16 (h l : Byte) : hiByte (word16 h l) = h := by
  apply BitVec.eq_of_getLsbD_eq
  intro i hi
  simp only [hiByte, word16, BitVec.getLsbD_extractLsb', BitVec.getLsbD_append]
  simp [hi]

@[simp] theorem loByte_word16 (h l : Byte) : loByte (word16 h l) = l := by
  apply BitVec.eq_of_getLsbD_eq
  intro i hi
  simp only [loByte, word16, BitVec.getLsbD_extractLsb', BitVec.getLsbD_append]
  simp [hi]

@[simp] theorem word16_hi_lo (w : Word) : word16 (hiByte w) (loByte w) = w := by
  apply BitVec.eq_of_getLsbD_eq
  intro i hi
  simp only [hiByte, loByte, word16, BitVec.getLsbD_extractLsb', BitVec.getLsbD_append]
  by_cases h : i < 8
  · simp [h]
  · simp [h, show i - 8 < 8 by omega, show 8 + (i - 8) = i by omega]

theorem word16_toNat (h l : Byte) : (word16 h l).toNat = h.toNat * 256 + l.toNat := by
  have hl := l.isLt
  rw [word16, BitVec.toNat_append, ← Nat.shiftLeft_add_eq_or_of_lt hl, Nat.shiftLeft_eq]

theorem stackAddr_toNat (sp : Byte) : (stackAddr sp).toNat = 256 + sp.toNat := by
  rw [stackAddr, word16_toNat]; rfl

theorem stackAddr_mod (sp : Byte) : (stackAddr sp).toNat % 0x800 = 256 + sp.toNat := by
  have := sp.isLt
  rw [stackAddr_toNat]; omega

theorem zext16_toNat (b : Byte) : (zext16 b).toNat = b.toNat := by
  have := b.isLt
  simp only [zext16, BitVec.toNat_setWidth]; omega

/-! Reads. -/

/-- RAM and its mirrors (R52): the byte, and no side effect. -/
theorem busRead_ram_area (s : State) {a : Word} (h : a.toNat < 0x2000) :
    s.busRead a = (s.ram.read (a.toNat % 0x800), s) := by
  unfold State.busRead
  simp only [show a.toNat ≤ 0x1FFF by omega, if_true]

/-- Cartridge space (R55): the mapper's byte, and no side effect. -/
theorem busRead_cart_area (s : State) {a : Word} (h : 0x4020 ≤ a.toNat) :
    s.busRead a = (s.cart.cpuRead a.toNat, s) := by
  unfold State.busRead
  simp only [show ¬ a.toNat ≤ 0x1FFF by omega, show ¬ a.toNat ≤ 0x3FFF by omega,
    show a.toNat ≠ 0x4016 by omega, show a.toNat ≠ 0x4017 by omega,
    show ¬ a.toNat ≤ 0x401F by omega, if_false]

@[simp] theorem busRead_cpu (s : State) (a : Word) : (s.busRead a).2.cpu = s.cpu := by
  unfold State.busRead; dsimp only; repeat' split
  all_goals rfl

@[simp] theorem busRead_ram (s : State) (a : Word) : (s.busRead a).2.ram = s.ram := by
  unfold State.busRead; dsimp only; repeat' split
  all_goals rfl

@[simp] theorem busRead_driver (s : State) (a : Word) : (s.busRead a).2.driver = s.driver := by
  unfold State.busRead; dsimp only; repeat' split
  all_goals rfl

@[simp] theorem busRead_params (s : State) (a : Word) : (s.busRead a).2.params = s.params := by
  unfold State.busRead; dsimp only; repeat' split
  all_goals rfl

/-- A bus read changes, of the PPU, only VBlank, w, the read buffer and v. -/
theorem busRead_ppu (s : State) (a : Word) :
    (s.busRead a).2.ppu
      = { s.ppu with vblank := (s.busRead a).2.ppu.vblank, w := (s.busRead a).2.ppu.w,
                     readBuffer := (s.busRead a).2.ppu.readBuffer,
                     v := (s.busRead a).2.ppu.v } := by
  unfold State.busRead; dsimp only; repeat' split
  · rfl
  · exact Ppu.regRead_ppu _ _ _ _
  · rfl
  · rfl
  · rfl
  · rfl

/-- A bus read keeps every property of the cartridge that the A12 tap keeps. -/
theorem busRead_keeps {q : Cart → Prop} (ht : ∀ cd c a, q c → q (Cart.tap cd c a)) (s : State)
    (a : Word) (h : q s.cart) : q (s.busRead a).2.cart := by
  unfold State.busRead; dsimp only; repeat' split
  · exact h
  · exact Ppu.regRead_keeps ht _ _ _ h
  · exact h
  · exact h
  · exact h
  · exact h

theorem busRead_inv {s : State} (h : s.Inv) (a : Word) : (s.busRead a).2.Inv where
  cpu := by rw [busRead_cpu]; exact h.cpu
  ramWf := by rw [busRead_ram]; exact h.ramWf
  ramBelow := by rw [busRead_ram]; exact h.ramBelow
  ppu := by rw [busRead_ppu]; exact h.ppu.congr rfl rfl rfl rfl rfl rfl
  cart := busRead_keeps (fun cd _ a h => h.tap cd a) s a h.cart
  fatal := by rw [busRead_driver, busRead_cpu]; exact h.fatal

/-- A controller read shifts a register and leaves the live buttons (R333). -/
theorem Pads.read_buttons (p : Pads) (pad : Pad) :
    (p.read pad).2.buttons1 = p.buttons1 ∧ (p.read pad).2.buttons2 = p.buttons2 := by
  cases pad <;> unfold Pads.read <;> dsimp only <;> split <;> exact ⟨rfl, rfl⟩

/-- A strobe write leaves the live buttons (R332). -/
theorem Pads.strobeWrite_buttons (p : Pads) (d : Byte) :
    (p.strobeWrite d).buttons1 = p.buttons1 ∧ (p.strobeWrite d).buttons2 = p.buttons2 := by
  unfold Pads.strobeWrite
  dsimp only
  split <;> exact ⟨rfl, rfl⟩

@[simp] theorem busRead_buttons1 (s : State) (a : Word) :
    (s.busRead a).2.pads.buttons1 = s.pads.buttons1 := by
  unfold State.busRead; dsimp only; repeat' split
  all_goals first
    | rfl
    | exact (Pads.read_buttons _ _).1

@[simp] theorem busRead_buttons2 (s : State) (a : Word) :
    (s.busRead a).2.pads.buttons2 = s.pads.buttons2 := by
  unfold State.busRead; dsimp only; repeat' split
  all_goals first
    | rfl
    | exact (Pads.read_buttons _ _).2

/-! OAM DMA. -/

/-- What holds of the bytes OAM DMA copies through: it changes, beside OAM, only what bus reads
change, and charges its cycles at the end (R57). -/
structure DmaFrame (s t : State) : Prop where
  cpu    : t.cpu = s.cpu
  ram    : t.ram = s.ram
  driver : t.driver = s.driver
  params : t.params = s.params
  b1     : t.pads.buttons1 = s.pads.buttons1
  b2     : t.pads.buttons2 = s.pads.buttons2
  ppu    : t.ppu = { s.ppu with vblank := t.ppu.vblank, w := t.ppu.w,
                                readBuffer := t.ppu.readBuffer, v := t.ppu.v, oam := t.ppu.oam }

theorem DmaFrame.refl (s : State) : DmaFrame s s := ⟨rfl, rfl, rfl, rfl, rfl, rfl, rfl⟩

theorem DmaFrame.trans {s t u : State} (a : DmaFrame s t) (b : DmaFrame t u) : DmaFrame s u where
  cpu := b.cpu.trans a.cpu
  ram := b.ram.trans a.ram
  driver := b.driver.trans a.driver
  params := b.params.trans a.params
  b1 := b.b1.trans a.b1
  b2 := b.b2.trans a.b2
  ppu := by rw [b.ppu, a.ppu]

theorem oamDmaByte_frame (page : Byte) (s : State) (i : Nat) :
    DmaFrame s (State.oamDmaByte page s i) where
  cpu := by unfold State.oamDmaByte; simp
  ram := by unfold State.oamDmaByte; simp
  driver := by unfold State.oamDmaByte; simp
  params := by unfold State.oamDmaByte; simp
  b1 := by unfold State.oamDmaByte; simp
  b2 := by unfold State.oamDmaByte; simp
  ppu := by
    unfold State.oamDmaByte
    dsimp only
    rw [busRead_ppu]

theorem foldl_oamDma_frame (page : Byte) (l : List Nat) (s : State) :
    DmaFrame s (l.foldl (State.oamDmaByte page) s) := by
  induction l generalizing s with
  | nil => exact DmaFrame.refl s
  | cons i l ih => exact (oamDmaByte_frame page s i).trans (ih _)

theorem oamDmaByte_keeps {q : Cart → Prop} (ht : ∀ cd c a, q c → q (Cart.tap cd c a))
    (page : Byte) (s : State) (i : Nat) (h : q s.cart) :
    q (State.oamDmaByte page s i).cart := busRead_keeps ht s _ h

theorem foldl_oamDma_keeps {q : Cart → Prop} (ht : ∀ cd c a, q c → q (Cart.tap cd c a))
    (page : Byte) (l : List Nat) (s : State) (h : q s.cart) :
    q (l.foldl (State.oamDmaByte page) s).cart := by
  induction l generalizing s with
  | nil => exact h
  | cons i l ih => exact ih _ (oamDmaByte_keeps ht page s i h)

theorem oamDmaByte_inv (page : Byte) {s : State} (h : s.Inv) (i : Nat) :
    (State.oamDmaByte page s i).Inv :=
  let b := busRead_inv h (word16 page (BitVec.ofNat 8 i))
  { cpu := b.cpu, ramWf := b.ramWf, ramBelow := b.ramBelow,
    ppu := b.ppu.withOam (Nat.mod_lt _ (by decide)) _, cart := b.cart, fatal := b.fatal }

theorem foldl_oamDma_inv (page : Byte) (l : List Nat) {s : State} (h : s.Inv) :
    (l.foldl (State.oamDmaByte page) s).Inv := by
  induction l generalizing s with
  | nil => exact h
  | cons i l ih => exact ih (oamDmaByte_inv page h i)

/-- OAM DMA charges DMA_CYCLES and leaves the CPU's registers (R57, R58). -/
theorem oamDma_cpu (s : State) (page : Byte) :
    (s.oamDma page).cpu
      = { s.cpu with extraCycles := s.cpu.extraCycles + dmaCycles s.params.dmaCost } := by
  have h := (foldl_oamDma_frame page (List.range 256) s).cpu
  unfold State.oamDma State.addCycles
  rw [h]

theorem addCycles_inv {s : State} (h : s.Inv) (n : Nat) : (s.addCycles n).Inv :=
  { cpu := { uIsOne := h.cpu.uIsOne, bIsZero := h.cpu.bIsZero, haltedAt := h.cpu.haltedAt },
    ramWf := h.ramWf, ramBelow := h.ramBelow, ppu := h.ppu, cart := h.cart, fatal := h.fatal }

theorem oamDma_inv {s : State} (h : s.Inv) (page : Byte) : (s.oamDma page).Inv :=
  addCycles_inv (foldl_oamDma_inv page (List.range 256) h) _

/-! Writes. -/

/-- RAM and its mirrors (R52). -/
theorem busWrite_ram_area (s : State) {a : Word} (h : a.toNat < 0x2000) (d : Byte) :
    s.busWrite a d = { s with ram := s.ram.write (a.toNat % 0x800) d } := by
  unfold State.busWrite
  simp only [show a.toNat ≤ 0x1FFF by omega, if_true]

/-- Cartridge space (R55). -/
theorem busWrite_cart_area (s : State) {a : Word} (h : 0x4020 ≤ a.toNat) (d : Byte) :
    s.busWrite a d = { s with cart := s.cart.cpuWrite a.toNat d } := by
  unfold State.busWrite
  simp only [show ¬ a.toNat ≤ 0x1FFF by omega, show ¬ a.toNat ≤ 0x3FFF by omega,
    show a.toNat ≠ 0x4014 by omega, show a.toNat ≠ 0x4016 by omega,
    show ¬ a.toNat ≤ 0x401F by omega, if_false]

/-- A bus write leaves every CPU register; only OAM DMA owes cycles. -/
theorem busWrite_cpu (s : State) (a : Word) (d : Byte) :
    (s.busWrite a d).cpu
      = { s.cpu with extraCycles :=
          if a.toNat = 0x4014 then s.cpu.extraCycles + dmaCycles s.params.dmaCost
          else s.cpu.extraCycles } := by
  unfold State.busWrite
  dsimp only
  by_cases h1 : a.toNat ≤ 0x1FFF
  · simp only [h1, if_true, show a.toNat ≠ 0x4014 by omega, if_false]
  · by_cases h2 : a.toNat ≤ 0x3FFF
    · simp only [h1, h2, if_true, if_false, show a.toNat ≠ 0x4014 by omega]
    · by_cases h3 : a.toNat = 0x4014
      · simp only [h3, if_true]
        exact oamDma_cpu s d
      · simp only [h1, h2, h3, if_false]
        split
        · rfl
        · split <;> rfl

@[simp] theorem busWrite_a (s : State) (a : Word) (d : Byte) :
    (s.busWrite a d).cpu.a = s.cpu.a := by rw [busWrite_cpu]
@[simp] theorem busWrite_x (s : State) (a : Word) (d : Byte) :
    (s.busWrite a d).cpu.x = s.cpu.x := by rw [busWrite_cpu]
@[simp] theorem busWrite_y (s : State) (a : Word) (d : Byte) :
    (s.busWrite a d).cpu.y = s.cpu.y := by rw [busWrite_cpu]
@[simp] theorem busWrite_sp (s : State) (a : Word) (d : Byte) :
    (s.busWrite a d).cpu.sp = s.cpu.sp := by rw [busWrite_cpu]
@[simp] theorem busWrite_pc (s : State) (a : Word) (d : Byte) :
    (s.busWrite a d).cpu.pc = s.cpu.pc := by rw [busWrite_cpu]
@[simp] theorem busWrite_p (s : State) (a : Word) (d : Byte) :
    (s.busWrite a d).cpu.p = s.cpu.p := by rw [busWrite_cpu]
@[simp] theorem busWrite_halted (s : State) (a : Word) (d : Byte) :
    (s.busWrite a d).cpu.halted = s.cpu.halted := by rw [busWrite_cpu]

@[simp] theorem busWrite_driver (s : State) (a : Word) (d : Byte) :
    (s.busWrite a d).driver = s.driver := by
  unfold State.busWrite; dsimp only; repeat' split
  · rfl
  · rfl
  · exact (foldl_oamDma_frame d (List.range 256) s).driver
  · rfl
  · rfl
  · rfl

@[simp] theorem busWrite_params (s : State) (a : Word) (d : Byte) :
    (s.busWrite a d).params = s.params := by
  unfold State.busWrite; dsimp only; repeat' split
  · rfl
  · rfl
  · exact (foldl_oamDma_frame d (List.range 256) s).params
  · rfl
  · rfl
  · rfl

@[simp] theorem busWrite_buttons1 (s : State) (a : Word) (d : Byte) :
    (s.busWrite a d).pads.buttons1 = s.pads.buttons1 := by
  unfold State.busWrite; dsimp only; repeat' split
  · rfl
  · rfl
  · exact (foldl_oamDma_frame d (List.range 256) s).b1
  · exact (Pads.strobeWrite_buttons _ _).1
  · rfl
  · rfl

@[simp] theorem busWrite_buttons2 (s : State) (a : Word) (d : Byte) :
    (s.busWrite a d).pads.buttons2 = s.pads.buttons2 := by
  unfold State.busWrite; dsimp only; repeat' split
  · rfl
  · rfl
  · exact (foldl_oamDma_frame d (List.range 256) s).b2
  · exact (Pads.strobeWrite_buttons _ _).2
  · rfl
  · rfl

/-- A bus write changes RAM only where the address is a RAM address. -/
theorem busWrite_ram (s : State) (a : Word) (d : Byte) :
    (s.busWrite a d).ram
      = if a.toNat < 0x2000 then s.ram.write (a.toNat % 0x800) d else s.ram := by
  by_cases h : a.toNat < 0x2000
  · rw [busWrite_ram_area s h, if_pos h]
  · rw [if_neg h]
    unfold State.busWrite; dsimp only; repeat' split
    · omega
    · rfl
    · exact (foldl_oamDma_frame d (List.range 256) s).ram
    · rfl
    · rfl
    · rfl

/-- A bus write never moves the PPU's counters, sets or clears its sprite flags, touches its NMI latch
or writes the framebuffer. -/
theorem busWrite_ppu (s : State) (a : Word) (d : Byte) :
    (s.busWrite a d).ppu
      = { (s.busWrite a d).ppu with
          scanline := s.ppu.scanline, cycle := s.ppu.cycle, sprite0 := s.ppu.sprite0,
          overflow := s.ppu.overflow, nmiOccurred := s.ppu.nmiOccurred,
          framebuffer := s.ppu.framebuffer } := by
  unfold State.busWrite; dsimp only; repeat' split
  · rfl
  · rw [Ppu.regWrite_ppu]
  · unfold State.oamDma State.addCycles
    rw [(foldl_oamDma_frame d (List.range 256) s).ppu]
  · rfl
  · rfl
  · rfl

/-- A bus write keeps every property of the cartridge that the tap and both writes keep. -/
theorem busWrite_keeps {q : Cart → Prop} (ht : ∀ cd c a, q c → q (Cart.tap cd c a))
    (hp : ∀ cd c a d, q c → q (Cart.ppuWrite cd c a d)) (hc : ∀ c a d, q c → q (Cart.cpuWrite c a d))
    (s : State) (a : Word) (d : Byte) (h : q s.cart) : q (s.busWrite a d).cart := by
  unfold State.busWrite; dsimp only; repeat' split
  · exact h
  · exact Ppu.regWrite_keeps hp _ _ _ _ h
  · exact foldl_oamDma_keeps ht d (List.range 256) s h
  · exact h
  · exact h
  · exact hc _ _ _ h

theorem busWrite_inv {s : State} (h : s.Inv) (a : Word) (d : Byte) : (s.busWrite a d).Inv := by
  unfold State.busWrite; dsimp only; repeat' split
  · exact { cpu := h.cpu, ramWf := Memory.wf_write _ _ h.ramWf,
            ramBelow := Memory.below_write _ h.ramBelow (Nat.mod_lt _ (by decide)),
            ppu := h.ppu, cart := h.cart, fatal := h.fatal }
  · exact { cpu := h.cpu, ramWf := h.ramWf, ramBelow := h.ramBelow, ppu := h.ppu.regWrite _ _ _ _,
            cart := Ppu.regWrite_keeps (fun cd _ a d h => h.ppuWrite cd a d) _ _ _ _ h.cart,
            fatal := h.fatal }
  · exact oamDma_inv h d
  · exact { cpu := h.cpu, ramWf := h.ramWf, ramBelow := h.ramBelow, ppu := h.ppu, cart := h.cart,
            fatal := h.fatal }
  · exact h
  · exact { cpu := h.cpu, ramWf := h.ramWf, ramBelow := h.ramBelow, ppu := h.ppu,
            cart := h.cart.cpuWrite _ _, fatal := h.fatal }

/-! Register writes keep the invariant. -/

theorem setA_inv {s : State} (h : s.Inv) (v : Byte) : (s.setA v).Inv :=
  { cpu := { uIsOne := h.cpu.uIsOne, bIsZero := h.cpu.bIsZero, haltedAt := h.cpu.haltedAt },
    ramWf := h.ramWf, ramBelow := h.ramBelow, ppu := h.ppu, cart := h.cart, fatal := h.fatal }

theorem setX_inv {s : State} (h : s.Inv) (v : Byte) : (s.setX v).Inv :=
  { cpu := { uIsOne := h.cpu.uIsOne, bIsZero := h.cpu.bIsZero, haltedAt := h.cpu.haltedAt },
    ramWf := h.ramWf, ramBelow := h.ramBelow, ppu := h.ppu, cart := h.cart, fatal := h.fatal }

theorem setY_inv {s : State} (h : s.Inv) (v : Byte) : (s.setY v).Inv :=
  { cpu := { uIsOne := h.cpu.uIsOne, bIsZero := h.cpu.bIsZero, haltedAt := h.cpu.haltedAt },
    ramWf := h.ramWf, ramBelow := h.ramBelow, ppu := h.ppu, cart := h.cart, fatal := h.fatal }

theorem setSp_inv {s : State} (h : s.Inv) (v : Byte) : (s.setSp v).Inv :=
  { cpu := { uIsOne := h.cpu.uIsOne, bIsZero := h.cpu.bIsZero, haltedAt := h.cpu.haltedAt },
    ramWf := h.ramWf, ramBelow := h.ramBelow, ppu := h.ppu, cart := h.cart, fatal := h.fatal }

theorem setP_inv {s : State} (h : s.Inv) (v : Byte) : (s.setP v).Inv :=
  { cpu := { uIsOne := by rw [State.setP_p, getFlag_normP]; rfl,
             bIsZero := by rw [State.setP_p, getFlag_normP]; rfl,
             haltedAt := h.cpu.haltedAt },
    ramWf := h.ramWf, ramBelow := h.ramBelow, ppu := h.ppu, cart := h.cart, fatal := h.fatal }

/-- A write of PC keeps it on a running CPU; a halted one stays at its opcode. -/
theorem setPc_inv {s : State} (h : s.Inv) (hn : s.cpu.halted = none) (v : Word) : (s.setPc v).Inv :=
  { cpu := { uIsOne := h.cpu.uIsOne, bIsZero := h.cpu.bIsZero,
             haltedAt := by intro op a e; rw [State.setPc_halted, hn] at e; cases e },
    ramWf := h.ramWf, ramBelow := h.ramBelow, ppu := h.ppu, cart := h.cart, fatal := h.fatal }

/-! The stack. -/

/-- Push writes one RAM byte and decrements SP; nothing else (R12, R23). -/
theorem push_eq (s : State) (v : Byte) :
    s.push v
      = { s with ram := s.ram.write (256 + s.cpu.sp.toNat) v,
                 cpu := { s.cpu with sp := s.cpu.sp - 1 } } := by
  have := s.cpu.sp.isLt
  unfold State.push
  rw [busWrite_ram_area s (by rw [stackAddr_toNat]; omega), stackAddr_mod]
  rfl

/-- Pull increments SP and reads one RAM byte; nothing else. -/
theorem pull_eq (s : State) :
    s.pull = (s.ram.read (256 + (s.cpu.sp + 1).toNat), s.setSp (s.cpu.sp + 1)) := by
  have := (s.cpu.sp + 1).isLt
  unfold State.pull
  dsimp only
  rw [State.setSp_sp, busRead_ram_area _ (by rw [stackAddr_toNat]; omega), stackAddr_mod,
    State.setSp_ram]

theorem pullWord_eq (s : State) :
    s.pullWord
      = (word16 (s.ram.read (256 + (s.cpu.sp + 2).toNat)) (s.ram.read (256 + (s.cpu.sp + 1).toNat)),
          s.setSp (s.cpu.sp + 2)) := by
  have e : s.cpu.sp + 1 + 1 = s.cpu.sp + 2 := by rw [BitVec.add_assoc]; rfl
  unfold State.pullWord
  simp only [pull_eq, State.setSp_ram, State.setSp_sp, e]
  rfl

/-- Two bytes pushed, high byte first (R59). -/
theorem pushWord_eq (s : State) (w : Word) :
    s.pushWord w
      = { s with
          ram := (s.ram.write (256 + s.cpu.sp.toNat) (hiByte w)).write
            (256 + (s.cpu.sp - 1).toNat) (loByte w),
          cpu := { s.cpu with sp := s.cpu.sp - 2 } } := by
  have e : s.cpu.sp - 1 - 1 = s.cpu.sp - 2 := by
    rw [BitVec.sub_sub]; rfl
  unfold State.pushWord
  simp only [push_eq, e]

theorem push_inv {s : State} (h : s.Inv) (v : Byte) : (s.push v).Inv :=
  setSp_inv (busWrite_inv h _ _) _

theorem pull_inv {s : State} (h : s.Inv) : s.pull.2.Inv := busRead_inv (setSp_inv h _) _

theorem pushWord_inv {s : State} (h : s.Inv) (w : Word) : (s.pushWord w).Inv :=
  push_inv (push_inv h _) _

theorem pullWord_inv {s : State} (h : s.Inv) : s.pullWord.2.Inv := pull_inv (pull_inv h)

/-! Vectors. -/

/-- A vector is read through the mapper, low byte first, with no side effect (R12, R55). -/
theorem read16_vector (s : State) {a : Word} (h : 0x4020 ≤ a.toNat) (h' : a.toNat < 0xFFFF) :
    s.read16 a = (word16 (s.cart.cpuRead (a.toNat + 1)) (s.cart.cpuRead a.toNat), s) := by
  have e : (a + 1).toNat = a.toNat + 1 := by
    rw [BitVec.toNat_add]; simp; omega
  unfold State.read16
  simp only [busRead_cart_area s h]
  rw [busRead_cart_area s (by rw [e]; omega), e]

@[simp] theorem read16_cpu (s : State) (a : Word) : (s.read16 a).2.cpu = s.cpu := by
  unfold State.read16; simp

theorem read16_inv {s : State} (h : s.Inv) (a : Word) : (s.read16 a).2.Inv :=
  busRead_inv (busRead_inv h _) _

/-! Taking and leaving an interrupt: everything the two operations do. -/

/-- The shared entry (R183, R212, R213): three bytes on the stack, P.I set, PC from the vector; nothing
else changes. -/
theorem enterVector_eq (s : State) (ret : Word) (pushed : Byte) {vector : Word}
    (h : 0x4020 ≤ vector.toNat) (h' : vector.toNat < 0xFFFF) :
    s.enterVector ret pushed vector
      = { s with
          ram := ((s.ram.write (256 + s.cpu.sp.toNat) (hiByte ret)).write
              (256 + (s.cpu.sp - 1).toNat) (loByte ret)).write (256 + (s.cpu.sp - 2).toNat) pushed,
          cpu := { s.cpu with
            sp := s.cpu.sp - 3,
            p := normP (setFlag s.cpu.p .i true),
            pc := word16 (s.cart.cpuRead (vector.toNat + 1)) (s.cart.cpuRead vector.toNat) } } := by
  have e : s.cpu.sp - 2 - 1 = s.cpu.sp - 3 := by rw [BitVec.sub_sub]; rfl
  unfold State.enterVector
  simp only [read16_vector _ h h', pushWord_eq, push_eq, e]
  rfl

/-- The return (R184): P and PC from three stack bytes; nothing else changes. -/
theorem returnFromInterrupt_eq (s : State) :
    s.returnFromInterrupt
      = { s with cpu := { s.cpu with
            sp := s.cpu.sp + 3,
            p := normP (s.ram.read (256 + (s.cpu.sp + 1).toNat)),
            pc := word16 (s.ram.read (256 + (s.cpu.sp + 3).toNat))
              (s.ram.read (256 + (s.cpu.sp + 2).toNat)) } } := by
  have e2 : s.cpu.sp + 1 + 1 = s.cpu.sp + 2 := by rw [BitVec.add_assoc]; rfl
  have e3 : s.cpu.sp + 1 + 2 = s.cpu.sp + 3 := by rw [BitVec.add_assoc]; rfl
  unfold State.returnFromInterrupt
  simp only [pull_eq, pullWord_eq, State.setP_sp, State.setP_ram, State.setSp_sp, State.setSp_ram,
    e2, e3]
  rfl

theorem enterVector_halted (s : State) (ret : Word) (pushed : Byte) (vector : Word) :
    (s.enterVector ret pushed vector).cpu.halted = s.cpu.halted := by
  unfold State.enterVector
  simp [push_eq, pushWord_eq]

theorem enterVector_inv {s : State} (h : s.Inv) (hn : s.cpu.halted = none) (ret : Word)
    (pushed : Byte) (vector : Word) : (s.enterVector ret pushed vector).Inv := by
  unfold State.enterVector
  refine setPc_inv (read16_inv (setP_inv (push_inv (pushWord_inv h _) _) _) _) ?_ _
  simp [push_eq, pushWord_eq, hn]

theorem returnFromInterrupt_inv {s : State} (h : s.Inv) (hn : s.cpu.halted = none) :
    s.returnFromInterrupt.Inv := by
  unfold State.returnFromInterrupt
  refine setPc_inv (pullWord_inv (setP_inv (pull_inv h) _)) ?_ _
  simp [pull_eq, pullWord_eq, hn]

theorem cpuNmi_halted (s : State) : s.cpuNmi.cpu.halted = s.cpu.halted := by
  unfold State.cpuNmi
  split
  · rfl
  · rw [State.addCycles_halted, enterVector_halted]

theorem cpuIrq_halted (s : State) : s.cpuIrq.cpu.halted = s.cpu.halted := by
  unfold State.cpuIrq
  split
  · rfl
  · split
    · rfl
    · rw [State.addCycles_halted, enterVector_halted]

theorem cpuNmi_inv {s : State} (h : s.Inv) : s.cpuNmi.Inv := by
  unfold State.cpuNmi
  split
  · exact h
  · exact addCycles_inv (enterVector_inv h (by assumption) _ _ _) 7

theorem cpuIrq_inv {s : State} (h : s.Inv) : s.cpuIrq.Inv := by
  unfold State.cpuIrq
  split
  · exact h
  · split
    · exact h
    · exact addCycles_inv (enterVector_inv h (by assumption) _ _ _) 7

end Sys2Proof.Machine
end

