-- ==== Sys2Proof/Laws/Exec.lean ====
section
/-! SUPPORT. What an instruction can do to the machine, said once: everything it does is register
writes, bus reads and bus writes, so a property that these keep is kept by every instruction; the two
halting instructions only record the halt. -/

namespace Sys2Proof.Machine

open Sys2Proof

/-- The operations instructions are built of keep q. -/
structure Keeps (q : State → Prop) : Prop where
  setA     : ∀ s v, q s → q (s.setA v)
  setX     : ∀ s v, q s → q (s.setX v)
  setY     : ∀ s v, q s → q (s.setY v)
  setSp    : ∀ s v, q s → q (s.setSp v)
  setP     : ∀ s v, q s → q (s.setP v)
  setPc    : ∀ s v, q s → q (s.setPc v)
  busRead  : ∀ s a, q s → q (s.busRead a).2
  busWrite : ∀ s a d, q s → q (s.busWrite a d)

namespace Keeps

variable {q : State → Prop} (k : Keeps q)
include k

theorem load (o : Source) {s : State} (h : q s) : q (s.load o).2 := by
  cases o with
  | imm _ => exact h
  | mem m => exact k.busRead s _ h

theorem modify (m : MemOperand) (f : Byte → Byte) {s : State} (h : q s) : q (s.modify m f).2 :=
  k.busWrite _ _ _ (k.busRead s _ h)

theorem shift (t : Target) (f : Byte → Bool → Byte × Bool) {s : State} (h : q s) :
    q (s.shift t f) := by
  cases t with
  | acc => exact k.setP _ _ (k.setA _ _ h)
  | mem m => exact k.setP _ _ (k.modify m _ h)

theorem branch (f : Flag) (b : Bool) (d : Byte) {s : State} (h : q s) : q (s.branch f b d) := by
  unfold State.branch
  split
  · exact k.setPc _ _ h
  · exact h

theorem push (v : Byte) {s : State} (h : q s) : q (s.push v) := k.setSp _ _ (k.busWrite _ _ _ h)

theorem pull {s : State} (h : q s) : q s.pull.2 := k.busRead _ _ (k.setSp _ _ h)

theorem pushWord (w : Word) {s : State} (h : q s) : q (s.pushWord w) := k.push _ (k.push _ h)

theorem pullWord {s : State} (h : q s) : q s.pullWord.2 := k.pull (k.pull h)

theorem read16 (a : Word) {s : State} (h : q s) : q (s.read16 a).2 :=
  k.busRead _ _ (k.busRead _ _ h)

theorem indTarget (p : Word) {s : State} (h : q s) : q (s.indTarget p).2 :=
  k.busRead _ _ (k.busRead _ _ h)

theorem enterVector (ret : Word) (pushed : Byte) (vector : Word) {s : State} (h : q s) :
    q (s.enterVector ret pushed vector) :=
  k.setPc _ _ (k.read16 _ (k.setP _ _ (k.push _ (k.pushWord _ h))))

theorem returnFromInterrupt {s : State} (h : q s) : q s.returnFromInterrupt :=
  k.setPc _ _ (k.pullWord (k.setP _ _ (k.pull h)))

/-- Every instruction that does not halt keeps q and answers a next state. -/
theorem exec (i : Instr) (hk : ∀ op, i ≠ .kil op) (hu : ∀ op, i ≠ .unknown op) {s : State}
    (h : q s) : ∃ t, Machine.exec i s = .next t ∧ q t := by
  cases i with
  | lda o => exact ⟨_, rfl, k.setP _ _ (k.setA _ _ (k.load o h))⟩
  | ldx o => exact ⟨_, rfl, k.setP _ _ (k.setX _ _ (k.load o h))⟩
  | ldy o => exact ⟨_, rfl, k.setP _ _ (k.setY _ _ (k.load o h))⟩
  | sta m => exact ⟨_, rfl, k.busWrite _ _ _ h⟩
  | stx m => exact ⟨_, rfl, k.busWrite _ _ _ h⟩
  | sty m => exact ⟨_, rfl, k.busWrite _ _ _ h⟩
  | tax => exact ⟨_, rfl, k.setP _ _ (k.setX _ _ h)⟩
  | tay => exact ⟨_, rfl, k.setP _ _ (k.setY _ _ h)⟩
  | txa => exact ⟨_, rfl, k.setP _ _ (k.setA _ _ h)⟩
  | tya => exact ⟨_, rfl, k.setP _ _ (k.setA _ _ h)⟩
  | tsx => exact ⟨_, rfl, k.setP _ _ (k.setX _ _ h)⟩
  | txs => exact ⟨_, rfl, k.setSp _ _ h⟩
  | pha => exact ⟨_, rfl, k.push _ h⟩
  | pla => exact ⟨_, rfl, k.setP _ _ (k.setA _ _ (k.pull h))⟩
  | php => exact ⟨_, rfl, k.push _ h⟩
  | plp => exact ⟨_, rfl, k.setP _ _ (k.pull h)⟩
  | adc o => exact ⟨_, rfl, k.setP _ _ (k.setA _ _ (k.load o h))⟩
  | sbc o => exact ⟨_, rfl, k.setP _ _ (k.setA _ _ (k.load o h))⟩
  | and o => exact ⟨_, rfl, k.setP _ _ (k.setA _ _ (k.load o h))⟩
  | ora o => exact ⟨_, rfl, k.setP _ _ (k.setA _ _ (k.load o h))⟩
  | eor o => exact ⟨_, rfl, k.setP _ _ (k.setA _ _ (k.load o h))⟩
  | cmp o => exact ⟨_, rfl, k.setP _ _ (k.load o h)⟩
  | cpx o => exact ⟨_, rfl, k.setP _ _ (k.load o h)⟩
  | cpy o => exact ⟨_, rfl, k.setP _ _ (k.load o h)⟩
  | bit m => exact ⟨_, rfl, k.setP _ _ (k.busRead _ _ h)⟩
  | inc m => exact ⟨_, rfl, k.setP _ _ (k.modify m _ h)⟩
  | dec m => exact ⟨_, rfl, k.setP _ _ (k.modify m _ h)⟩
  | inx => exact ⟨_, rfl, k.setP _ _ (k.setX _ _ h)⟩
  | iny => exact ⟨_, rfl, k.setP _ _ (k.setY _ _ h)⟩
  | dex => exact ⟨_, rfl, k.setP _ _ (k.setX _ _ h)⟩
  | dey => exact ⟨_, rfl, k.setP _ _ (k.setY _ _ h)⟩
  | asl t => exact ⟨_, rfl, k.shift t _ h⟩
  | lsr t => exact ⟨_, rfl, k.shift t _ h⟩
  | rol t => exact ⟨_, rfl, k.shift t _ h⟩
  | ror t => exact ⟨_, rfl, k.shift t _ h⟩
  | jmp t =>
    cases t with
    | abs a => exact ⟨_, rfl, k.setPc _ _ h⟩
    | ind p => exact ⟨_, rfl, k.setPc _ _ (k.indTarget p h)⟩
  | jsr a => exact ⟨_, rfl, k.setPc _ _ (k.pushWord _ h)⟩
  | rts => exact ⟨_, rfl, k.setPc _ _ (k.pullWord h)⟩
  | bpl d => exact ⟨_, rfl, k.branch _ _ d h⟩
  | bmi d => exact ⟨_, rfl, k.branch _ _ d h⟩
  | bvc d => exact ⟨_, rfl, k.branch _ _ d h⟩
  | bvs d => exact ⟨_, rfl, k.branch _ _ d h⟩
  | bcc d => exact ⟨_, rfl, k.branch _ _ d h⟩
  | bcs d => exact ⟨_, rfl, k.branch _ _ d h⟩
  | bne d => exact ⟨_, rfl, k.branch _ _ d h⟩
  | beq d => exact ⟨_, rfl, k.branch _ _ d h⟩
  | brk => exact ⟨_, rfl, k.enterVector _ _ _ h⟩
  | rti => exact ⟨_, rfl, k.returnFromInterrupt h⟩
  | clc => exact ⟨_, rfl, k.setP _ _ h⟩
  | sec => exact ⟨_, rfl, k.setP _ _ h⟩
  | cli => exact ⟨_, rfl, k.setP _ _ h⟩
  | sei => exact ⟨_, rfl, k.setP _ _ h⟩
  | cld => exact ⟨_, rfl, k.setP _ _ h⟩
  | sed => exact ⟨_, rfl, k.setP _ _ h⟩
  | clv => exact ⟨_, rfl, k.setP _ _ h⟩
  | nop => exact ⟨_, rfl, h⟩
  | slo m => exact ⟨_, rfl, k.setP _ _ (k.setA _ _ (k.modify m _ h))⟩
  | nopUnofficial op o => exact ⟨_, rfl, h⟩
  | kil op => exact absurd rfl (hk op)
  | unknown op => exact absurd rfl (hu op)

end Keeps

/-- Every instruction answers a next state. -/
theorem exec_answers (i : Instr) (s : State) : ∃ t, exec i s = .next t := by
  have k : Keeps (fun _ => True) :=
    { setA := fun _ _ _ => trivial, setX := fun _ _ _ => trivial, setY := fun _ _ _ => trivial,
      setSp := fun _ _ _ => trivial, setP := fun _ _ _ => trivial, setPc := fun _ _ _ => trivial,
      busRead := fun _ _ _ => trivial, busWrite := fun _ _ _ _ => trivial }
  by_cases hk : ∃ op, i = .kil op
  · obtain ⟨op, rfl⟩ := hk; exact ⟨_, rfl⟩
  · by_cases hu : ∃ op, i = .unknown op
    · obtain ⟨op, rfl⟩ := hu; exact ⟨_, rfl⟩
    · obtain ⟨t, ht, -⟩ := k.exec i (fun op e => hk ⟨op, e⟩) (fun op e => hu ⟨op, e⟩)
        (s := s) trivial
      exact ⟨t, ht⟩

/-- What an instruction can do: the halting two record the halt, the others keep what their
operations keep. -/
theorem exec_cases {i : Instr} {s t : State} (h : exec i s = .next t) :
    ((∃ op, (i = .kil op ∨ i = .unknown op) ∧ t = s.haltAtOpcode op))
      ∨ ((∀ op, i ≠ .kil op) ∧ (∀ op, i ≠ .unknown op)
        ∧ ∀ q : State → Prop, Keeps q → q s → q t) := by
  by_cases hk : ∃ op, i = .kil op
  · obtain ⟨op, rfl⟩ := hk; cases h; exact .inl ⟨op, .inl rfl, rfl⟩
  · by_cases hu : ∃ op, i = .unknown op
    · obtain ⟨op, rfl⟩ := hu; cases h; exact .inl ⟨op, .inr rfl, rfl⟩
    · refine .inr ⟨fun op e => hk ⟨op, e⟩, fun op e => hu ⟨op, e⟩, fun q k hs => ?_⟩
      obtain ⟨u, hu', hq⟩ := k.exec i (fun op e => hk ⟨op, e⟩) (fun op e => hu ⟨op, e⟩) hs
      rw [h] at hu'
      cases hu'
      exact hq

/-- A halted CPU stays so through register writes and bus accesses, and so does a running one. -/
theorem keeps_halted (h : Option (Byte × Word)) : Keeps (fun s => s.cpu.halted = h) where
  setA _ _ e := e
  setX _ _ e := e
  setY _ _ e := e
  setSp _ _ e := e
  setP _ _ e := e
  setPc _ _ e := e
  busRead s a e := by rw [busRead_cpu]; exact e
  busWrite s a d e := by rw [busWrite_halted]; exact e

/-- The invariant of a running machine. -/
theorem keeps_inv : Keeps (fun s => s.Inv ∧ s.cpu.halted = none) where
  setA _ v h := ⟨setA_inv h.1 v, h.2⟩
  setX _ v h := ⟨setX_inv h.1 v, h.2⟩
  setY _ v h := ⟨setY_inv h.1 v, h.2⟩
  setSp _ v h := ⟨setSp_inv h.1 v, h.2⟩
  setP _ v h := ⟨setP_inv h.1 v, h.2⟩
  setPc _ v h := ⟨setPc_inv h.1 h.2 v, h.2⟩
  busRead s a h := ⟨busRead_inv h.1 a, by rw [busRead_cpu]; exact h.2⟩
  busWrite s a d h := ⟨busWrite_inv h.1 a d, by rw [busWrite_halted]; exact h.2⟩

/-- Instructions do not touch the driver's state, the parameters or the live buttons. -/
theorem keeps_outside (s : State) :
    Keeps (fun t => t.driver = s.driver ∧ t.params = s.params ∧ t.pads.buttons1 = s.pads.buttons1
      ∧ t.pads.buttons2 = s.pads.buttons2) where
  setA _ _ e := e
  setX _ _ e := e
  setY _ _ e := e
  setSp _ _ e := e
  setP _ _ e := e
  setPc _ _ e := e
  busRead t a e := by
    rw [busRead_driver, busRead_params, busRead_buttons1, busRead_buttons2]; exact e
  busWrite t a d e := by
    rw [busWrite_driver, busWrite_params, busWrite_buttons1, busWrite_buttons2]; exact e

end Sys2Proof.Machine
end

