-- ==== Sys2Proof/Laws/Operands.lean ====
section
/-! SUPPORT. Laws of the operand forms: what getting an operand changes, the addresses as numbers, and
the byte arithmetic of the read-modify-write instructions and branches as numbers. -/

namespace Sys2Proof.Machine

open Sys2Proof

/-! Getting an operand. -/

@[simp] theorem load_cpu (s : State) (o : Source) : (s.load o).2.cpu = s.cpu := by
  cases o with
  | imm _ => rfl
  | mem m => exact busRead_cpu s _

/-- A read-modify-write access changes no register but the cycles owed (R57, R99). -/
theorem modify_cpu (s : State) (m : MemOperand) (f : Byte → Byte) :
    (s.modify m f).2.cpu = { s.cpu with extraCycles := (s.modify m f).2.cpu.extraCycles } := by
  unfold State.modify
  dsimp only
  rw [busWrite_cpu]
  simp only [busRead_cpu]

/-- A byte of page 0 is a byte of RAM. -/
theorem zeroPage_eq (s : State) (z : Byte) : s.zeroPage z = s.ram.read z.toNat := by
  have hz := z.isLt
  unfold State.zeroPage
  rw [busRead_ram_area s (by rw [zext16_toNat]; omega), zext16_toNat]
  show s.ram.read (z.toNat % 2048) = _
  rw [Nat.mod_eq_of_lt (by omega)]

theorem zeroPagePointer_toNat (s : State) (z : Byte) :
    (s.zeroPagePointer z).toNat
      = (s.ram.read ((z.toNat + 1) % 256)).toNat * 256 + (s.ram.read z.toNat).toNat := by
  unfold State.zeroPagePointer
  rw [word16_toNat, zeroPage_eq, zeroPage_eq, BitVec.toNat_add]
  rfl

/-- A branch target as a sum of integers (R97). -/
theorem branchTarget_eq (s : State) (d : Byte) :
    s.branchTarget d = BitVec.ofInt 16 ((s.cpu.pc.toNat : Int) + d.toInt) := by
  unfold State.branchTarget sext16
  rw [BitVec.ofInt_add]
  congr 1
  simp

/-! Bytes as numbers. -/

/-- M ^ 0xFF, which SBC adds (spec/41_arithmetic_logic.md R141). -/
theorem xor_ff_toNat (v : Byte) : (v ^^^ 0xFF).toNat = 255 - v.toNat := by
  revert v
  decide

theorem xor_ff_toInt (v : Byte) : (v ^^^ 0xFF).toInt = -1 - v.toInt := by
  revert v
  decide

theorem aslByte_toNat (v : Byte) (c : Bool) : (aslByte v c).1.toNat = 2 * v.toNat % 256 := by
  revert c v
  decide

theorem lsrByte_toNat (v : Byte) (c : Bool) : (lsrByte v c).1.toNat = v.toNat / 2 := by
  revert c v
  decide

theorem rolByte_toNat (v : Byte) (c : Bool) :
    (rolByte v c).1.toNat = (2 * v.toNat + c.toNat) % 256 := by
  revert c v
  decide

theorem rorByte_toNat (v : Byte) (c : Bool) :
    (rorByte v c).1.toNat = v.toNat / 2 + 128 * c.toNat := by
  revert c v
  decide

/-- The byte NMI and IRQ push, by mask. -/
theorem pushedByInterrupt_eq (p : Byte) : pushedByInterrupt p = (p &&& 0xEF) ||| 0x20 := rfl

/-- What a word and a byte pushed on the stack read as: the three slots are apart. -/
theorem read_pushed (m : Memory) (sp hi lo v : Byte) (k : Nat) :
    (((m.write (256 + sp.toNat) hi).write (256 + (sp - 1).toNat) lo).write
        (256 + (sp - 2).toNat) v).read k
      = if k = 256 + sp.toNat then hi
        else if k = 256 + (sp - 1).toNat then lo
        else if k = 256 + (sp - 2).toNat then v
        else m.read k := by
  have n1 : 256 + sp.toNat ≠ 256 + (sp - 1).toNat := by have := sp.isLt; bv_omega
  have n2 : 256 + sp.toNat ≠ 256 + (sp - 2).toNat := by have := sp.isLt; bv_omega
  have n3 : 256 + (sp - 1).toNat ≠ 256 + (sp - 2).toNat := by have := sp.isLt; bv_omega
  simp only [Memory.read_write]
  by_cases h : k = 256 + sp.toNat
  · rw [if_neg (by rw [h]; exact n2), if_neg (by rw [h]; exact n1), if_pos h, if_pos h]
  · rw [if_neg h]
    by_cases h' : k = 256 + (sp - 1).toNat
    · rw [if_neg (by rw [h']; exact n3), if_pos h', if_neg h, if_pos h']
    · rw [if_neg h', if_neg h, if_neg h']

end Sys2Proof.Machine
end

