-- ==== Sys2Proof/Laws/PerInstr.lean ====
section
/-! SUPPORT. A law of every instruction as syntax, one lemma per constructor: an instruction that is a
row of the opcode table encodes to one opcode byte, whose row has the instruction's length, and its
operand bytes; a term that is no row has no encoding. -/

namespace Sys2Proof.Laws.Encoding

open Sys2Proof

/-- The law (spec/30_encoding.md R90, R91). -/
def Statement (i : Instr) : Prop :=
  (i.wf = true → ∃ op, encode i = op :: i.operandBytes ∧ opLength op = i.length)
    ∧ (i.wf = false → encode i = [])

/-- A row whose encoding is written out. -/
theorem of_row {i : Instr} (op : Byte) (hw : i.wf = true) (he : encode i = op :: i.operandBytes)
    (hl : opLength op = i.length) : Statement i :=
  ⟨fun _ => ⟨op, he, hl⟩, fun h => by rw [hw] at h; cases h⟩

/-- A term that is no row. -/
theorem of_no_row {i : Instr} (hw : i.wf = false) (he : encode i = []) : Statement i :=
  ⟨fun h => (by rw [hw] at h; cases h), fun _ => he⟩

theorem lda (o : Source) : Statement (.lda o) := by
  cases o with
  | imm _ => exact of_row 0xA9 rfl rfl rfl
  | mem m =>
    cases m with
    | zp _ => exact of_row 0xA5 rfl rfl rfl
    | zpx _ => exact of_row 0xB5 rfl rfl rfl
    | zpy _ => exact of_no_row rfl rfl
    | abs _ => exact of_row 0xAD rfl rfl rfl
    | abx _ => exact of_row 0xBD rfl rfl rfl
    | aby _ => exact of_row 0xB9 rfl rfl rfl
    | izx _ => exact of_row 0xA1 rfl rfl rfl
    | izy _ => exact of_row 0xB1 rfl rfl rfl

theorem ldx (o : Source) : Statement (.ldx o) := by
  cases o with
  | imm _ => exact of_row 0xA2 rfl rfl rfl
  | mem m =>
    cases m with
    | zp _ => exact of_row 0xA6 rfl rfl rfl
    | zpx _ => exact of_no_row rfl rfl
    | zpy _ => exact of_row 0xB6 rfl rfl rfl
    | abs _ => exact of_row 0xAE rfl rfl rfl
    | abx _ => exact of_no_row rfl rfl
    | aby _ => exact of_row 0xBE rfl rfl rfl
    | izx _ => exact of_no_row rfl rfl
    | izy _ => exact of_no_row rfl rfl

theorem ldy (o : Source) : Statement (.ldy o) := by
  cases o with
  | imm _ => exact of_row 0xA0 rfl rfl rfl
  | mem m =>
    cases m with
    | zp _ => exact of_row 0xA4 rfl rfl rfl
    | zpx _ => exact of_row 0xB4 rfl rfl rfl
    | zpy _ => exact of_no_row rfl rfl
    | abs _ => exact of_row 0xAC rfl rfl rfl
    | abx _ => exact of_row 0xBC rfl rfl rfl
    | aby _ => exact of_no_row rfl rfl
    | izx _ => exact of_no_row rfl rfl
    | izy _ => exact of_no_row rfl rfl

theorem sta (m : MemOperand) : Statement (.sta m) := by
  cases m with
  | zp _ => exact of_row 0x85 rfl rfl rfl
  | zpx _ => exact of_row 0x95 rfl rfl rfl
  | zpy _ => exact of_no_row rfl rfl
  | abs _ => exact of_row 0x8D rfl rfl rfl
  | abx _ => exact of_row 0x9D rfl rfl rfl
  | aby _ => exact of_row 0x99 rfl rfl rfl
  | izx _ => exact of_row 0x81 rfl rfl rfl
  | izy _ => exact of_row 0x91 rfl rfl rfl

theorem stx (m : MemOperand) : Statement (.stx m) := by
  cases m with
  | zp _ => exact of_row 0x86 rfl rfl rfl
  | zpx _ => exact of_no_row rfl rfl
  | zpy _ => exact of_row 0x96 rfl rfl rfl
  | abs _ => exact of_row 0x8E rfl rfl rfl
  | abx _ => exact of_no_row rfl rfl
  | aby _ => exact of_no_row rfl rfl
  | izx _ => exact of_no_row rfl rfl
  | izy _ => exact of_no_row rfl rfl

theorem sty (m : MemOperand) : Statement (.sty m) := by
  cases m with
  | zp _ => exact of_row 0x84 rfl rfl rfl
  | zpx _ => exact of_row 0x94 rfl rfl rfl
  | zpy _ => exact of_no_row rfl rfl
  | abs _ => exact of_row 0x8C rfl rfl rfl
  | abx _ => exact of_no_row rfl rfl
  | aby _ => exact of_no_row rfl rfl
  | izx _ => exact of_no_row rfl rfl
  | izy _ => exact of_no_row rfl rfl

theorem tax : Statement .tax := of_row 0xAA rfl rfl rfl

theorem tay : Statement .tay := of_row 0xA8 rfl rfl rfl

theorem txa : Statement .txa := of_row 0x8A rfl rfl rfl

theorem tya : Statement .tya := of_row 0x98 rfl rfl rfl

theorem tsx : Statement .tsx := of_row 0xBA rfl rfl rfl

theorem txs : Statement .txs := of_row 0x9A rfl rfl rfl

theorem pha : Statement .pha := of_row 0x48 rfl rfl rfl

theorem pla : Statement .pla := of_row 0x68 rfl rfl rfl

theorem php : Statement .php := of_row 0x08 rfl rfl rfl

theorem plp : Statement .plp := of_row 0x28 rfl rfl rfl

theorem adc (o : Source) : Statement (.adc o) := by
  cases o with
  | imm _ => exact of_row 0x69 rfl rfl rfl
  | mem m =>
    cases m with
    | zp _ => exact of_row 0x65 rfl rfl rfl
    | zpx _ => exact of_row 0x75 rfl rfl rfl
    | zpy _ => exact of_no_row rfl rfl
    | abs _ => exact of_row 0x6D rfl rfl rfl
    | abx _ => exact of_row 0x7D rfl rfl rfl
    | aby _ => exact of_row 0x79 rfl rfl rfl
    | izx _ => exact of_row 0x61 rfl rfl rfl
    | izy _ => exact of_row 0x71 rfl rfl rfl

theorem sbc (o : Source) : Statement (.sbc o) := by
  cases o with
  | imm _ => exact of_row 0xE9 rfl rfl rfl
  | mem m =>
    cases m with
    | zp _ => exact of_row 0xE5 rfl rfl rfl
    | zpx _ => exact of_row 0xF5 rfl rfl rfl
    | zpy _ => exact of_no_row rfl rfl
    | abs _ => exact of_row 0xED rfl rfl rfl
    | abx _ => exact of_row 0xFD rfl rfl rfl
    | aby _ => exact of_row 0xF9 rfl rfl rfl
    | izx _ => exact of_row 0xE1 rfl rfl rfl
    | izy _ => exact of_row 0xF1 rfl rfl rfl

theorem and (o : Source) : Statement (.and o) := by
  cases o with
  | imm _ => exact of_row 0x29 rfl rfl rfl
  | mem m =>
    cases m with
    | zp _ => exact of_row 0x25 rfl rfl rfl
    | zpx _ => exact of_row 0x35 rfl rfl rfl
    | zpy _ => exact of_no_row rfl rfl
    | abs _ => exact of_row 0x2D rfl rfl rfl
    | abx _ => exact of_row 0x3D rfl rfl rfl
    | aby _ => exact of_row 0x39 rfl rfl rfl
    | izx _ => exact of_row 0x21 rfl rfl rfl
    | izy _ => exact of_row 0x31 rfl rfl rfl

theorem ora (o : Source) : Statement (.ora o) := by
  cases o with
  | imm _ => exact of_row 0x09 rfl rfl rfl
  | mem m =>
    cases m with
    | zp _ => exact of_row 0x05 rfl rfl rfl
    | zpx _ => exact of_row 0x15 rfl rfl rfl
    | zpy _ => exact of_no_row rfl rfl
    | abs _ => exact of_row 0x0D rfl rfl rfl
    | abx _ => exact of_row 0x1D rfl rfl rfl
    | aby _ => exact of_row 0x19 rfl rfl rfl
    | izx _ => exact of_row 0x01 rfl rfl rfl
    | izy _ => exact of_row 0x11 rfl rfl rfl

theorem eor (o : Source) : Statement (.eor o) := by
  cases o with
  | imm _ => exact of_row 0x49 rfl rfl rfl
  | mem m =>
    cases m with
    | zp _ => exact of_row 0x45 rfl rfl rfl
    | zpx _ => exact of_row 0x55 rfl rfl rfl
    | zpy _ => exact of_no_row rfl rfl
    | abs _ => exact of_row 0x4D rfl rfl rfl
    | abx _ => exact of_row 0x5D rfl rfl rfl
    | aby _ => exact of_row 0x59 rfl rfl rfl
    | izx _ => exact of_row 0x41 rfl rfl rfl
    | izy _ => exact of_row 0x51 rfl rfl rfl

theorem cmp (o : Source) : Statement (.cmp o) := by
  cases o with
  | imm _ => exact of_row 0xC9 rfl rfl rfl
  | mem m =>
    cases m with
    | zp _ => exact of_row 0xC5 rfl rfl rfl
    | zpx _ => exact of_row 0xD5 rfl rfl rfl
    | zpy _ => exact of_no_row rfl rfl
    | abs _ => exact of_row 0xCD rfl rfl rfl
    | abx _ => exact of_row 0xDD rfl rfl rfl
    | aby _ => exact of_row 0xD9 rfl rfl rfl
    | izx _ => exact of_row 0xC1 rfl rfl rfl
    | izy _ => exact of_row 0xD1 rfl rfl rfl

theorem cpx (o : Source) : Statement (.cpx o) := by
  cases o with
  | imm _ => exact of_row 0xE0 rfl rfl rfl
  | mem m =>
    cases m with
    | zp _ => exact of_row 0xE4 rfl rfl rfl
    | zpx _ => exact of_no_row rfl rfl
    | zpy _ => exact of_no_row rfl rfl
    | abs _ => exact of_row 0xEC rfl rfl rfl
    | abx _ => exact of_no_row rfl rfl
    | aby _ => exact of_no_row rfl rfl
    | izx _ => exact of_no_row rfl rfl
    | izy _ => exact of_no_row rfl rfl

theorem cpy (o : Source) : Statement (.cpy o) := by
  cases o with
  | imm _ => exact of_row 0xC0 rfl rfl rfl
  | mem m =>
    cases m with
    | zp _ => exact of_row 0xC4 rfl rfl rfl
    | zpx _ => exact of_no_row rfl rfl
    | zpy _ => exact of_no_row rfl rfl
    | abs _ => exact of_row 0xCC rfl rfl rfl
    | abx _ => exact of_no_row rfl rfl
    | aby _ => exact of_no_row rfl rfl
    | izx _ => exact of_no_row rfl rfl
    | izy _ => exact of_no_row rfl rfl

theorem bit (m : MemOperand) : Statement (.bit m) := by
  cases m with
  | zp _ => exact of_row 0x24 rfl rfl rfl
  | zpx _ => exact of_no_row rfl rfl
  | zpy _ => exact of_no_row rfl rfl
  | abs _ => exact of_row 0x2C rfl rfl rfl
  | abx _ => exact of_no_row rfl rfl
  | aby _ => exact of_no_row rfl rfl
  | izx _ => exact of_no_row rfl rfl
  | izy _ => exact of_no_row rfl rfl

theorem inc (m : MemOperand) : Statement (.inc m) := by
  cases m with
  | zp _ => exact of_row 0xE6 rfl rfl rfl
  | zpx _ => exact of_row 0xF6 rfl rfl rfl
  | zpy _ => exact of_no_row rfl rfl
  | abs _ => exact of_row 0xEE rfl rfl rfl
  | abx _ => exact of_row 0xFE rfl rfl rfl
  | aby _ => exact of_no_row rfl rfl
  | izx _ => exact of_no_row rfl rfl
  | izy _ => exact of_no_row rfl rfl

theorem dec (m : MemOperand) : Statement (.dec m) := by
  cases m with
  | zp _ => exact of_row 0xC6 rfl rfl rfl
  | zpx _ => exact of_row 0xD6 rfl rfl rfl
  | zpy _ => exact of_no_row rfl rfl
  | abs _ => exact of_row 0xCE rfl rfl rfl
  | abx _ => exact of_row 0xDE rfl rfl rfl
  | aby _ => exact of_no_row rfl rfl
  | izx _ => exact of_no_row rfl rfl
  | izy _ => exact of_no_row rfl rfl

theorem inx : Statement .inx := of_row 0xE8 rfl rfl rfl

theorem iny : Statement .iny := of_row 0xC8 rfl rfl rfl

theorem dex : Statement .dex := of_row 0xCA rfl rfl rfl

theorem dey : Statement .dey := of_row 0x88 rfl rfl rfl

theorem asl (t : Target) : Statement (.asl t) := by
  cases t with
  | acc => exact of_row 0x0A rfl rfl rfl
  | mem m =>
    cases m with
    | zp _ => exact of_row 0x06 rfl rfl rfl
    | zpx _ => exact of_row 0x16 rfl rfl rfl
    | zpy _ => exact of_no_row rfl rfl
    | abs _ => exact of_row 0x0E rfl rfl rfl
    | abx _ => exact of_row 0x1E rfl rfl rfl
    | aby _ => exact of_no_row rfl rfl
    | izx _ => exact of_no_row rfl rfl
    | izy _ => exact of_no_row rfl rfl

theorem lsr (t : Target) : Statement (.lsr t) := by
  cases t with
  | acc => exact of_row 0x4A rfl rfl rfl
  | mem m =>
    cases m with
    | zp _ => exact of_row 0x46 rfl rfl rfl
    | zpx _ => exact of_row 0x56 rfl rfl rfl
    | zpy _ => exact of_no_row rfl rfl
    | abs _ => exact of_row 0x4E rfl rfl rfl
    | abx _ => exact of_row 0x5E rfl rfl rfl
    | aby _ => exact of_no_row rfl rfl
    | izx _ => exact of_no_row rfl rfl
    | izy _ => exact of_no_row rfl rfl

theorem rol (t : Target) : Statement (.rol t) := by
  cases t with
  | acc => exact of_row 0x2A rfl rfl rfl
  | mem m =>
    cases m with
    | zp _ => exact of_row 0x26 rfl rfl rfl
    | zpx _ => exact of_row 0x36 rfl rfl rfl
    | zpy _ => exact of_no_row rfl rfl
    | abs _ => exact of_row 0x2E rfl rfl rfl
    | abx _ => exact of_row 0x3E rfl rfl rfl
    | aby _ => exact of_no_row rfl rfl
    | izx _ => exact of_no_row rfl rfl
    | izy _ => exact of_no_row rfl rfl

theorem ror (t : Target) : Statement (.ror t) := by
  cases t with
  | acc => exact of_row 0x6A rfl rfl rfl
  | mem m =>
    cases m with
    | zp _ => exact of_row 0x66 rfl rfl rfl
    | zpx _ => exact of_row 0x76 rfl rfl rfl
    | zpy _ => exact of_no_row rfl rfl
    | abs _ => exact of_row 0x6E rfl rfl rfl
    | abx _ => exact of_row 0x7E rfl rfl rfl
    | aby _ => exact of_no_row rfl rfl
    | izx _ => exact of_no_row rfl rfl
    | izy _ => exact of_no_row rfl rfl

theorem jmp (t : JumpTarget) : Statement (.jmp t) := by
  cases t with
  | abs _ => exact of_row 0x4C rfl rfl rfl
  | ind _ => exact of_row 0x6C rfl rfl rfl

theorem jsr (a : Word) : Statement (.jsr a) := of_row 0x20 rfl rfl rfl

theorem rts : Statement .rts := of_row 0x60 rfl rfl rfl

theorem bpl (d : Byte) : Statement (.bpl d) := of_row 0x10 rfl rfl rfl

theorem bmi (d : Byte) : Statement (.bmi d) := of_row 0x30 rfl rfl rfl

theorem bvc (d : Byte) : Statement (.bvc d) := of_row 0x50 rfl rfl rfl

theorem bvs (d : Byte) : Statement (.bvs d) := of_row 0x70 rfl rfl rfl

theorem bcc (d : Byte) : Statement (.bcc d) := of_row 0x90 rfl rfl rfl

theorem bcs (d : Byte) : Statement (.bcs d) := of_row 0xB0 rfl rfl rfl

theorem bne (d : Byte) : Statement (.bne d) := of_row 0xD0 rfl rfl rfl

theorem beq (d : Byte) : Statement (.beq d) := of_row 0xF0 rfl rfl rfl

theorem brk : Statement .brk := of_row 0x00 rfl rfl rfl

theorem rti : Statement .rti := of_row 0x40 rfl rfl rfl

theorem clc : Statement .clc := of_row 0x18 rfl rfl rfl

theorem sec : Statement .sec := of_row 0x38 rfl rfl rfl

theorem cli : Statement .cli := of_row 0x58 rfl rfl rfl

theorem sei : Statement .sei := of_row 0x78 rfl rfl rfl

theorem cld : Statement .cld := of_row 0xD8 rfl rfl rfl

theorem sed : Statement .sed := of_row 0xF8 rfl rfl rfl

theorem clv : Statement .clv := of_row 0xB8 rfl rfl rfl

theorem nop : Statement .nop := of_row 0xEA rfl rfl rfl

theorem slo (m : MemOperand) : Statement (.slo m) := by
  cases m with
  | zp _ => exact of_row 0x07 rfl rfl rfl
  | zpx _ => exact of_row 0x17 rfl rfl rfl
  | zpy _ => exact of_no_row rfl rfl
  | abs _ => exact of_row 0x0F rfl rfl rfl
  | abx _ => exact of_row 0x1F rfl rfl rfl
  | aby _ => exact of_row 0x1B rfl rfl rfl
  | izx _ => exact of_row 0x03 rfl rfl rfl
  | izy _ => exact of_row 0x13 rfl rfl rfl

/-- The opcodes of every operand form have that form's length. -/
theorem opLength_nop (op : Byte) (o : NopOperand) (h : (nopOpcodes o).contains op = true) :
    opLength op = (Instr.nopUnofficial op o).length := by
  have row : ∀ l : List Byte, ∀ n : Nat, l.all (fun b => opLength b == n) = true →
      l.contains op = true → opLength op = n := by
    intro l n hl hc
    have := List.all_eq_true.mp hl op (by simpa using hc)
    simpa using this
  cases o with
  | imp => exact row _ 1 rfl h
  | imm _ => exact row _ 2 rfl h
  | zp _ => exact row _ 2 rfl h
  | zpx _ => exact row _ 2 rfl h
  | abs _ => exact row _ 3 rfl h
  | abx _ => exact row _ 3 rfl h

theorem nopUnofficial (op : Byte) (o : NopOperand) : Statement (.nopUnofficial op o) := by
  by_cases h : (nopOpcodes o).contains op = true
  · exact of_row op h (if_pos h) (opLength_nop op o h)
  · exact of_no_row (by simpa [Instr.wf] using h) (if_neg h)

/-- The halting opcodes are one byte long. -/
theorem opLength_halt (op : Byte) (h : (kilOpcodes ++ unknownOpcodes).contains op = true) :
    opLength op = 1 := by
  have hl : (kilOpcodes ++ unknownOpcodes).all (fun b => opLength b == 1) = true := by decide
  have := List.all_eq_true.mp hl op (by simpa using h)
  simpa using this

theorem kil (op : Byte) : Statement (.kil op) := by
  by_cases h : kilOpcodes.contains op = true
  · refine of_row op h (if_pos h) (opLength_halt op ?_)
    simp only [List.contains_eq_mem, decide_eq_true_eq] at h
    simp [h]
  · exact of_no_row (by simpa [Instr.wf] using h) (if_neg h)

theorem unknown (op : Byte) : Statement (.unknown op) := by
  by_cases h : unknownOpcodes.contains op = true
  · refine of_row op h (if_pos h) (opLength_halt op ?_)
    simp only [List.contains_eq_mem, decide_eq_true_eq] at h
    simp [h]
  · exact of_no_row (by simpa [Instr.wf] using h) (if_neg h)

end Sys2Proof.Laws.Encoding
end

