-- ==== Sys2Proof/Laws/Step.lean ====
section
/-! SUPPORT. Laws of the driver's step: what a fetch, a sub-cycle, the advance and the end of a step can
do, each said once, and the parts of the invariant's proof. -/

namespace Sys2Proof.Machine

open Sys2Proof

/-! Fetch. -/

theorem Keeps.fetchByte {q : State → Prop} (k : Keeps q) {s : State} (h : q s) :
    q s.fetchByte.2 := k.setPc _ _ (k.busRead _ _ h)

theorem Keeps.fetchInstr {q : State → Prop} (k : Keeps q) {s : State} (h : q s) :
    q s.fetchInstr.2 := by
  unfold State.fetchInstr
  dsimp only
  split
  · exact k.fetchByte h
  · split
    · exact k.fetchByte (k.fetchByte h)
    · exact k.fetchByte (k.fetchByte (k.fetchByte h))

/-! The sub-cycle. -/

@[simp] theorem ppuTick_cpu (s : State) : s.ppuTick.cpu = s.cpu := rfl
@[simp] theorem ppuTick_ram (s : State) : s.ppuTick.ram = s.ram := rfl
@[simp] theorem ppuTick_pads (s : State) : s.ppuTick.pads = s.pads := rfl
@[simp] theorem ppuTick_params (s : State) : s.ppuTick.params = s.params := rfl
@[simp] theorem ppuTick_fatal (s : State) : s.ppuTick.driver.fatal = s.driver.fatal := rfl
@[simp] theorem ppuTick_stepCycles (s : State) :
    s.ppuTick.driver.stepCycles = s.driver.stepCycles := rfl
@[simp] theorem ppuTick_poweredOn (s : State) :
    s.ppuTick.driver.poweredOn = s.driver.poweredOn := rfl

theorem ppuTick_inv {s : State} (h : s.Inv) : s.ppuTick.Inv where
  cpu := h.cpu
  ramWf := h.ramWf
  ramBelow := h.ramBelow
  ppu := h.ppu.advancePosition.event s.cart
  cart := ppuEvent_keeps (fun _ h => h.scanlineClock) _ h.cart
  fatal := h.fatal

/-- A property of the machine that the two interrupt entries are built of keep, and the
acknowledgement of an NMI too, is kept by the two checks. -/
theorem deliverNmi_keeps {q : State → Prop} (hn : ∀ s, q s → q s.cpuNmi)
    (ha : ∀ s : State, q s → q { s with ppu := { s.ppu with nmiOccurred := false } }) {s : State}
    (h : q s) : q s.deliverNmi := by
  unfold State.deliverNmi
  split
  · exact ha _ (hn _ h)
  · exact h

theorem deliverIrq_keeps {q : State → Prop} (hi : ∀ s, q s → q s.cpuIrq) {s : State} (h : q s) :
    q s.deliverIrq := by
  unfold State.deliverIrq
  split
  · exact hi _ h
  · exact h

/-- What a tick, the two entries and the acknowledgement keep, the advance keeps. -/
theorem advance_keeps {q : State → Prop} (ht : ∀ s, q s → q s.ppuTick)
    (hn : ∀ s, q s → q s.cpuNmi) (hi : ∀ s, q s → q s.cpuIrq)
    (ha : ∀ s : State, q s → q { s with ppu := { s.ppu with nmiOccurred := false } }) (n : Nat)
    {s : State} (h : q s) : q (State.advance n s) := by
  induction n generalizing s with
  | zero => exact h
  | succ n ih => exact ih (deliverIrq_keeps hi (deliverNmi_keeps hn ha (ht _ h)))

theorem acknowledge_inv {s : State} (h : s.Inv) :
    State.Inv { s with ppu := { s.ppu with nmiOccurred := false } } :=
  { cpu := h.cpu, ramWf := h.ramWf, ramBelow := h.ramBelow,
    ppu := h.ppu.congr rfl rfl rfl rfl rfl rfl, cart := h.cart, fatal := h.fatal }

theorem advance_inv (n : Nat) {s : State} (h : s.Inv) : (State.advance n s).Inv :=
  advance_keeps (q := State.Inv) (fun _ => ppuTick_inv) (fun _ => cpuNmi_inv) (fun _ => cpuIrq_inv)
    (fun _ => acknowledge_inv) n h

/-- The advance never halts the CPU and never restarts it. -/
theorem advance_halted (n : Nat) (s : State) :
    (State.advance n s).cpu.halted = s.cpu.halted :=
  advance_keeps (q := fun t => t.cpu.halted = s.cpu.halted) (fun _ h => h)
    (fun _ h => by rw [cpuNmi_halted]; exact h) (fun _ h => by rw [cpuIrq_halted]; exact h)
    (fun _ h => h) n rfl

/-! What an interrupt entry can do. -/

/-- NMI entry changes only registers of the CPU and CPU RAM (R216). -/
theorem cpuNmi_frame (s : State) :
    s.cpuNmi = { s with ram := s.cpuNmi.ram, cpu := s.cpuNmi.cpu } := by
  unfold State.cpuNmi
  split
  · rfl
  · rw [enterVector_eq _ _ _ (by decide) (by decide)]; rfl

theorem cpuIrq_frame (s : State) :
    s.cpuIrq = { s with ram := s.cpuIrq.ram, cpu := s.cpuIrq.cpu } := by
  unfold State.cpuIrq
  split
  · rfl
  · split
    · rfl
    · rw [enterVector_eq _ _ _ (by decide) (by decide)]; rfl

/-- Everything CpuReset does (spec/60_exceptions.md R211). -/
theorem cpuReset_eq (s : State) :
    s.cpuReset = { s with cpu :=
      { a := 0, x := 0, y := 0, sp := 0xFD, p := 0x24, halted := none, extraCycles := 0,
        pc := word16 (s.cart.cpuRead 0xFFFD) (s.cart.cpuRead 0xFFFC) } } := by
  unfold State.cpuReset
  dsimp only
  rw [read16_vector _ (by decide) (by decide)]
  rfl

/-- The advance keeps every property of the cartridge that the scanline clock keeps. -/
theorem advance_cart {q : Cart → Prop} (hs : ∀ c : Cart, q c → q c.scanlineClock) (n : Nat)
    {s : State} (h : q s.cart) : q (State.advance n s).cart :=
  advance_keeps (q := fun t => q t.cart)
    (fun _ h => ppuEvent_keeps hs _ h)
    (fun s h => by rw [cpuNmi_frame]; exact h) (fun s h => by rw [cpuIrq_frame]; exact h)
    (fun _ h => h) n h

/-- The advance changes of the driver's state only frameComplete, and neither the parameters nor the
controllers. -/
theorem advance_outside (n : Nat) (s : State) :
    (State.advance n s).params = s.params ∧ (State.advance n s).pads = s.pads
      ∧ (State.advance n s).driver
        = { s.driver with frameComplete := (State.advance n s).driver.frameComplete } :=
  advance_keeps
    (q := fun t => t.params = s.params ∧ t.pads = s.pads
      ∧ t.driver = { s.driver with frameComplete := t.driver.frameComplete })
    (fun t h => ⟨h.1, h.2.1, by
      have e := h.2.2
      unfold State.ppuTick
      dsimp only
      rw [e]⟩)
    (fun t h => by rw [cpuNmi_frame]; exact h) (fun t h => by rw [cpuIrq_frame]; exact h)
    (fun _ h => h) n ⟨rfl, rfl, rfl⟩

/-! The end of a step. -/

theorem finishStep_halted {s : State} {h : Byte × Word} (e : s.cpu.halted = some h) (c : Nat) :
    s.finishStep c = { s with driver :=
      { s.driver with fatal := some (.cpuHalt h.1 h.2), stepCycles := none } } := by
  unfold State.finishStep; rw [e]

theorem finishStep_running {s : State} (e : s.cpu.halted = none) (c : Nat) :
    s.finishStep c = State.advance (3 * (c + s.cpu.extraCycles))
      { s with
        cpu := { s.cpu with extraCycles := 0 },
        driver := { s.driver with
          frameComplete := false, stepCycles := some (c + s.cpu.extraCycles) } } := by
  unfold State.finishStep; rw [e]

/-- The end of a running step keeps the invariant. -/
theorem finishStep_inv {s : State} (h : s.Inv) (e : s.cpu.halted = none) (c : Nat) :
    (s.finishStep c).Inv := by
  rw [finishStep_running e]
  exact advance_inv _
    { cpu := { uIsOne := h.cpu.uIsOne, bIsZero := h.cpu.bIsZero, haltedAt := h.cpu.haltedAt },
      ramWf := h.ramWf, ramBelow := h.ramBelow, ppu := h.ppu, cart := h.cart, fatal := h.fatal }

/-- A step that answers a next state ran an instruction of a powered-on, running machine. -/
theorem step_next {s t : State} (h : step s = .next t) :
    s.driver.poweredOn = true ∧ s.cpu.halted = none
      ∧ ∃ u, exec s.fetchInstr.1 s.fetchInstr.2 = .next u
        ∧ t = u.finishStep (rowCycles s.fetchInstr.1 s.fetchInstr.2) := by
  unfold step at h
  split at h
  case isFalse => cases h
  case isTrue hp =>
    split at h
    case h_1 => cases h
    case h_2 hn =>
      obtain ⟨u, hu⟩ := exec_answers s.fetchInstr.1 s.fetchInstr.2
      refine ⟨hp, hn, u, hu, ?_⟩
      unfold runInstr at h
      rw [hu] at h
      cases h
      rfl

/-- A powered-on, running machine's step. -/
theorem step_running {s : State} (hp : s.driver.poweredOn = true) (hn : s.cpu.halted = none) :
    step s = runInstr s.fetchInstr.1 s.fetchInstr.2 := by
  unfold step
  rw [if_pos hp, hn]

end Sys2Proof.Machine
end

