-- ==== Sys2Proof/Tests/Slice0.lean ====
section
/-! SUPPORT. The model's own tests: what WellFormed refuses; words written out from the spec's
encodings; one step of each instruction, with the expected values of spec/95_test_vectors.md section 2
unless a comment names another rule; platform vectors of its sections 1 and 3; and, for every statement
with hypotheses, a concrete state that meets them. -/

namespace Sys2Proof.Tests

open Sys2Proof Sys2Proof.Machine Sys2Proof.Claims

set_option Elab.async false

/-! Helpers. -/

/-- The state after reset with the given registers, PC = $0400, RAM and NROM program bytes. -/
def at0400 (a x y sp p : Byte) (ram : Memory) (rom : Memory := []) : State :=
  { State.reset with
    cpu := { a := a, x := x, y := y, sp := sp, pc := 0x0400, p := p, halted := none, extraCycles := 0 },
    ram := ram,
    cart := { State.reset.cart with prgRom := rom } }

/-- f holds of the state one step leads to. -/
def after (s : State) (f : State → Bool) : Bool :=
  match step s with
  | .next t => f t
  | .fault _ => false
  | .refused _ => false

/-- A, X, Y, SP, P and PC. -/
def regs (t : State) : List Nat :=
  [t.cpu.a.toNat, t.cpu.x.toNat, t.cpu.y.toNat, t.cpu.sp.toNat, t.cpu.p.toNat, t.cpu.pc.toNat]

/-- The registers, the reported cycle count, and bytes of RAM (by index) after one step. -/
def gives (s : State) (rs : List Nat) (cycles : Nat) (mem : List (Nat × Byte) := []) : Bool :=
  after s (fun t => regs t == rs && t.driver.stepCycles == some cycles
    && mem.all (fun c => t.ram.read c.1 == c.2))

/-! WellFormed: every check refuses an ill-formed term. -/

theorem test_illFormed_lda : Instr.wf (.lda (.mem (.zpy 0x10))) = false := rfl
theorem test_illFormed_ldx : Instr.wf (.ldx (.mem (.zpx 0x10))) = false := rfl
theorem test_illFormed_ldy : Instr.wf (.ldy (.mem (.aby 0x1234))) = false := rfl
theorem test_illFormed_sta : Instr.wf (.sta (.zpy 0x10)) = false := rfl
theorem test_illFormed_stx : Instr.wf (.stx (.aby 0x1234)) = false := rfl
theorem test_illFormed_sty : Instr.wf (.sty (.abx 0x1234)) = false := rfl
theorem test_illFormed_adc : Instr.wf (.adc (.mem (.zpy 0x10))) = false := rfl
theorem test_illFormed_sbc : Instr.wf (.sbc (.mem (.zpy 0x10))) = false := rfl
theorem test_illFormed_and : Instr.wf (.and (.mem (.zpy 0x10))) = false := rfl
theorem test_illFormed_ora : Instr.wf (.ora (.mem (.zpy 0x10))) = false := rfl
theorem test_illFormed_eor : Instr.wf (.eor (.mem (.zpy 0x10))) = false := rfl
theorem test_illFormed_cmp : Instr.wf (.cmp (.mem (.zpy 0x10))) = false := rfl
theorem test_illFormed_cpx : Instr.wf (.cpx (.mem (.zpx 0x10))) = false := rfl
theorem test_illFormed_cpy : Instr.wf (.cpy (.mem (.abx 0x1234))) = false := rfl
theorem test_illFormed_bit : Instr.wf (.bit (.abx 0x1234)) = false := rfl
theorem test_illFormed_inc : Instr.wf (.inc (.izx 0x10)) = false := rfl
theorem test_illFormed_dec : Instr.wf (.dec (.aby 0x1234)) = false := rfl
theorem test_illFormed_asl : Instr.wf (.asl (.mem (.izy 0x10))) = false := rfl
theorem test_illFormed_lsr : Instr.wf (.lsr (.mem (.aby 0x1234))) = false := rfl
theorem test_illFormed_rol : Instr.wf (.rol (.mem (.zpy 0x10))) = false := rfl
theorem test_illFormed_ror : Instr.wf (.ror (.mem (.izx 0x10))) = false := rfl
theorem test_illFormed_slo : Instr.wf (.slo (.zpy 0x10)) = false := rfl
theorem test_illFormed_nopUnofficial : Instr.wf (.nopUnofficial 0xEA .imp) = false := rfl
theorem test_illFormed_nopForm : Instr.wf (.nopUnofficial 0x0C (.zp 0x10)) = false := rfl
theorem test_illFormed_kil : Instr.wf (.kil 0x00) = false := rfl
theorem test_illFormed_unknown : Instr.wf (.unknown 0x02) = false := rfl

/-! Decoding: words written out bit by bit from the Encoding lines (spec/40 to spec/45, R91, R100).
The comment beside a family gives its rules. -/

/-- Loads, stores, transfers and stack: R120 to R135. -/
theorem test_decode_loadStore :
    decode [0b10100101, 0x10] = .ok (.lda (.mem (.zp 0x10)), [])
      ∧ decode [0b10111110, 0x34, 0x12] = .ok (.ldx (.mem (.aby 0x1234)), [])
      ∧ decode [0b10110100, 0x10] = .ok (.ldy (.mem (.zpx 0x10)), [])
      ∧ decode [0b10010001, 0x20] = .ok (.sta (.izy 0x20), [])
      ∧ decode [0b10010110, 0x20] = .ok (.stx (.zpy 0x20), [])
      ∧ decode [0b10001100, 0x00, 0x40] = .ok (.sty (.abs 0x4000), [])
      ∧ decode [0b10101010] = .ok (.tax, []) ∧ decode [0b10101000] = .ok (.tay, [])
      ∧ decode [0b10001010] = .ok (.txa, []) ∧ decode [0b10011000] = .ok (.tya, [])
      ∧ decode [0b10111010] = .ok (.tsx, []) ∧ decode [0b10011010] = .ok (.txs, [])
      ∧ decode [0b01001000] = .ok (.pha, []) ∧ decode [0b01101000] = .ok (.pla, [])
      ∧ decode [0b00001000] = .ok (.php, []) ∧ decode [0b00101000] = .ok (.plp, []) :=
  ⟨rfl, rfl, rfl, rfl, rfl, rfl, rfl, rfl, rfl, rfl, rfl, rfl, rfl, rfl, rfl, rfl⟩

/-- Arithmetic and logic: R140 to R154. -/
theorem test_decode_arithmetic :
    decode [0b01100001, 0x44] = .ok (.adc (.mem (.izx 0x44)), [])
      ∧ decode [0b11111001, 0x00, 0x03] = .ok (.sbc (.mem (.aby 0x0300)), [])
      ∧ decode [0b00110001, 0x44] = .ok (.and (.mem (.izy 0x44)), [])
      ∧ decode [0b00011101, 0x00, 0x03] = .ok (.ora (.mem (.abx 0x0300)), [])
      ∧ decode [0b01001001, 0xFF] = .ok (.eor (.imm 0xFF), [])
      ∧ decode [0b11010101, 0x44] = .ok (.cmp (.mem (.zpx 0x44)), [])
      ∧ decode [0b11101100, 0x34, 0x12] = .ok (.cpx (.mem (.abs 0x1234)), [])
      ∧ decode [0b11000000, 0x01] = .ok (.cpy (.imm 0x01), [])
      ∧ decode [0b00101100, 0x02, 0x20] = .ok (.bit (.abs 0x2002), [])
      ∧ decode [0b11110110, 0x44] = .ok (.inc (.zpx 0x44), [])
      ∧ decode [0b11011110, 0x34, 0x12] = .ok (.dec (.abx 0x1234), [])
      ∧ decode [0b11101000] = .ok (.inx, []) ∧ decode [0b11001000] = .ok (.iny, [])
      ∧ decode [0b11001010] = .ok (.dex, []) ∧ decode [0b10001000] = .ok (.dey, []) :=
  ⟨rfl, rfl, rfl, rfl, rfl, rfl, rfl, rfl, rfl, rfl, rfl, rfl, rfl, rfl, rfl⟩

/-- Shifts: R160 to R163. -/
theorem test_decode_shifts :
    decode [0b00001010] = .ok (.asl .acc, [])
      ∧ decode [0b01000110, 0x10] = .ok (.lsr (.mem (.zp 0x10)), [])
      ∧ decode [0b00101110, 0x34, 0x12] = .ok (.rol (.mem (.abs 0x1234)), [])
      ∧ decode [0b01110110, 0x10] = .ok (.ror (.mem (.zpx 0x10)), []) :=
  ⟨rfl, rfl, rfl, rfl⟩

/-- Control transfer: R170 to R184. -/
theorem test_decode_control :
    decode [0b01001100, 0x34, 0x12] = .ok (.jmp (.abs 0x1234), [])
      ∧ decode [0b00100000, 0x34, 0x12] = .ok (.jsr 0x1234, [])
      ∧ decode [0b01100000] = .ok (.rts, [])
      ∧ decode [0b00010000, 0x80] = .ok (.bpl 0x80, [])
      ∧ decode [0b00110000, 0x7F] = .ok (.bmi 0x7F, [])
      ∧ decode [0b01010000, 0x00] = .ok (.bvc 0x00, [])
      ∧ decode [0b01110000, 0x01] = .ok (.bvs 0x01, [])
      ∧ decode [0b10010000, 0x02] = .ok (.bcc 0x02, [])
      ∧ decode [0b10110000, 0x03] = .ok (.bcs 0x03, [])
      ∧ decode [0b11010000, 0x04] = .ok (.bne 0x04, [])
      ∧ decode [0b11110000, 0x05] = .ok (.beq 0x05, [])
      ∧ decode [0b01000000] = .ok (.rti, []) :=
  ⟨rfl, rfl, rfl, rfl, rfl, rfl, rfl, rfl, rfl, rfl, rfl, rfl⟩

/-- Flags, NOP and the unofficial opcodes: R190 to R204. -/
theorem test_decode_flagsAndUnofficial :
    decode [0b00011000] = .ok (.clc, []) ∧ decode [0b00111000] = .ok (.sec, [])
      ∧ decode [0b01111000] = .ok (.sei, []) ∧ decode [0b11011000] = .ok (.cld, [])
      ∧ decode [0b11111000] = .ok (.sed, []) ∧ decode [0b10111000] = .ok (.clv, [])
      ∧ decode [0b11101010] = .ok (.nop, [])
      ∧ decode [0b00000011, 0x20] = .ok (.slo (.izx 0x20), [])
      ∧ decode [0b10000000, 0x55] = .ok (.nopUnofficial 0x80 (.imm 0x55), [])
      ∧ decode [0b11111100, 0x34, 0x12] = .ok (.nopUnofficial 0xFC (.abx 0x1234), [])
      ∧ decode [0b00000010] = .ok (.kil 0x02, []) ∧ decode [0b11101011] = .ok (.unknown 0xEB, []) :=
  ⟨rfl, rfl, rfl, rfl, rfl, rfl, rfl, rfl, rfl, rfl, rfl, rfl⟩

/-- Bytes that end inside an instruction are rejected by name (R98). -/
theorem test_decode_tooShort :
    (match decode [0x4C, 0x34] with
      | .ok _ => false
      | .error _ => true) = true := rfl

/-! The opcode table: lengths and base cycles of all 256 rows (spec/opcode_table.json, R106). A halting
row has no count in the table; 0 stands for it here. -/

theorem test_table_0 :
    (List.range 16).map (fun n => opLength (BitVec.ofNat 8 (0 + n)))
        = [1, 2, 1, 2, 2, 2, 2, 2, 1, 2, 1, 1, 3, 3, 3, 3]
      ∧ (List.range 16).map (fun n => baseCycles (decodeOp (BitVec.ofNat 8 (0 + n)) 0 0))
        = [7, 6, 0, 8, 3, 3, 5, 5, 3, 2, 2, 0, 4, 4, 6, 6] := by
  decide +kernel

theorem test_table_1 :
    (List.range 16).map (fun n => opLength (BitVec.ofNat 8 (16 + n)))
        = [2, 2, 1, 2, 2, 2, 2, 2, 1, 3, 1, 3, 3, 3, 3, 3]
      ∧ (List.range 16).map (fun n => baseCycles (decodeOp (BitVec.ofNat 8 (16 + n)) 0 0))
        = [2, 5, 0, 8, 4, 4, 6, 6, 2, 4, 2, 7, 4, 4, 7, 7] := by
  decide +kernel

theorem test_table_2 :
    (List.range 16).map (fun n => opLength (BitVec.ofNat 8 (32 + n)))
        = [3, 2, 1, 1, 2, 2, 2, 1, 1, 2, 1, 1, 3, 3, 3, 1]
      ∧ (List.range 16).map (fun n => baseCycles (decodeOp (BitVec.ofNat 8 (32 + n)) 0 0))
        = [6, 6, 0, 0, 3, 3, 5, 0, 4, 2, 2, 0, 4, 4, 6, 0] := by
  decide +kernel

theorem test_table_3 :
    (List.range 16).map (fun n => opLength (BitVec.ofNat 8 (48 + n)))
        = [2, 2, 1, 1, 2, 2, 2, 1, 1, 3, 1, 1, 3, 3, 3, 1]
      ∧ (List.range 16).map (fun n => baseCycles (decodeOp (BitVec.ofNat 8 (48 + n)) 0 0))
        = [2, 5, 0, 0, 4, 4, 6, 0, 2, 4, 2, 0, 4, 4, 7, 0] := by
  decide +kernel

theorem test_table_4 :
    (List.range 16).map (fun n => opLength (BitVec.ofNat 8 (64 + n)))
        = [1, 2, 1, 1, 2, 2, 2, 1, 1, 2, 1, 1, 3, 3, 3, 1]
      ∧ (List.range 16).map (fun n => baseCycles (decodeOp (BitVec.ofNat 8 (64 + n)) 0 0))
        = [6, 6, 0, 0, 3, 3, 5, 0, 3, 2, 2, 0, 3, 4, 6, 0] := by
  decide +kernel

theorem test_table_5 :
    (List.range 16).map (fun n => opLength (BitVec.ofNat 8 (80 + n)))
        = [2, 2, 1, 1, 2, 2, 2, 1, 1, 3, 1, 1, 3, 3, 3, 1]
      ∧ (List.range 16).map (fun n => baseCycles (decodeOp (BitVec.ofNat 8 (80 + n)) 0 0))
        = [2, 5, 0, 0, 4, 4, 6, 0, 2, 4, 2, 0, 4, 4, 7, 0] := by
  decide +kernel

theorem test_table_6 :
    (List.range 16).map (fun n => opLength (BitVec.ofNat 8 (96 + n)))
        = [1, 2, 1, 1, 2, 2, 2, 1, 1, 2, 1, 1, 3, 3, 3, 1]
      ∧ (List.range 16).map (fun n => baseCycles (decodeOp (BitVec.ofNat 8 (96 + n)) 0 0))
        = [6, 6, 0, 0, 3, 3, 5, 0, 4, 2, 2, 0, 5, 4, 6, 0] := by
  decide +kernel

theorem test_table_7 :
    (List.range 16).map (fun n => opLength (BitVec.ofNat 8 (112 + n)))
        = [2, 2, 1, 1, 2, 2, 2, 1, 1, 3, 1, 1, 3, 3, 3, 1]
      ∧ (List.range 16).map (fun n => baseCycles (decodeOp (BitVec.ofNat 8 (112 + n)) 0 0))
        = [2, 5, 0, 0, 4, 4, 6, 0, 2, 4, 2, 0, 4, 4, 7, 0] := by
  decide +kernel

theorem test_table_8 :
    (List.range 16).map (fun n => opLength (BitVec.ofNat 8 (128 + n)))
        = [2, 2, 2, 1, 2, 2, 2, 1, 1, 2, 1, 1, 3, 3, 3, 1]
      ∧ (List.range 16).map (fun n => baseCycles (decodeOp (BitVec.ofNat 8 (128 + n)) 0 0))
        = [2, 6, 2, 0, 3, 3, 3, 0, 2, 2, 2, 0, 4, 4, 4, 0] := by
  decide +kernel

theorem test_table_9 :
    (List.range 16).map (fun n => opLength (BitVec.ofNat 8 (144 + n)))
        = [2, 2, 1, 1, 2, 2, 2, 1, 1, 3, 1, 1, 1, 3, 1, 1]
      ∧ (List.range 16).map (fun n => baseCycles (decodeOp (BitVec.ofNat 8 (144 + n)) 0 0))
        = [2, 6, 0, 0, 4, 4, 4, 0, 2, 5, 2, 0, 0, 5, 0, 0] := by
  decide +kernel

theorem test_table_A :
    (List.range 16).map (fun n => opLength (BitVec.ofNat 8 (160 + n)))
        = [2, 2, 2, 1, 2, 2, 2, 1, 1, 2, 1, 1, 3, 3, 3, 1]
      ∧ (List.range 16).map (fun n => baseCycles (decodeOp (BitVec.ofNat 8 (160 + n)) 0 0))
        = [2, 6, 2, 0, 3, 3, 3, 0, 2, 2, 2, 0, 4, 4, 4, 0] := by
  decide +kernel

theorem test_table_B :
    (List.range 16).map (fun n => opLength (BitVec.ofNat 8 (176 + n)))
        = [2, 2, 1, 1, 2, 2, 2, 1, 1, 3, 1, 1, 3, 3, 3, 1]
      ∧ (List.range 16).map (fun n => baseCycles (decodeOp (BitVec.ofNat 8 (176 + n)) 0 0))
        = [2, 5, 0, 0, 4, 4, 4, 0, 2, 4, 2, 0, 4, 4, 4, 0] := by
  decide +kernel

theorem test_table_C :
    (List.range 16).map (fun n => opLength (BitVec.ofNat 8 (192 + n)))
        = [2, 2, 2, 1, 2, 2, 2, 1, 1, 2, 1, 1, 3, 3, 3, 1]
      ∧ (List.range 16).map (fun n => baseCycles (decodeOp (BitVec.ofNat 8 (192 + n)) 0 0))
        = [2, 6, 2, 0, 3, 3, 5, 0, 2, 2, 2, 0, 4, 4, 6, 0] := by
  decide +kernel

theorem test_table_D :
    (List.range 16).map (fun n => opLength (BitVec.ofNat 8 (208 + n)))
        = [2, 2, 1, 1, 2, 2, 2, 1, 1, 3, 1, 1, 3, 3, 3, 1]
      ∧ (List.range 16).map (fun n => baseCycles (decodeOp (BitVec.ofNat 8 (208 + n)) 0 0))
        = [2, 5, 0, 0, 4, 4, 6, 0, 2, 4, 2, 0, 4, 4, 7, 0] := by
  decide +kernel

theorem test_table_E :
    (List.range 16).map (fun n => opLength (BitVec.ofNat 8 (224 + n)))
        = [2, 2, 2, 1, 2, 2, 2, 1, 1, 2, 1, 1, 3, 3, 3, 1]
      ∧ (List.range 16).map (fun n => baseCycles (decodeOp (BitVec.ofNat 8 (224 + n)) 0 0))
        = [2, 6, 2, 0, 3, 3, 5, 0, 2, 2, 2, 0, 4, 4, 6, 0] := by
  decide +kernel

theorem test_table_F :
    (List.range 16).map (fun n => opLength (BitVec.ofNat 8 (240 + n)))
        = [2, 2, 1, 1, 2, 2, 2, 1, 1, 3, 1, 1, 3, 3, 3, 1]
      ∧ (List.range 16).map (fun n => baseCycles (decodeOp (BitVec.ofNat 8 (240 + n)) 0 0))
        = [2, 5, 0, 0, 4, 4, 6, 0, 2, 4, 2, 0, 4, 4, 7, 0] := by
  decide +kernel

/-- The numbers of halting, unknown, unofficial NOP and SLO rows (R101, R200 to R204). -/
theorem test_table_classes :
    ((List.range 256).filter (fun n => match decodeOp (BitVec.ofNat 8 n) 0 0 with
        | .kil _ => true | _ => false)).length = 12
      ∧ ((List.range 256).filter (fun n => match decodeOp (BitVec.ofNat 8 n) 0 0 with
        | .unknown _ => true | _ => false)).length = 59
      ∧ ((List.range 256).filter (fun n => match decodeOp (BitVec.ofNat 8 n) 0 0 with
        | .nopUnofficial _ _ => true | _ => false)).length = 27
      ∧ ((List.range 256).filter (fun n => match decodeOp (BitVec.ofNat 8 n) 0 0 with
        | .slo _ => true | _ => false)).length = 7 := by
  decide +kernel

/-! One step of each instruction. The registers are listed as A X Y SP P PC. -/

theorem test_lda_negative :
    gives (at0400 0x00 0x00 0x00 0xFD 0x24 [(0x0400, 0xA9), (0x0401, 0x80)])
      [0x80, 0x00, 0x00, 0xFD, 0xA4, 0x402] 2 = true := by
  decide +kernel

theorem test_lda_izx_wraps :
    gives (at0400 0x00 0x03 0x00 0xFD 0x24
        [(0x0002, 0x05), (0x0400, 0xA1), (0x0401, 0xFE), (0x0500, 0x99)])
      [0x99, 0x03, 0x00, 0xFD, 0xA4, 0x402] 6 = true := by
  decide +kernel

theorem test_ldx_zpy_wraps :
    gives (at0400 0x00 0x00 0x02 0xFD 0x24 [(0x0001, 0x7E), (0x0400, 0xB6), (0x0401, 0xFF)])
      [0x00, 0x7E, 0x02, 0xFD, 0x24, 0x402] 4 = true := by
  decide +kernel

theorem test_ldy_abx_mirror :
    gives (at0400 0x00 0x01 0x00 0xFD 0x24
        [(0x0300, 0x01), (0x0400, 0xBC), (0x0401, 0xFF), (0x0402, 0x12)])
      [0x00, 0x01, 0x01, 0xFD, 0x24, 0x403] 4 = true := by
  decide +kernel

theorem test_sta_abx_wraps :
    gives (at0400 0xAB 0x02 0x00 0xFD 0x24 [(0x0400, 0x9D), (0x0401, 0xFF), (0x0402, 0xFF)])
      [0xAB, 0x02, 0x00, 0xFD, 0x24, 0x403] 5 [(0x0001, 0xAB)] = true := by
  decide +kernel

theorem test_stx_zpy_wraps :
    gives (at0400 0x00 0x5A 0x02 0xFD 0x24 [(0x0400, 0x96), (0x0401, 0xFF)])
      [0x00, 0x5A, 0x02, 0xFD, 0x24, 0x402] 4 [(0x0001, 0x5A)] = true := by
  decide +kernel

theorem test_sty_abs :
    gives (at0400 0x00 0x00 0x5B 0xFD 0x24 [(0x0400, 0x8C), (0x0401, 0x10), (0x0402, 0x03)])
      [0x00, 0x00, 0x5B, 0xFD, 0x24, 0x403] 4 [(0x0310, 0x5B)] = true := by
  decide +kernel

theorem test_tax :
    gives (at0400 0x80 0x00 0x00 0xFD 0x24 [(0x0400, 0xAA)])
      [0x80, 0x80, 0x00, 0xFD, 0xA4, 0x401] 2 = true := by
  decide +kernel

theorem test_tay :
    gives (at0400 0x00 0x00 0x00 0xFD 0x24 [(0x0400, 0xA8)])
      [0x00, 0x00, 0x00, 0xFD, 0x26, 0x401] 2 = true := by
  decide +kernel

theorem test_txa :
    gives (at0400 0x00 0x7F 0x00 0xFD 0xA6 [(0x0400, 0x8A)])
      [0x7F, 0x7F, 0x00, 0xFD, 0x24, 0x401] 2 = true := by
  decide +kernel

theorem test_tya :
    gives (at0400 0x01 0x00 0xFF 0xFD 0x24 [(0x0400, 0x98)])
      [0xFF, 0x00, 0xFF, 0xFD, 0xA4, 0x401] 2 = true := by
  decide +kernel

theorem test_tsx :
    gives (at0400 0x00 0x00 0x00 0x00 0x24 [(0x0400, 0xBA)])
      [0x00, 0x00, 0x00, 0x00, 0x26, 0x401] 2 = true := by
  decide +kernel

theorem test_txs :
    gives (at0400 0x00 0x00 0x00 0xFD 0x24 [(0x0400, 0x9A)])
      [0x00, 0x00, 0x00, 0x00, 0x24, 0x401] 2 = true := by
  decide +kernel

theorem test_pha_wraps :
    gives (at0400 0x77 0x00 0x00 0x00 0x24 [(0x0400, 0x48)])
      [0x77, 0x00, 0x00, 0xFF, 0x24, 0x401] 3 [(0x0100, 0x77)] = true := by
  decide +kernel

theorem test_pla_wraps :
    gives (at0400 0x00 0x00 0x00 0xFF 0x24 [(0x0100, 0x80), (0x0400, 0x68)])
      [0x80, 0x00, 0x00, 0x00, 0xA4, 0x401] 4 = true := by
  decide +kernel

theorem test_php :
    gives (at0400 0x00 0x00 0x00 0xFD 0xE7 [(0x0400, 0x08)])
      [0x00, 0x00, 0x00, 0xFC, 0xE7, 0x401] 3 [(0x01FD, 0xF7)] = true := by
  decide +kernel

theorem test_plp_ff :
    gives (at0400 0x00 0x00 0x00 0xFC 0x24 [(0x01FD, 0xFF), (0x0400, 0x28)])
      [0x00, 0x00, 0x00, 0xFD, 0xEF, 0x401] 4 = true := by
  decide +kernel

theorem test_plp_00 :
    gives (at0400 0x00 0x00 0x00 0xFC 0x24 [(0x0400, 0x28)])
      [0x00, 0x00, 0x00, 0xFD, 0x20, 0x401] 4 = true := by
  decide +kernel

theorem test_adc_overflow :
    gives (at0400 0x7F 0x00 0x00 0xFD 0x25 [(0x0400, 0x69)])
      [0x80, 0x00, 0x00, 0xFD, 0xE4, 0x402] 2 = true := by
  decide +kernel

theorem test_adc_binary :
    gives (at0400 0x09 0x00 0x00 0xFD 0x2C [(0x0400, 0x69), (0x0401, 0x09)])
      [0x12, 0x00, 0x00, 0xFD, 0x2C, 0x402] 2 = true := by
  decide +kernel

theorem test_sbc_overflow :
    gives (at0400 0x50 0x00 0x00 0xFD 0x25 [(0x0400, 0xE9), (0x0401, 0xB0)])
      [0xA0, 0x00, 0x00, 0xFD, 0xE4, 0x402] 2 = true := by
  decide +kernel

theorem test_sbc_borrowIn :
    gives (at0400 0x05 0x00 0x00 0xFD 0x24 [(0x0400, 0xE9), (0x0401, 0x01)])
      [0x03, 0x00, 0x00, 0xFD, 0x25, 0x402] 2 = true := by
  decide +kernel

theorem test_and :
    gives (at0400 0xF0 0x00 0x00 0xFD 0x24 [(0x0400, 0x29), (0x0401, 0x0F)])
      [0x00, 0x00, 0x00, 0xFD, 0x26, 0x402] 2 = true := by
  decide +kernel

theorem test_ora :
    gives (at0400 0x01 0x00 0x00 0xFD 0x24 [(0x0400, 0x09), (0x0401, 0x80)])
      [0x81, 0x00, 0x00, 0xFD, 0xA4, 0x402] 2 = true := by
  decide +kernel

theorem test_eor :
    gives (at0400 0xFF 0x00 0x00 0xFD 0x24 [(0x0400, 0x49), (0x0401, 0xFF)])
      [0x00, 0x00, 0x00, 0xFD, 0x26, 0x402] 2 = true := by
  decide +kernel

theorem test_cmp_equal :
    gives (at0400 0x40 0x00 0x00 0xFD 0x24 [(0x0400, 0xC9), (0x0401, 0x40)])
      [0x40, 0x00, 0x00, 0xFD, 0x27, 0x402] 2 = true := by
  decide +kernel

theorem test_cmp_less :
    gives (at0400 0x40 0x00 0x00 0xFD 0x24 [(0x0400, 0xC9), (0x0401, 0xC0)])
      [0x40, 0x00, 0x00, 0xFD, 0xA4, 0x402] 2 = true := by
  decide +kernel

theorem test_cpx :
    gives (at0400 0x00 0x80 0x00 0xFD 0x24 [(0x0400, 0xE0)])
      [0x00, 0x80, 0x00, 0xFD, 0xA5, 0x402] 2 = true := by
  decide +kernel

theorem test_cpy :
    gives (at0400 0x00 0x00 0x00 0xFD 0x24 [(0x0010, 0xFF), (0x0400, 0xC4), (0x0401, 0x10)])
      [0x00, 0x00, 0x00, 0xFD, 0x24, 0x402] 3 = true := by
  decide +kernel

theorem test_bit :
    gives (at0400 0x01 0x00 0x00 0xFD 0x24 [(0x0010, 0xC0), (0x0400, 0x24), (0x0401, 0x10)])
      [0x01, 0x00, 0x00, 0xFD, 0xE6, 0x402] 3 = true := by
  decide +kernel

theorem test_inc :
    gives (at0400 0x00 0x00 0x00 0xFD 0x24 [(0x0010, 0xFF), (0x0400, 0xE6), (0x0401, 0x10)])
      [0x00, 0x00, 0x00, 0xFD, 0x26, 0x402] 5 [(0x0010, 0x00)] = true := by
  decide +kernel

theorem test_dec :
    gives (at0400 0x00 0x00 0x00 0xFD 0x24 [(0x0400, 0xC6), (0x0401, 0x10)])
      [0x00, 0x00, 0x00, 0xFD, 0xA4, 0x402] 5 [(0x0010, 0xFF)] = true := by
  decide +kernel

theorem test_inx :
    gives (at0400 0x00 0xFF 0x00 0xFD 0x24 [(0x0400, 0xE8)])
      [0x00, 0x00, 0x00, 0xFD, 0x26, 0x401] 2 = true := by
  decide +kernel

theorem test_iny :
    gives (at0400 0x00 0x00 0x7F 0xFD 0x24 [(0x0400, 0xC8)])
      [0x00, 0x00, 0x80, 0xFD, 0xA4, 0x401] 2 = true := by
  decide +kernel

theorem test_dex :
    gives (at0400 0x00 0x01 0x00 0xFD 0x24 [(0x0400, 0xCA)])
      [0x00, 0x00, 0x00, 0xFD, 0x26, 0x401] 2 = true := by
  decide +kernel

theorem test_dey :
    gives (at0400 0x00 0x00 0x00 0xFD 0x24 [(0x0400, 0x88)])
      [0x00, 0x00, 0xFF, 0xFD, 0xA4, 0x401] 2 = true := by
  decide +kernel

theorem test_asl_acc :
    gives (at0400 0x80 0x00 0x00 0xFD 0x24 [(0x0400, 0x0A)])
      [0x00, 0x00, 0x00, 0xFD, 0x27, 0x401] 2 = true := by
  decide +kernel

theorem test_asl_zp :
    gives (at0400 0x00 0x00 0x00 0xFD 0x24 [(0x0010, 0x41), (0x0400, 0x06), (0x0401, 0x10)])
      [0x00, 0x00, 0x00, 0xFD, 0xA4, 0x402] 5 [(0x0010, 0x82)] = true := by
  decide +kernel

theorem test_lsr_acc :
    gives (at0400 0xFE 0x00 0x00 0xFD 0x25 [(0x0400, 0x4A)])
      [0x7F, 0x00, 0x00, 0xFD, 0x24, 0x401] 2 = true := by
  decide +kernel

theorem test_rol_acc :
    gives (at0400 0x40 0x00 0x00 0xFD 0x25 [(0x0400, 0x2A)])
      [0x81, 0x00, 0x00, 0xFD, 0xA4, 0x401] 2 = true := by
  decide +kernel

theorem test_ror_acc :
    gives (at0400 0x01 0x00 0x00 0xFD 0x25 [(0x0400, 0x6A)])
      [0x80, 0x00, 0x00, 0xFD, 0xA5, 0x401] 2 = true := by
  decide +kernel

theorem test_ror_zp :
    gives (at0400 0x00 0x00 0x00 0xFD 0x24 [(0x0010, 0x02), (0x0400, 0x66), (0x0401, 0x10)])
      [0x00, 0x00, 0x00, 0xFD, 0x24, 0x402] 5 [(0x0010, 0x01)] = true := by
  decide +kernel

theorem test_jmp_pageBug :
    gives (at0400 0x00 0x00 0x00 0xFD 0x24
        [(0x0200, 0x12), (0x02FF, 0x34), (0x0300, 0x56), (0x0400, 0x6C), (0x0401, 0xFF), (0x0402, 0x02)])
      [0x00, 0x00, 0x00, 0xFD, 0x24, 0x1234] 5 = true := by
  decide +kernel

theorem test_jmp_normal :
    gives (at0400 0x00 0x00 0x00 0xFD 0x24
        [(0x0280, 0x34), (0x0281, 0x12), (0x0400, 0x6C), (0x0401, 0x80), (0x0402, 0x02)])
      [0x00, 0x00, 0x00, 0xFD, 0x24, 0x1234] 5 = true := by
  decide +kernel

theorem test_jsr :
    gives (at0400 0x00 0x00 0x00 0xFD 0x24 [(0x0400, 0x20), (0x0401, 0x34), (0x0402, 0x12)])
      [0x00, 0x00, 0x00, 0xFB, 0x24, 0x1234] 6 [(0x01FD, 0x04), (0x01FC, 0x02)] = true := by
  decide +kernel

theorem test_rts :
    gives (at0400 0x00 0x00 0x00 0xFB 0x24 [(0x01FC, 0x02), (0x01FD, 0x04), (0x0400, 0x60)])
      [0x00, 0x00, 0x00, 0xFD, 0x24, 0x403] 6 = true := by
  decide +kernel

theorem test_rts_wraps :
    gives (at0400 0x00 0x00 0x00 0xFF 0x24 [(0x0100, 0x10), (0x0101, 0x20), (0x0400, 0x60)])
      [0x00, 0x00, 0x00, 0x01, 0x24, 0x2011] 6 = true := by
  decide +kernel

theorem test_bpl_notTaken :
    gives (at0400 0x00 0x00 0x00 0xFD 0xA4 [(0x0400, 0x10), (0x0401, 0x10)])
      [0x00, 0x00, 0x00, 0xFD, 0xA4, 0x402] 2 = true := by
  decide +kernel

theorem test_bmi_taken :
    gives (at0400 0x00 0x00 0x00 0xFD 0xA4 [(0x0400, 0x30), (0x0401, 0x10)])
      [0x00, 0x00, 0x00, 0xFD, 0xA4, 0x412] 2 = true := by
  decide +kernel

theorem test_bvc_taken :
    gives (at0400 0x00 0x00 0x00 0xFD 0x24 [(0x0400, 0x50), (0x0401, 0x10)])
      [0x00, 0x00, 0x00, 0xFD, 0x24, 0x412] 2 = true := by
  decide +kernel

theorem test_bvs_taken :
    gives (at0400 0x00 0x00 0x00 0xFD 0x64 [(0x0400, 0x70), (0x0401, 0x10)])
      [0x00, 0x00, 0x00, 0xFD, 0x64, 0x412] 2 = true := by
  decide +kernel

theorem test_bcc_forward :
    gives (at0400 0x00 0x00 0x00 0xFD 0x24 [(0x0400, 0x90), (0x0401, 0x7F)])
      [0x00, 0x00, 0x00, 0xFD, 0x24, 0x481] 2 = true := by
  decide +kernel

theorem test_bcs_notTaken :
    gives (at0400 0x00 0x00 0x00 0xFD 0x24 [(0x0400, 0xB0), (0x0401, 0x20)])
      [0x00, 0x00, 0x00, 0xFD, 0x24, 0x402] 2 = true := by
  decide +kernel

theorem test_bne_taken :
    gives (at0400 0x00 0x00 0x00 0xFD 0x24 [(0x0400, 0xD0), (0x0401, 0x05)])
      [0x00, 0x00, 0x00, 0xFD, 0x24, 0x407] 2 = true := by
  decide +kernel

theorem test_bne_notTaken :
    gives (at0400 0x00 0x00 0x00 0xFD 0x26 [(0x0400, 0xD0), (0x0401, 0x05)])
      [0x00, 0x00, 0x00, 0xFD, 0x26, 0x402] 2 = true := by
  decide +kernel

theorem test_beq_back :
    gives (at0400 0x00 0x00 0x00 0xFD 0x26 [(0x0400, 0xF0), (0x0401, 0x80)])
      [0x00, 0x00, 0x00, 0xFD, 0x26, 0x382] 2 = true := by
  decide +kernel

theorem test_brk :
    gives (at0400 0x00 0x00 0x00 0xFD 0xA1 [(0x0401, 0xEA)] [(0x3FFF, 0x90)])
      [0x00, 0x00, 0x00, 0xFA, 0xA5, 0x9000] 7 [(0x01FD, 0x04), (0x01FC, 0x02), (0x01FB, 0xB1)] = true := by
  decide +kernel

theorem test_rti :
    gives (at0400 0x00 0x00 0x00 0xFA 0x24
        [(0x01FB, 0xFF), (0x01FC, 0x02), (0x01FD, 0x04), (0x0400, 0x40)])
      [0x00, 0x00, 0x00, 0xFD, 0xEF, 0x402] 6 = true := by
  decide +kernel

theorem test_clc :
    gives (at0400 0x00 0x00 0x00 0xFD 0x25 [(0x0400, 0x18)])
      [0x00, 0x00, 0x00, 0xFD, 0x24, 0x401] 2 = true := by
  decide +kernel

theorem test_sec :
    gives (at0400 0x00 0x00 0x00 0xFD 0x24 [(0x0400, 0x38)])
      [0x00, 0x00, 0x00, 0xFD, 0x25, 0x401] 2 = true := by
  decide +kernel

theorem test_cli :
    gives (at0400 0x00 0x00 0x00 0xFD 0x24 [(0x0400, 0x58)])
      [0x00, 0x00, 0x00, 0xFD, 0x20, 0x401] 2 = true := by
  decide +kernel

theorem test_sei :
    gives (at0400 0x00 0x00 0x00 0xFD 0x20 [(0x0400, 0x78)])
      [0x00, 0x00, 0x00, 0xFD, 0x24, 0x401] 2 = true := by
  decide +kernel

theorem test_cld :
    gives (at0400 0x00 0x00 0x00 0xFD 0x2C [(0x0400, 0xD8)])
      [0x00, 0x00, 0x00, 0xFD, 0x24, 0x401] 2 = true := by
  decide +kernel

theorem test_sed :
    gives (at0400 0x00 0x00 0x00 0xFD 0x24 [(0x0400, 0xF8)])
      [0x00, 0x00, 0x00, 0xFD, 0x2C, 0x401] 2 = true := by
  decide +kernel

theorem test_clv :
    gives (at0400 0x00 0x00 0x00 0xFD 0x64 [(0x0400, 0xB8)])
      [0x00, 0x00, 0x00, 0xFD, 0x24, 0x401] 2 = true := by
  decide +kernel

theorem test_nop :
    gives (at0400 0x00 0x00 0x00 0xFD 0x24 [(0x0400, 0xEA)])
      [0x00, 0x00, 0x00, 0xFD, 0x24, 0x401] 2 = true := by
  decide +kernel

theorem test_slo_zp :
    gives (at0400 0x02 0x00 0x00 0xFD 0x24 [(0x0010, 0x81), (0x0400, 0x07), (0x0401, 0x10)])
      [0x02, 0x00, 0x00, 0xFD, 0x25, 0x402] 5 [(0x0010, 0x02)] = true := by
  decide +kernel

theorem test_slo_izy :
    gives (at0400 0x00 0x00 0x01 0xFD 0x24
        [(0x0021, 0x03), (0x0301, 0x40), (0x0400, 0x13), (0x0401, 0x20)])
      [0x80, 0x00, 0x01, 0xFD, 0xA4, 0x402] 8 [(0x0301, 0x80)] = true := by
  decide +kernel

theorem test_nopUnofficial_abx :
    gives (at0400 0x00 0xFF 0x00 0xFD 0x24 [(0x0400, 0x1C), (0x0401, 0x34), (0x0402, 0x12)])
      [0x00, 0xFF, 0x00, 0xFD, 0x24, 0x403] 4 = true := by
  decide +kernel

theorem test_nopUnofficial_imm :
    gives (at0400 0x00 0x00 0x00 0xFD 0x24 [(0x0400, 0x80), (0x0401, 0x55)])
      [0x00, 0x00, 0x00, 0xFD, 0x24, 0x402] 2 = true := by
  decide +kernel

/-- KIL and an unknown opcode halt at their own address, with the PPU where it was (R203, R204). -/
theorem test_kil :
    after (at0400 0 0 0 0xFD 0x24 [(0x0400, 0xF2)]) (fun t =>
      regs t == [0, 0, 0, 0xFD, 0x24, 0x400] && t.cpu.halted == some (0xF2, 0x0400)
        && t.driver.fatal == some (.cpuHalt 0xF2 0x0400) && t.ppu.cycle == 0) = true := by
  decide +kernel

theorem test_unknown :
    after (at0400 0 0 0 0xFD 0x24 [(0x0400, 0xA7), (0x0401, 0x10)]) (fun t =>
      regs t == [0, 0, 0, 0xFD, 0x24, 0x400] && t.cpu.halted == some (0xA7, 0x0400)
        && t.ppu.cycle == 0) = true := by
  decide +kernel

/-- The step after a halt answers the same CpuHalt (R31). -/
theorem test_haltedAgain :
    (match step { State.reset with cpu := { State.reset.cpu with halted := some (0x02, 0x8032) } } with
      | .fault (.cpuHalt op a) => op == 0x02 && a == 0x8032
      | _ => false) = true := by
  decide +kernel

/-! Cycles, interrupts and the driver. -/

/-- CYCLE_MODEL = documented: a page-crossing read costs one more, a taken branch to another page two
more (spec/30_encoding.md R108). -/
theorem test_documentedCycles :
    let s := { at0400 0 0x10 0 0xFD 0x24 [] with
      params := { Params.default with cycleModel := .documented } }
    rowCycles (.lda (.mem (.abx 0x12F8))) s = 5 ∧ rowCycles (.lda (.mem (.abx 0x12E0))) s = 4
      ∧ rowCycles (.bne 0x80) s = 4 ∧ rowCycles (.bne 0x05) s = 3 ∧ rowCycles (.beq 0x05) s = 2
      ∧ rowCycles (.sta (.abx 0x12F8)) s = 5 := by
  decide +kernel

/-- NMI and IRQ entry (spec/95_test_vectors.md 2.7). -/
def entryState (p : Byte) : State :=
  { at0400 0 0 0 0xFD p [] [(0x3FFB, 0x81), (0x3FFF, 0x91)] with
    cpu := { a := 0, x := 0, y := 0, sp := 0xFD, pc := 0x1234, p := p, halted := none,
             extraCycles := 0 } }

theorem test_nmi :
    regs (entryState 0xA1).cpuNmi = [0, 0, 0, 0xFA, 0xA5, 0x8100]
      ∧ (entryState 0xA1).cpuNmi.cpu.extraCycles = 7
      ∧ (entryState 0xA1).cpuNmi.ram = [(0x01FB, 0xA1), (0x01FC, 0x34), (0x01FD, 0x12)] := by
  decide +kernel

theorem test_irq :
    regs (entryState 0xE3).cpuIrq = [0, 0, 0, 0xFA, 0xE7, 0x9100]
      ∧ (entryState 0xE3).cpuIrq.ram = [(0x01FB, 0xE3), (0x01FC, 0x34), (0x01FD, 0x12)]
      ∧ (entryState 0x24).cpuIrq = entryState 0x24 := by
  decide +kernel

/-- VBlank and NMI at (241, 1): sub-cycle 82,523 of a frame (spec/95_test_vectors.md 3.3), entered in
the step that reaches it. -/
theorem test_nmiAtVblank :
    position { State.reset.ppu with scanline := 241, cycle := 1 } = 82523
      ∧ after { at0400 0 0 0 0xFD 0x24 [(0x0400, 0xEA)] [(0x3FFB, 0x81)] with
          ppu := { State.reset.ppu with ctrl := 0x80, scanline := 241, cycle := 0 } } (fun t =>
        t.ppu.vblank && !t.ppu.nmiOccurred && t.cpu.pc == 0x8100 && t.cpu.extraCycles == 7) = true := by
  decide +kernel

/-- powerOn of the blank cartridge with zero memories is State.reset; a cartridge of mapper 3 and one
without PRG are refused (R232, R236). -/
def blankCartridge : Cartridge :=
  { mapperId := 0, mirroring := .vertical, battery := false, trainer := false,
    prgLen := 0x4000, prgRom := [], chrLen := 0, chrRom := [] }

theorem test_powerOn :
    (match powerOn Params.default blankCartridge PowerOnMem.zero with
      | .next t => t == State.reset
      | _ => false) = true
      ∧ (match powerOn Params.default { blankCartridge with mapperId := 3 } PowerOnMem.zero with
      | .refused .invalidCartridge => true
      | _ => false) = true
      ∧ (match powerOn Params.default { blankCartridge with prgLen := 0 } PowerOnMem.zero with
      | .refused .invalidCartridge => true
      | _ => false) = true := by
  decide +kernel

/-- A placed word runs next (Scenario A's first instruction: LDA #$42, numbered low byte first). -/
theorem test_withFetchWord :
    after (State.reset.withFetchWord 16 0x42A9) (fun t => t.cpu.a == 0x42) = true
      ∧ decodeTableWord 16 0x42A9 = some (.lda (.imm 0x42)) := by
  decide +kernel

/-! Platform vectors (spec/95_test_vectors.md sections 1 and 3). -/

/-- n bus writes in order. -/
def writes (s : State) : List (Word × Byte) → State
  | [] => s
  | c :: rest => writes (s.busWrite c.1 c.2) rest

/-- Vector 1.1 (1): RAM mirrors. -/
theorem test_ramMirror :
    ((State.reset.busWrite 0x1FFF 0x5A).busRead 0x07FF).1 = 0x5A
      ∧ ((State.reset.busWrite 0x1FFF 0x5A).busRead 0x0FFF).1 = 0x5A := by
  decide +kernel

/-- Vector 1.1 (2): two PPUADDR writes through $3456. -/
theorem test_ppuAddr :
    (writes State.reset [(0x3456, 0x21), (0x3456, 0x08)]).ppu.v = 0x2108#15
      ∧ (writes State.reset [(0x3456, 0x21), (0x3456, 0x08)]).ppu.w = false := by
  decide +kernel

/-- Vector 1.1 (5): the palette mirror, read unbuffered. -/
theorem test_palette :
    ((writes State.reset [(0x2006, 0x3F), (0x2006, 0x10), (0x2007, 0x2A), (0x2006, 0x3F),
      (0x2006, 0x00)]).busRead 0x2007).1 = 0x2A := by
  decide +kernel

/-- Vector 3.1: the buffered read and Vertical mirroring. -/
theorem test_ppuData :
    let s := writes State.reset [(0x2006, 0x20), (0x2006, 0x00), (0x2007, 0x11), (0x2007, 0x22),
      (0x2006, 0x28), (0x2006, 0x00)]
    let r1 := s.busRead 0x2007
    let r2 := r1.2.busRead 0x2007
    let r3 := r2.2.busRead 0x2007
    r1.1 = 0x00 ∧ r2.1 = 0x11 ∧ r3.1 = 0x22 ∧ r3.2.ppu.v = 0x2803#15 := by
  decide +kernel

/-- Vector 3.2: OAMDATA wraps OAMADDR. -/
theorem test_oamData :
    let s := writes State.reset [(0x2003, 0xFE), (0x2004, 0x11), (0x2004, 0x22)]
    s.ppu.oam = [(0xFE, 0x11), (0xFF, 0x22)] ∧ s.ppu.oamaddr = 0 := by
  decide +kernel

/-- Scroll writes of Scenario F: $2005 = 12 then 34 on t = 0x001F. -/
theorem test_scroll :
    let s := writes { State.reset with ppu := { State.reset.ppu with t := 0x001F } }
      [(0x2005, 0x12), (0x2005, 0x34)]
    s.ppu.t = 0x40C2#15 ∧ s.ppu.x = 2 ∧ s.ppu.w = false := by
  decide +kernel

/-- OAM DMA (vector 1.3): oam[(0x10 + i) & 0xFF] = ram[i]. -/
theorem test_oamDma :
    let s := { State.reset with
      ram := [(0x00, 0xA0), (0xEF, 0xA1), (0xF0, 0xA2), (0xFF, 0xA3)],
      ppu := { State.reset.ppu with oamaddr := 0x10 } }
    (s.oamDma 0).ppu.oam = [(0x00, 0xA2), (0x0F, 0xA3), (0x10, 0xA0), (0xFF, 0xA1)]
      ∧ (s.oamDma 0).cpu.extraCycles = 513 := by
  decide +kernel

/-- A 64 KiB cartridge whose bank b begins with b. -/
def banked (m : Mapper) : Cart :=
  { State.reset.cart with
    mapper := m, prgLen := 0x10000, prgRom := [(0x4000, 1), (0x8000, 2), (0xC000, 3)] }

/-- Vector 3.4: UxROM. -/
theorem test_uxrom :
    ((banked (.uxrom 0)).cpuWrite 0x8000 6).cpuRead 0x8000 = 2
      ∧ ((banked (.uxrom 0)).cpuWrite 0x8000 6).cpuRead 0xC000 = 3 := by
  decide +kernel

/-- n serial writes of the low bits of w at an address. -/
def serial (c : Cart) (a : Nat) (bits : List Byte) : Cart :=
  bits.foldl (fun c b => c.cpuWrite a b) c

/-- Vector 3.5: MMC1's serial port, modes and reset bit. -/
theorem test_mmc1 :
    let c1 := serial (banked (.mmc1 Mmc1.atReset)) 0x8000 [1, 0, 0, 1, 1]
    let c2 := serial c1 0xE000 [1, 0, 0, 0, 0]
    let c3 := serial c2 0x8000 [0x01, 0x80]
    c1.currentMirroring = .vertical ∧ c1.cpuRead 0xC000 = 0
      ∧ c2.cpuRead 0x8000 = 0 ∧ c2.cpuRead 0xC000 = 1
      ∧ c3.cpuRead 0x8000 = 1 ∧ c3.cpuRead 0xC000 = 3 := by
  decide +kernel

/-- n tapped accesses at an address. -/
def taps (cd : Nat) (a : Nat) (n : Nat) (r : Mmc3) : Mmc3 :=
  (List.range n).foldl (fun r _ => r.tap cd a) r

/-- MMC3 with $C000 = 5, $C001 = 0, $E001 = 0 written. -/
def armed : Mmc3 := ((Mmc3.atReset.write 0xC000 5).write 0xC001 0).write 0xE001 0

/-- Vector 3.6: the A12 filter, rows 1, 2, 3, 4 and 6. -/
theorem test_a12 :
    (taps 0 0x1000 1 (taps 0 0 7 armed)).irqCounter = 0
      ∧ (taps 0 0x1000 1 (taps 0 0 8 armed)).irqCounter = 5
      ∧ (taps 0 0x1000 1 (taps 0 0 8 (taps 0 0x1000 2 (taps 0 0 8 armed)))).irqCounter = 4
      ∧ (taps 12 0x1000 1 (taps 12 0 8 (taps 12 0x1000 1 (taps 12 0 8 armed)))).irqCounter = 5
      ∧ (taps 4 0x1000 1 (taps 4 0 8 (taps 4 0x1000 1 (taps 4 0 8
          (taps 4 0x1000 1 (taps 4 0 8 armed)))))).irqCounter = 3 := by
  decide +kernel

/-- Scenario C: latch 2, reload requested, enabled: clocks give 2, 1, 0, 2, 1 and the IRQ stays. -/
theorem test_mmc3Counter :
    let r := ((Mmc3.atReset.write 0xC000 2).write 0xC001 0).write 0xE001 0
    ([1, 2, 3, 4, 5].map (fun k => (clocks k r).irqCounter.toNat)) = [2, 1, 0, 2, 1]
      ∧ ([1, 2, 3, 4, 5].map (fun k => (clocks k r).irqPending)) = [false, false, true, true, true]
      ∧ ((clocks 5 r).write 0xE000 0).irqPending = false := by
  decide +kernel

/-- Vector 3.7: buttons 0x09 read as 1 0 0 1 0 0 0 0 1. -/
theorem test_pads :
    let s := writes { State.reset with pads := { Pads.atPowerOn with buttons1 := 0x09 } }
      [(0x4016, 1), (0x4016, 0)]
    (List.range 9).map (fun n => ((readsAt 0x4016 n s).busRead 0x4016).1.toNat)
      = [1, 0, 0, 1, 0, 0, 0, 0, 1] := by
  decide +kernel

/-- Scenario E's picture: a solid tile at (8..15, 8..15) and sprite 0 over x 10..17 from line 10 on;
rows 9 and 10 at x = 6, 7, 8, 9, 10, 15, 16, 17, 18. -/
def sceneE : State :=
  { State.reset with
    cart := { State.reset.cart with chr := (List.range 8).map (fun i => (0x10 + i, 0xFF)) },
    ppu := { State.reset.ppu with
      mask := 0x18, ciram := [(0x21, 1)], oam := [(0, 0x09), (1, 0x01), (3, 0x0A)],
      palettes := [(0x00, 0x0F), (0x01, 0x30), (0x11, 0x16)] } }

theorem test_sceneE :
    let p := { sceneE.ppu with v := 0x1020#15 }
    let q := { sceneE.ppu with v := 0x2020#15 }
    ([6, 7, 8, 9, 10, 15, 16, 17, 18].map
        (fun x => (pixelColour p sceneE.cart (p.spritesOnLine 9) 9 x).toNat))
        = [0x0F, 0x0F, 0x30, 0x30, 0x30, 0x30, 0x0F, 0x0F, 0x0F]
      ∧ ([6, 7, 8, 9, 10, 15, 16, 17, 18].map
        (fun x => (pixelColour q sceneE.cart (q.spritesOnLine 10) 10 x).toNat))
        = [0x0F, 0x0F, 0x30, 0x30, 0x16, 0x16, 0x16, 0x16, 0x0F]
      ∧ spriteZeroHit q sceneE.cart (q.spritesOnLine 10) 10 10 = true
      ∧ spriteZeroHit p sceneE.cart (p.spritesOnLine 9) 9 10 = false := by
  decide +kernel

/-! Witnesses: for every statement with hypotheses, values that meet them, clause by clause. -/

theorem witness_EncodeThenDecode :
    Instr.wf (.lda (.mem (.zpx 0xFF))) = true ∧ Instr.wf (.jmp (.ind 0xFFFF)) = true
      ∧ Instr.wf (.unknown 0x9E) = true := ⟨rfl, rfl, rfl⟩

theorem witness_DecodeThenEncode :
    decode [0xBD, 0xFF, 0xFF, 0x00] = .ok (.lda (.mem (.abx 0xFFFF)), [0x00]) := rfl

/-- LDA #$42 and KIL at $0400. -/
theorem witness_StepRunsDecodedInstruction :
    let s := at0400 0 0 0 0xFD 0x24 [(0x0400, 0xA9), (0x0401, 0x42)]
    let k := at0400 0 0 0 0xFD 0x24 [(0x0400, 0x02)]
    (s.driver.poweredOn = true ∧ s.cpu.halted = none ∧ decode [0xA9, 0x42] = .ok (.lda (.imm 0x42), [])
        ∧ Fetches s [0xA9, 0x42] (s.setPc 0x0402)
        ∧ ∃ u, exec (.lda (.imm 0x42)) (s.setPc 0x0402) = .next u ∧ u.cpu.halted = none)
      ∧ (k.driver.poweredOn = true ∧ k.cpu.halted = none ∧ decode [0x02] = .ok (.kil 0x02, [])
        ∧ Fetches k [0x02] (k.setPc 0x0401)
        ∧ ∃ u, exec (.kil 0x02) (k.setPc 0x0401) = .next u ∧ u.cpu.halted = some (0x02, 0x0400)) :=
  ⟨⟨rfl, rfl, rfl, ⟨rfl, rfl, rfl⟩, _, rfl, rfl⟩, ⟨rfl, rfl, rfl, ⟨rfl, rfl⟩, _, rfl, rfl⟩⟩

theorem witness_StepStopsOnlyWhenHaltedOrOff :
    let s := State.reset
    let h := { s with cpu := { s.cpu with halted := some (0x02, 0x0000) } }
    let off := { s with driver := { s.driver with poweredOn := false } }
    (s.driver.poweredOn = true ∧ s.cpu.halted = none)
      ∧ (h.driver.poweredOn = true ∧ h.cpu.halted = some (0x02, 0x0000))
      ∧ off.driver.poweredOn = false := ⟨⟨rfl, rfl⟩, ⟨rfl, rfl⟩, rfl⟩

/-- Opcodes F2 (a KIL), 9E (unknown) and EA (neither) at $0400. -/
theorem witness_HaltsExactlyOnHaltOpcodes :
    [(0xF2 : Byte), 0x9E, 0xEA].all (fun op =>
        let s := at0400 0 0 0 0xFD 0x24 [(0x0400, op)]
        s.cpu.halted == none && after s (fun _ => true) && (s.busRead s.cpu.pc).1 == op) = true
      ∧ (0xF2 : Byte) ∈ kilOpcodes ++ unknownOpcodes ∧ (0x9E : Byte) ∈ kilOpcodes ++ unknownOpcodes
      ∧ (0xEA : Byte) ∉ kilOpcodes ++ unknownOpcodes := by
  decide +kernel

/-- LDA $10; STA $4014, which costs a DMA; and a NOP whose advance reaches (241, 1) with PPUCTRL bit 7
set, so that one NMI is entered. -/
theorem witness_ReportedCycleCount :
    let s := at0400 0 0 0 0xFD 0x24 [(0x0400, 0xA5), (0x0401, 0x10)]
    let d := at0400 0 0 0 0xFD 0x24 [(0x0400, 0x8D), (0x0401, 0x14), (0x0402, 0x40)]
    let n := { at0400 0 0 0 0xFD 0x24 [(0x0400, 0xEA)] with
      ppu := { State.reset.ppu with scanline := 240, cycle := 340, ctrl := 0x80 } }
    (s.cpu.halted = none ∧ s.params.cycleModel = .base
      ∧ { s.params with cycleModel := .documented }.cycleModel = .documented
      ∧ after s (fun t => t.cpu.halted == none && t.driver.stepCycles == some 3) = true)
      ∧ (storedTo d.fetchInstr.1 d.fetchInstr.2 = some 0x4014 ∧ d.params.dmaCost = .c513
        ∧ storedTo s.fetchInstr.1 s.fetchInstr.2 = none)
      ∧ after n (fun t => t.driver.stepCycles == some 2 && t.cpu.extraCycles == 7) = true := by
  decide +kernel

/-- A NOP at $0400: a state with the invariant, and its step. -/
theorem witness_StepKeepsInvariant_step :
    after (at0400 0 0 0 0xFD 0x24 [(0x0400, 0xEA)]) (fun _ => true) = true := by
  decide +kernel

theorem witness_StepKeepsInvariant : (at0400 0 0 0 0xFD 0x24 [(0x0400, 0xEA)]).Inv where
  cpu := { uIsOne := rfl, bIsZero := rfl, haltedAt := fun _ _ h => by cases h }
  ramWf := rfl
  ramBelow := rfl
  ppu :=
    { lineLow := by decide, lineHigh := by decide, cycleHigh := by decide, ciramWf := rfl,
      ciramBelow := rfl, oamWf := rfl, oamBelow := rfl, palWf := rfl, palBelow := rfl,
      palCanonical := rfl, frameWf := rfl, frameBelow := rfl, frameColours := rfl }
  cart :=
    { prgSome := by decide, prgBanks := rfl, chrSome := by decide, chrBanks := rfl, prgRomWf := rfl,
      prgRomBelow := rfl, chrWf := rfl, chrBelow := rfl, prgRamWf := rfl, prgRamBelow := rfl,
      mapper := trivial }
  fatal := rfl

/-- A cartridge of each mapperId at the boundary lengths, and one bad in each condition. -/
theorem witness_PowerOnStateAndRefusal :
    (∀ id ∈ [0, 1, 2, 4], (id = 0 ∨ id = 1 ∨ id = 2 ∨ id = 4) ∧ (0x4000 : Nat) ≠ 0
        ∧ 0x4000 % 0x4000 = 0 ∧ 0 % 0x2000 = 0 ∧ 0x2000 % 0x2000 = 0)
      ∧ ¬((3 : Nat) = 0 ∨ (3 : Nat) = 1 ∨ (3 : Nat) = 2 ∨ (3 : Nat) = 4) ∧ 0x5000 % 0x4000 ≠ 0
      ∧ 0x1000 % 0x2000 ≠ 0 ∧ paletteCanonical (PowerOnMem.zero.palettes.load 0x20) = true := by
  decide +kernel

/-- The blank cartridge's invariant. -/
theorem blank_inv : Cart.blank.Inv :=
  { prgSome := by decide, prgBanks := rfl, chrSome := by decide, chrBanks := rfl, prgRomWf := rfl,
    prgRomBelow := rfl, chrWf := rfl, chrBelow := rfl, prgRamWf := rfl, prgRamBelow := rfl,
    mapper := trivial }

theorem witness_HostResetRestarts :
    State.reset.driver.poweredOn = true ∧ State.reset.cart.Inv
      ∧ (State.reset.cart.mapper ≠ .nrom ∨ State.reset.cart.prgLen ≤ 0x8000) :=
  ⟨rfl, blank_inv, .inr (by decide)⟩

theorem witness_StepKeepsRomAndInputs : ∃ t, step (at0400 0 0 0 0xFD 0x24 [(0x0400, 0xEA)]) = .next t := by
  refine ⟨_, rfl⟩

theorem witness_InstructionsDoNotMovePpu : ∃ t, exec (.sta (.abs 0x2007)) State.reset = .next t :=
  ⟨_, rfl⟩

/-- Every clause's hypotheses, at State.reset (P = 0x24) and with P.I clear. -/
theorem witness_UnusedFlagIsOne :
    let s := State.reset
    let e := { s with cpu := { s.cpu with p := 0x20 } }
    getFlag s.cpu.p .u = true ∧ s.cpu.halted = none
      ∧ (∃ t, exec .inx s = .next t) ∧ (∃ t, exec .plp s = .next t) ∧ (∃ t, exec .rti s = .next t)
      ∧ (∃ t, exec .php s = .next t) ∧ (∃ t, exec .brk s = .next t)
      ∧ e.cpu.halted = none ∧ getFlag e.cpu.p .i = false :=
  ⟨rfl, rfl, ⟨_, rfl⟩, ⟨_, rfl⟩, ⟨_, rfl⟩, ⟨_, rfl⟩, ⟨_, rfl⟩, rfl, rfl⟩

/-- Addresses at the ends of every window ReadAt and Written name, and the premises on register 7, on
register 4 and on $4014. -/
theorem witness_BusReadDecoder_BusWriteDecoder :
    ((0x0000 : Word).toNat ≤ 0x1FFF ∧ (0x1FFF : Word).toNat ≤ 0x1FFF)
      ∧ [(0x2000 : Word), 0x3FFF].all (fun a =>
        decide (0x2000 ≤ a.toNat) && decide (a.toNat ≤ 0x3FFF)) = true
      ∧ [(0x4000 : Word), 0x4013, 0x4015, 0x4018, 0x401F].all (fun a => decide (0x4000 ≤ a.toNat)
        && decide (a.toNat ≤ 0x401F) && decide (a.toNat ≠ 0x4014) && decide (a.toNat ≠ 0x4016)
        && decide (a.toNat ≠ 0x4017)) = true
      ∧ ((0x4014 : Word).toNat = 0x4014 ∧ (0x4016 : Word).toNat = 0x4016
        ∧ (0x4017 : Word).toNat = 0x4017)
      ∧ (0x4020 ≤ (0x4020 : Word).toNat ∧ 0x4020 ≤ (0xFFFF : Word).toNat)
      ∧ ¬(0x2000 ≤ (0x2006 : Word).toNat ∧ (0x2006 : Word).toNat ≤ 0x3FFF
        ∧ (0x2006 : Word).toNat % 8 = 7)
      ∧ ¬(0x2000 ≤ (0x2007 : Word).toNat ∧ (0x2007 : Word).toNat ≤ 0x3FFF
        ∧ (0x2007 : Word).toNat % 8 = 4) ∧ (0x2007 : Word).toNat ≠ 0x4014 := by
  decide +kernel

theorem witness_RamMirroring : (0x0000 : Word).toNat ≤ 0x1FFF ∧ (0x1FFF : Word).toNat ≤ 0x1FFF := by
  decide +kernel

theorem witness_PpuRegisterMirroring :
    (0x2000 ≤ (0x2000 : Word).toNat ∧ (0x2000 : Word).toNat ≤ 0x3FFF)
      ∧ (0x2000 ≤ (0x3FFF : Word).toNat ∧ (0x3FFF : Word).toNat ≤ 0x3FFF) := by
  decide +kernel

theorem witness_ApuSpaceIsUnmapped :
    [(0x4000 : Word), 0x4013, 0x4015, 0x4018, 0x401F].all (fun a => decide (0x4000 ≤ a.toNat)
      && decide (a.toNat ≤ 0x401F) && decide (a.toNat ≠ 0x4014) && decide (a.toNat ≠ 0x4016)
      && decide (a.toNat ≠ 0x4017)) = true := by
  decide +kernel

/-- The blank cartridge and the ends of its three windows. -/
theorem witness_CartridgeCpuSpace :
    Cart.blank.Inv ∧ (∀ a ∈ [(0x4020 : Nat), 0x5FFF], 0x4020 ≤ a ∧ a ≤ 0xFFFF ∧ a < 0x6000)
      ∧ (∀ a ∈ [(0x6000 : Nat), 0x7FFF], 0x4020 ≤ a ∧ a ≤ 0xFFFF ∧ 0x6000 ≤ a ∧ a < 0x8000)
      ∧ (∀ a ∈ [(0x8000 : Nat), 0xFFFF], 0x4020 ≤ a ∧ a ≤ 0xFFFF ∧ 0x8000 ≤ a) :=
  ⟨blank_inv, by decide, by decide, by decide⟩

theorem witness_OamDmaCopiesPage :
    (0x00 : Byte).toNat < 0x20 ∧ (0x1F : Byte).toNat < 0x20 ∧ 0x41 ≤ (0x41 : Byte).toNat
      ∧ 0x41 ≤ (0xFF : Byte).toNat ∧ 0 < 256 ∧ 255 < 256 := by
  decide +kernel

/-- $3F10 with $3F00 and with $3FF0 are one entry; $3F10 and $3F11 are two. -/
theorem witness_PaletteMirrors :
    (∀ a ∈ [(0x3F00 : Nat), 0x3F10, 0x3F11, 0x3FFF], 0x3F00 ≤ a ∧ a ≤ 0x3FFF)
      ∧ (0x3F10 % 4 = 0 ∧ 0x3F00 % 4 = 0 ∧ 0x3F10 % 16 = 0x3F00 % 16) ∧ 0x3F1F % 32 = 0x3FFF % 32
      ∧ ¬(0x3F10 % 32 = 0x3F11 % 32 ∨ (0x3F10 % 4 = 0 ∧ 0x3F11 % 4 = 0 ∧ 0x3F10 % 16 = 0x3F11 % 16)) := by
  decide +kernel

theorem witness_NametableMirroring :
    (0x2000 : Nat) ≤ 0x2000 ∧ (0x2000 : Nat) ≤ 0x3EFF ∧ (0x2000 : Nat) ≤ 0x3EFF
      ∧ (0x3EFF : Nat) ≤ 0x3EFF := by
  decide +kernel

theorem witness_StatusReadClears :
    (0x2000 ≤ (0x2002 : Word).toNat ∧ (0x2002 : Word).toNat ≤ 0x3FFF ∧ (0x2002 : Word).toNat % 8 = 2)
      ∧ (0x2000 ≤ (0x3FFA : Word).toNat ∧ (0x3FFA : Word).toNat ≤ 0x3FFF
        ∧ (0x3FFA : Word).toNat % 8 = 2) := by
  decide +kernel

theorem witness_ScrollAndAddressWrites :
    State.reset.ppu.w = false ∧ { State.reset.ppu with w := true }.w = true := ⟨rfl, rfl⟩

theorem witness_DataPortRead :
    ∀ v ∈ [(0x1FFF, true), (0x2000, true), (0x3EFF, true), (0x3F00, false), (0x7FFF, false)],
      (decide ((BitVec.ofNat 15 v.1).toNat % 0x4000 < 0x3F00) = v.2) := by
  decide +kernel

/-- v in CHR, nametable and palette space, at the ends, with CHR-RAM and without. -/
theorem witness_DataPortWrite :
    (∀ v ∈ [(0x0000 : Nat), 0x1FFF], (BitVec.ofNat 15 v).toNat % 0x4000 < 0x2000)
      ∧ (∀ v ∈ [(0x2000 : Nat), 0x3EFF], 0x2000 ≤ (BitVec.ofNat 15 v).toNat % 0x4000
        ∧ (BitVec.ofNat 15 v).toNat % 0x4000 < 0x3F00)
      ∧ (∀ v ∈ [(0x3F00 : Nat), 0x3FFF, 0x7FFF], 0x3F00 ≤ (BitVec.ofNat 15 v).toNat % 0x4000)
      ∧ Cart.blank.chrIsRam = true ∧ { Cart.blank with chrIsRam := false }.chrIsRam = false := by
  decide +kernel

/-- The PPU at the last place of its frame. -/
theorem witness_SubCycleMovesPosition :
    Ppu.Inv { State.reset.ppu with scanline := 260, cycle := 340 } :=
  { lineLow := show (-1 : Int) ≤ 260 by decide, lineHigh := show (260 : Int) ≤ 260 by decide,
    cycleHigh := show 340 ≤ 340 by decide, ciramWf := rfl, ciramBelow := rfl, oamWf := rfl,
    oamBelow := rfl, palWf := rfl, palBelow := rfl, palCanonical := rfl, frameWf := rfl,
    frameBelow := rfl, frameColours := rfl }

/-- A machine whose next sub-cycle is at (y, x), with sprite flags up. -/
def before (y : Int) (x : Nat) : State :=
  { State.reset with
    ppu := { State.reset.ppu with scanline := y, cycle := x, sprite0 := true, overflow := true } }

/-- The sub-cycles that reach (241, 1), (-1, 1) and (241, 2), and the drawn lines 0 and 239. -/
theorem witness_VblankAndNmiLatch :
    ((before 241 0).ppuTick.ppu.scanline = 241 ∧ (before 241 0).ppuTick.ppu.cycle = 1)
      ∧ ((before (-1) 0).ppuTick.ppu.scanline = -1 ∧ (before (-1) 0).ppuTick.ppu.cycle = 1)
      ∧ ¬((before 241 1).ppuTick.ppu.cycle = 1 ∧ ((before 241 1).ppuTick.ppu.scanline = 241
          ∨ (before 241 1).ppuTick.ppu.scanline = -1))
      ∧ ¬((before 241 1).ppuTick.ppu.cycle = 1 ∧ (before 241 1).ppuTick.ppu.scanline = -1)
      ∧ (before 241 1).ppu.sprite0 = true ∧ (before 241 1).ppu.overflow = true
      ∧ (0 ≤ (before (-1) 340).ppuTick.ppu.scanline ∧ (before (-1) 340).ppuTick.ppu.scanline ≤ 239
        ∧ (before (-1) 340).ppuTick.ppu.cycle = 0)
      ∧ (0 ≤ (before 238 340).ppuTick.ppu.scanline ∧ (before 238 340).ppuTick.ppu.scanline ≤ 239
        ∧ (before 238 340).ppuTick.ppu.cycle = 0) := by
  decide +kernel

/-- v with fine Y 6 and 7, and coarse Y 29, 31 and 30. -/
theorem witness_VerticalScrollStep :
    fineY 0x6000#15 < 7 ∧ fineY 0x73A0#15 = 7 ∧ coarseY 0x73A0#15 = 29 ∧ fineY 0x73E0#15 = 7
      ∧ coarseY 0x73E0#15 = 31 ∧ fineY 0x73C0#15 = 7 ∧ coarseY 0x73C0#15 ≠ 29
      ∧ coarseY 0x73C0#15 ≠ 31 := by
  decide +kernel

/-- The sub-cycles that reach lines 0 and 239 at cycle 0 are drawn, the one that reaches (240, 0) is
not; one reaches (-1, 0), and with the background shown one reaches (239, 260). -/
theorem witness_VisibleLineIsRendered :
    (0 ≤ (before (-1) 340).ppuTick.ppu.scanline ∧ (before (-1) 340).ppuTick.ppu.scanline ≤ 239
        ∧ (before (-1) 340).ppuTick.ppu.cycle = 0)
      ∧ (0 ≤ (before 238 340).ppuTick.ppu.scanline ∧ (before 238 340).ppuTick.ppu.scanline ≤ 239
        ∧ (before 238 340).ppuTick.ppu.cycle = 0)
      ∧ ¬(0 ≤ (before 239 340).ppuTick.ppu.scanline ∧ (before 239 340).ppuTick.ppu.scanline ≤ 239
        ∧ (before 239 340).ppuTick.ppu.cycle = 0)
      ∧ (before (-1) 340).ppu.mask.getLsbD 3 = false ∧ (before (-1) 340).ppu.mask.getLsbD 4 = false
      ∧ ((before 260 340).ppuTick.ppu.scanline = -1 ∧ (before 260 340).ppuTick.ppu.cycle = 0)
      ∧ (0 ≤ (before 239 259).ppuTick.ppu.scanline ∧ (before 239 259).ppuTick.ppu.scanline ≤ 239
        ∧ (before 239 259).ppuTick.ppu.cycle = 260 ∧ (0x08 : Byte).getLsbD 3 = true)
      ∧ 0 < 256 ∧ 255 < 256 := by
  decide +kernel

/-- The tick to (239, 260) with the background shown clocks an MMC3 whose latch is 5 and whose reload is
due; with it hidden it does not (R279, R322). -/
theorem test_scanlineClock :
    let s := { before 239 259 with cart := banked (.mmc3 armed) }
    let on := { s with ppu := { s.ppu with mask := 0x08 } }
    on.ppuTick.cart = banked (.mmc3 { armed with irqCounter := 5, irqReload := false })
      ∧ s.ppuTick.cart = banked (.mmc3 armed) := by
  decide +kernel

/-- The tick to (-1, 0) copies t's vertical bits 0x7BE0 to v (R266). -/
theorem test_verticalCopy :
    { before 260 340 with
      ppu := { (before 260 340).ppu with mask := 0x08, t := 0x7FFF#15, v := 0#15 } }.ppuTick.ppu.v
      = 0x7BE0#15 := by
  decide +kernel

theorem witness_UxromBanking :
    ((banked .nrom).mapper = .nrom ∧ (0x1FFF : Nat) < 0x2000)
      ∧ (banked (.uxrom 3)).Inv ∧ (banked (.uxrom 3)).mapper = .uxrom 3
      ∧ ((0x8000 : Nat) ≤ 0x8000 ∧ (0x8000 : Nat) < 0xC000 ∧ (0xBFFF : Nat) < 0xC000)
      ∧ ((0xC000 : Nat) ≤ 0xC000 ∧ (0xFFFF : Nat) ≤ 0xFFFF) :=
  ⟨⟨rfl, by decide⟩,
   { prgSome := by decide, prgBanks := rfl, chrSome := by decide, chrBanks := rfl, prgRomWf := rfl,
     prgRomBelow := rfl, chrWf := rfl, chrBelow := rfl, prgRamWf := rfl, prgRamBelow := rfl,
     mapper := show 3 < 0x10000 / 0x4000 by decide },
    rfl, by decide, by decide⟩

/-- The reset bit; a port with room for one more; an empty port, five bytes without bit 7, and a fifth
address in each register's range. -/
theorem witness_Mmc1SerialPort :
    (0x80 : Byte).getLsbD 7 = true ∧ (0x7F : Byte).getLsbD 7 = false
      ∧ { Mmc1.atReset with count := 3 }.count < 4
      ∧ Mmc1.atReset.shift = 0 ∧ Mmc1.atReset.count = 0
      ∧ (∀ a ∈ [(0x8000 : Nat), 0x9FFF, 0xA000, 0xBFFF, 0xC000, 0xDFFF, 0xE000, 0xFFFF],
          0x8000 ≤ a ∧ a ≤ 0xFFFF)
      ∧ (banked (.mmc1 Mmc1.atReset)).mapper = .mmc1 Mmc1.atReset
      ∧ (0x0FFF : Nat) < 0x2000 ∧ (0x1FFF : Nat) < 0x2000 := by
  decide +kernel

/-- Latch 0 and latch 255 with the reload due, at the first and the last clock; tapped addresses at the
ends of both halves, with and without the filter's conditions; an MMC3 cartridge and another one. -/
theorem witness_Mmc3CounterRaisesIrq :
    armed.irqEnabled = true ∧ armed.irqPending = false
      ∧ (armed.irqReload = true ∨ armed.irqCounter = 0) ∧ 1 ≤ 1
      ∧ 1 ≤ { armed with irqLatch := 0 }.irqLatch.toNat + 1
      ∧ 256 ≤ { armed with irqLatch := 255 }.irqLatch.toNat + 1
      ∧ ((0x0FFF : Nat) < 0x2000 ∧ (0x0FFF : Nat) < 0x1000)
      ∧ ((0x1000 : Nat) < 0x2000 ∧ (0x1000 : Nat) ≤ 0x1FFF ∧ (0x1FFF : Nat) < 0x2000)
      ∧ ¬(8 ≤ { armed with lowCount := 7 }.lowCount ∧ armed.cooldown = 0)
      ∧ (8 ≤ { armed with lowCount := 8 }.lowCount ∧ armed.cooldown = 0)
      ∧ (banked (.mmc3 armed)).mapper = .mmc3 armed ∧ variantId (banked .nrom).mapper ≠ 4 := by
  decide +kernel

/-- An MMC3 machine, a pending IRQ, and an even and an odd address at the end of every window. -/
theorem witness_Mmc3IrqIsLevel :
    (∃ s : State, s.cart.mapper = .mmc3 armed) ∧ { armed with irqPending := true }.irqPending = true
      ∧ (∀ a ∈ [(0x8000 : Nat), 0x9FFE], 0x8000 ≤ a ∧ a ≤ 0xFFFF ∧ a < 0xA000 ∧ a % 2 = 0)
      ∧ (∀ a ∈ [(0x8001 : Nat), 0x9FFF], 0x8000 ≤ a ∧ a ≤ 0xFFFF ∧ a < 0xA000 ∧ a % 2 = 1)
      ∧ (∀ a ∈ [(0xA000 : Nat), 0xBFFE], 0xA000 ≤ a ∧ a < 0xC000 ∧ a % 2 = 0)
      ∧ (∀ a ∈ [(0xA001 : Nat), 0xBFFF], 0xA000 ≤ a ∧ a < 0xC000 ∧ a % 2 = 1)
      ∧ (∀ a ∈ [(0xC000 : Nat), 0xDFFE], 0xC000 ≤ a ∧ a < 0xE000 ∧ a % 2 = 0)
      ∧ (∀ a ∈ [(0xC001 : Nat), 0xDFFF], 0xC000 ≤ a ∧ a < 0xE000 ∧ a % 2 = 1)
      ∧ (∀ a ∈ [(0xE000 : Nat), 0xFFFE], a ≤ 0xFFFF ∧ 0xE000 ≤ a ∧ a % 2 = 0)
      ∧ (∀ a ∈ [(0xE001 : Nat), 0xFFFF], a ≤ 0xFFFF ∧ 0xE000 ≤ a ∧ a % 2 = 1)
      ∧ (banked (.mmc3 armed)).mapper = .mmc3 armed ∧ (0x1FFF : Nat) < 0x2000 :=
  ⟨⟨{ State.reset with cart := banked (.mmc3 armed) }, rfl⟩, rfl, by decide, by decide, by decide,
    by decide, by decide, by decide, by decide, by decide, rfl, by decide⟩

/-- MMC3 banking with R0 = 5, R2 = 9, R6 = 3 and 64 KiB of PRG (8 banks), from R319's and R320's tables:
in PRG mode 0, $8000 is bank 3, $C000 bank 6, $E000 bank 7; in CHR mode 0, $0400 is slot bank 5 and $1000
bank 9. -/
theorem test_mmc3Banks :
    let r := (((((Mmc3.atReset.write 0x8000 0).write 0x8001 5).write 0x8000 2).write 0x8001 9).write
      0x8000 6).write 0x8001 3
    let c := banked (.mmc3 r)
    c.prgOffset 0x8000 = 3 * 0x2000 ∧ c.prgOffset 0xC001 = 6 * 0x2000 + 1
      ∧ c.prgOffset 0xFFFF = 0xFFFF ∧ r.chrBank 0x0400 = 5 ∧ r.chrBank 0x1000 = 9 := by
  decide +kernel

theorem witness_MapperMirroring :
    (banked .nrom).mapper = .nrom ∧ (banked (.uxrom 0)).mapper = .uxrom 0
      ∧ (banked (.mmc1 Mmc1.atReset)).mapper = .mmc1 Mmc1.atReset
      ∧ (banked (.mmc3 armed)).mapper = .mmc3 armed
      ∧ { banked (.mmc3 armed) with mirroring := .fourScreen }.mirroring = .fourScreen
      ∧ (banked (.mmc3 armed)).mirroring ≠ .fourScreen ∧ armed.mirrorWritten = false
      ∧ (∀ a ∈ [(0xA000 : Nat), 0xBFFE], 0xA000 ≤ a ∧ a < 0xC000 ∧ a % 2 = 0) :=
  ⟨rfl, rfl, rfl, rfl, rfl, by decide, rfl, by decide⟩

theorem witness_ControllerRoundTrip :
    (0x01 : Byte).getLsbD 0 = true ∧ (0xFE : Byte).getLsbD 0 = false ∧ 7 < 8 ∧ ¬(8 < 8) := by
  decide +kernel

/-- A running CPU with P.I clear, one with P.I set, and a halted one. -/
theorem witness_NmiEntry_IrqEntry :
    (entryState 0xE3).cpu.halted = none ∧ getFlag (entryState 0xE3).cpu.p .i = false
      ∧ (entryState 0x24).cpu.halted = none ∧ getFlag (entryState 0x24).cpu.p .i = true
      ∧ { (entryState 0x24).cpu with halted := some (0x02, 0x1234) }.halted ≠ none := by
  decide +kernel

/-- A machine with an MMC3 IRQ raised, P.I clear, about to tick at a place without an event. -/
def irqDue : State :=
  { entryState 0x20 with
    cart := banked (.mmc3 { armed with irqPending := true }),
    ppu := { State.reset.ppu with scanline := 240, cycle := 5 } }

theorem witness_InterruptPriority :
    irqDue.cpu.halted = none
      ∧ { irqDue with ppu := { irqDue.ppu with nmiOccurred := true } }.ppuTick.ppu.nmiOccurred = true
      ∧ (irqDue.ppuTick.ppu.nmiOccurred = false ∧ irqDue.ppuTick.cart.consumeIrq = true
        ∧ getFlag irqDue.ppuTick.cpu.p .i = false)
      ∧ (State.reset.ppuTick.ppu.nmiOccurred = false
        ∧ State.reset.ppuTick.cart.consumeIrq = false) := by
  decide +kernel

/-- The four pairs of instructions, with SP = 00 so that every one wraps, and a state between with other
registers. -/
theorem witness_StackRoundTrips :
    let s := at0400 0x77 0 0 0x00 0x24 []
    let between := fun (t : State) =>
      (((t.setA 1).setX 2).setY 3).setP 0 |>.setPc 0x1234
    getFlag s.cpu.p .u = true ∧ getFlag s.cpu.p .b = false
      ∧ (∀ t : State, (between t).ram = t.ram ∧ (between t).cpu.sp = t.cpu.sp)
      ∧ (∃ t u, exec .pha s = .next t ∧ exec .pla (between t) = .next u)
      ∧ (∃ t u, exec .php s = .next t ∧ exec .plp (between t) = .next u)
      ∧ (∃ t u, exec (.jsr 0x1234) s = .next t ∧ exec .rts (between t) = .next u)
      ∧ (∃ t u, exec .brk s = .next t ∧ exec .rti (between t) = .next u) :=
  ⟨rfl, rfl, fun _ => ⟨rfl, rfl⟩, ⟨_, _, rfl, rfl⟩, ⟨_, _, rfl, rfl⟩, ⟨_, _, rfl, rfl⟩,
    ⟨_, _, rfl, rfl⟩⟩


end Sys2Proof.Tests
end

section
/-! PROOF. What every step keeps of the cartridge and of the host's inputs: each operation of the
cartridge keeps the ROMs and the header, so instructions and the PPU advance do. -/

namespace Sys2Proof.Claims

open Sys2Proof Sys2Proof.Machine

/-! Every operation of the cartridge keeps its ROMs and header (spec/10_state.md R38). -/

theorem RomKept.refl (c : Cart) : RomKept c c where
  variant := rfl
  prgRom := rfl
  prgLen := rfl
  chrLen := rfl
  chrIsRam := rfl
  chrRom _ := rfl
  mirroring := rfl
  battery := rfl

theorem RomKept.trans {c d e : Cart} (h₁ : RomKept c d) (h₂ : RomKept d e) : RomKept c e where
  variant := h₂.variant.trans h₁.variant
  prgRom := h₂.prgRom.trans h₁.prgRom
  prgLen := h₂.prgLen.trans h₁.prgLen
  chrLen := h₂.chrLen.trans h₁.chrLen
  chrIsRam := h₂.chrIsRam.trans h₁.chrIsRam
  chrRom hc := (h₂.chrRom (h₁.chrIsRam.trans hc)).trans (h₁.chrRom hc)
  mirroring := h₂.mirroring.trans h₁.mirroring
  battery := h₂.battery.trans h₁.battery

theorem RomKept.withMapper (c : Cart) {m : Mapper} (hm : variantId m = variantId c.mapper) :
    RomKept c { c with mapper := m } :=
  { RomKept.refl c with variant := hm }

theorem RomKept.withPrgRam (c : Cart) (m : Memory) : RomKept c { c with prgRam := m } :=
  { RomKept.refl c with }

/-- CHR-RAM is no ROM: its contents may change (spec/62_mappers_controllers.md R301). -/
theorem RomKept.withChrRam {c : Cart} (hc : c.chrIsRam = true) (m : Memory) :
    RomKept c { c with chr := m } :=
  { RomKept.refl c with chrRom := fun h => by rw [hc] at h; cases h }

theorem romKept_tap (cd : Nat) (c : Cart) (a : Nat) : RomKept c (c.tap cd a) := by
  rw [Cart.tap_eq]
  refine RomKept.withMapper c ?_
  unfold Cart.tap
  split <;> simp [*, variantId]

theorem romKept_scanlineClock (c : Cart) : RomKept c c.scanlineClock := by
  rw [Cart.scanlineClock_eq]
  refine RomKept.withMapper c ?_
  unfold Cart.scanlineClock
  split <;> simp [*, variantId]

theorem romKept_registerWrite (c : Cart) (a : Nat) (d : Byte) :
    RomKept c (c.registerWrite a d) := by
  rw [Cart.registerWrite_eq]
  refine RomKept.withMapper c ?_
  unfold Cart.registerWrite
  split <;> simp [*, variantId]

theorem romKept_cpuWrite (c : Cart) (a : Nat) (d : Byte) : RomKept c (c.cpuWrite a d) := by
  rcases c.cpuWrite_cases a d with ⟨-, h⟩ | ⟨-, -, h⟩ | ⟨-, h⟩ <;> rw [h]
  · exact RomKept.refl c
  · exact RomKept.withPrgRam c _
  · exact romKept_registerWrite c a d

theorem romKept_ppuWrite (cd : Nat) (c : Cart) (a : Nat) (d : Byte) :
    RomKept c (c.ppuWrite cd a d) := by
  have ht : RomKept c (c.tap cd a) := romKept_tap cd c a
  rcases c.ppuWrite_cases cd a d with ⟨-, h⟩ | ⟨hc, h⟩ <;> rw [h]
  · exact ht
  · exact ht.trans (RomKept.withChrRam (by rw [Cart.tap_chrIsRam, hc]) _)

/-! Instructions, and the end of a step. -/

/-- Register writes and bus accesses keep the ROMs and the header. -/
theorem keeps_romKept (c : Cart) : Keeps (fun s => RomKept c s.cart) where
  setA _ _ h := h
  setX _ _ h := h
  setY _ _ h := h
  setSp _ _ h := h
  setP _ _ h := h
  setPc _ _ h := h
  busRead s a h := busRead_keeps (fun cd d a h => h.trans (romKept_tap cd d a)) s a h
  busWrite s a d h :=
    busWrite_keeps (fun cd c a h => h.trans (romKept_tap cd c a))
      (fun cd c a d h => h.trans (romKept_ppuWrite cd c a d))
      (fun c a d h => h.trans (romKept_cpuWrite c a d)) s a d h

/-- A property that an instruction's operations and the recording of a halt keep is kept by the fetch
and the execution of any instruction. -/
theorem keeps_fetch_exec {q : State → Prop} (k : Keeps q)
    (hhalt : ∀ s op addr, q s → q (State.halt s op addr)) {s u : State}
    (hu : exec s.fetchInstr.1 s.fetchInstr.2 = .next u) (h : q s) : q u := by
  have hf : q s.fetchInstr.2 := k.fetchInstr h
  rcases exec_cases hu with ⟨op, -, rfl⟩ | ⟨-, -, hkeep⟩
  · exact hhalt _ _ _ hf
  · exact hkeep q k hf

/-- The end of a step keeps the ROMs, the header, the parameters and the controllers. -/
theorem finishStep_kept (s : State) (c : Nat) :
    RomKept s.cart (s.finishStep c).cart ∧ (s.finishStep c).params = s.params
      ∧ (s.finishStep c).pads = s.pads := by
  cases hh : s.cpu.halted with
  | some h =>
    rw [finishStep_halted hh]
    exact ⟨RomKept.refl _, rfl, rfl⟩
  | none =>
    rw [finishStep_running hh]
    exact ⟨advance_cart (fun d h => h.trans (romKept_scanlineClock d)) _ (RomKept.refl s.cart),
      (advance_outside _ _).imp_right And.left⟩

/-- Settles O12: what the fetch and the instruction keep, by the operations they are built of, and then
what the end of the step keeps. -/
theorem stepKeepsRomAndInputs : Obligations.StepKeepsRomAndInputs := by
  unfold Obligations.StepKeepsRomAndInputs
  intro s t h
  obtain ⟨-, -, u, hu, rfl⟩ := step_next h
  have hrom : RomKept s.cart u.cart :=
    keeps_fetch_exec (keeps_romKept s.cart) (fun _ _ _ h => h) hu (RomKept.refl _)
  obtain ⟨-, hparams, hb1, hb2⟩ :=
    keeps_fetch_exec (keeps_outside s) (fun _ _ _ h => h) hu ⟨rfl, rfl, rfl, rfl⟩
  obtain ⟨hrom', hparams', hpads'⟩ :=
    finishStep_kept u (rowCycles s.fetchInstr.1 s.fetchInstr.2)
  rw [hparams', hpads']
  exact ⟨hrom.trans hrom', hparams, hb1, hb2⟩

end Sys2Proof.Claims
end

section
/-! PROOF. The machine's invariant holds after reset and is kept by every step (spec/10_state.md R26,
R28, R36 to R39). -/

namespace Sys2Proof.Claims

open Sys2Proof Sys2Proof.Machine

/-! After reset. -/

theorem ppu_atReset_empty_inv : (Ppu.atReset [] [] [] []).Inv where
  lineLow := Int.le_refl (-1)
  lineHigh := by decide
  cycleHigh := Nat.zero_le 340
  ciramWf := Memory.wf_nil
  ciramBelow := rfl
  oamWf := Memory.wf_nil
  oamBelow := rfl
  palWf := Memory.wf_nil
  palBelow := rfl
  palCanonical := rfl
  frameWf := Memory.wf_nil
  frameBelow := rfl
  frameColours := rfl

theorem blank_cart_inv : Cart.blank.Inv where
  prgSome := by decide
  prgBanks := rfl
  chrSome := by decide
  chrBanks := rfl
  prgRomWf := Memory.wf_nil
  prgRomBelow := rfl
  chrWf := Memory.wf_nil
  chrBelow := rfl
  prgRamWf := Memory.wf_nil
  prgRamBelow := rfl
  mapper := trivial

/-- Settles O9, from the reset values of the PPU, the blank cartridge and P = 0x24. -/
theorem resetHasInvariant : Obligations.ResetHasInvariant := by
  unfold Obligations.ResetHasInvariant
  exact
    { cpu := { uIsOne := rfl, bIsZero := rfl, haltedAt := fun _ _ h => by cases h }
      ramWf := Memory.wf_nil
      ramBelow := rfl
      ppu := ppu_atReset_empty_inv
      cart := blank_cart_inv
      fatal := rfl }

/-! Through a step. -/

/-- The halting step puts PC where the record says and copies the record into fatal
(spec/60_exceptions.md R220), which is what the invariant asks of a halted CPU. -/
theorem finishStep_halt_inv {s : State} (h : s.Inv) (op : Byte) (addr : Word) (c : Nat) :
    ((s.halt op addr).finishStep c).Inv := by
  rw [finishStep_halted (State.halt_halted s op addr)]
  exact
    { cpu := { uIsOne := h.cpu.uIsOne, bIsZero := h.cpu.bIsZero
               haltedAt := fun _ _ e => congrArg Prod.snd (Option.some.inj e) }
      ramWf := h.ramWf
      ramBelow := h.ramBelow
      ppu := h.ppu
      cart := h.cart
      fatal := rfl }

/-- Settles O8: the fetch keeps the invariant of a running machine; an instruction then either records
the halt, or keeps it through its register writes and bus accesses and the advance keeps it after. -/
theorem stepKeepsInvariant : Obligations.StepKeepsInvariant := by
  unfold Obligations.StepKeepsInvariant
  intro s t h hstep
  obtain ⟨-, hrun, u, hu, rfl⟩ := step_next hstep
  have hfetch : s.fetchInstr.2.Inv ∧ s.fetchInstr.2.cpu.halted = none :=
    keeps_inv.fetchInstr ⟨h, hrun⟩
  rcases exec_cases hu with ⟨op, -, rfl⟩ | ⟨-, -, hkeep⟩
  · exact finishStep_halt_inv hfetch.1 op _ _
  · obtain ⟨hinv, hrun'⟩ := hkeep _ keeps_inv hfetch
    exact finishStep_inv hinv hrun' _

end Sys2Proof.Claims
end

section
/-! PROOF. What an instruction keeps of the PPU and of P.U: each is a property that register writes, bus
accesses and the recording of a halt keep (spec/10_state.md R26, spec/61_ppu.md R262). -/

namespace Sys2Proof.Machine

open Sys2Proof

/-- A property that an instruction's operations and the recording of a halt keep is kept by the
execution of any instruction. -/
theorem Keeps.exec_any {q : State → Prop} (k : Keeps q)
    (hhalt : ∀ s op addr, q s → q (State.halt s op addr)) {i : Instr} {s t : State}
    (ht : Machine.exec i s = .next t) (h : q s) : q t := by
  rcases exec_cases ht with ⟨op, -, rfl⟩ | ⟨-, -, hkeep⟩
  · exact hhalt s op _ h
  · exact hkeep q k h

/-! The PPU. -/

/-- The counters, the sprite flags, the NMI latch and the framebuffer are out of the CPU's reach: no
read or write of a PPU register moves them, nor does OAM DMA (spec/61_ppu.md R262). -/
theorem keeps_ppuUnmoved (s : State) :
    Keeps (fun t => t.ppu.scanline = s.ppu.scanline ∧ t.ppu.cycle = s.ppu.cycle
      ∧ t.ppu.sprite0 = s.ppu.sprite0 ∧ t.ppu.overflow = s.ppu.overflow
      ∧ t.ppu.nmiOccurred = s.ppu.nmiOccurred ∧ t.ppu.framebuffer = s.ppu.framebuffer) where
  setA _ _ h := h
  setX _ _ h := h
  setY _ _ h := h
  setSp _ _ h := h
  setP _ _ h := h
  setPc _ _ h := h
  busRead t a h := by rw [busRead_ppu]; exact h
  busWrite t a d h := by rw [busWrite_ppu]; exact h

/-! P.U in the register. -/

/-- Every write to P forces bit 5 to 1 (R26). -/
@[simp] theorem getFlag_normP_unused (v : Byte) : getFlag (normP v) .u = true := by
  simp [getFlag_normP]

theorem keeps_unused : Keeps (fun s => getFlag s.cpu.p .u = true) where
  setA _ _ h := h
  setX _ _ h := h
  setY _ _ h := h
  setSp _ _ h := h
  setP _ v _ := getFlag_normP_unused v
  setPc _ _ h := h
  busRead s a h := by rw [busRead_cpu]; exact h
  busWrite s a d h := by rw [busWrite_p]; exact h

/-! The two interrupt entries of a running CPU. -/

theorem cpuNmi_running {s : State} (hn : s.cpu.halted = none) :
    s.cpuNmi = (s.enterVector s.cpu.pc (pushedByInterrupt s.cpu.p) 0xFFFA).addCycles 7 := by
  unfold State.cpuNmi
  rw [hn]

theorem cpuIrq_running {s : State} (hn : s.cpu.halted = none) (hi : getFlag s.cpu.p .i = false) :
    s.cpuIrq = (s.enterVector s.cpu.pc (pushedByInterrupt s.cpu.p) 0xFFFE).addCycles 7 := by
  unfold State.cpuIrq
  rw [hn, hi]
  rfl

/-- An entry is made of the operations of instructions, and owes cycles (R212, R214). -/
theorem Keeps.cpuNmi {q : State → Prop} (k : Keeps q)
    (hadd : ∀ s n, q s → q (State.addCycles s n)) {s : State} (h : q s) : q s.cpuNmi := by
  unfold State.cpuNmi
  split
  · exact h
  · exact hadd _ 7 (k.enterVector _ _ _ h)

theorem Keeps.cpuIrq {q : State → Prop} (k : Keeps q)
    (hadd : ∀ s n, q s → q (State.addCycles s n)) {s : State} (h : q s) : q s.cpuIrq := by
  unfold State.cpuIrq
  split
  · exact h
  · split
    · exact h
    · exact hadd _ 7 (k.enterVector _ _ _ h)

/-! P.U in the pushed byte. -/

@[simp] theorem push_read (s : State) (v : Byte) :
    (s.push v).ram.read (256 + s.cpu.sp.toNat) = v := by
  rw [push_eq]
  exact Memory.read_write_same _ _ _

/-- The status byte of an entry lies two below the slot SP pointed at, under the return address
(R59). -/
theorem enterVector_read_status (s : State) (ret : Word) (pushed : Byte) {vector : Word}
    (h : 0x4020 ≤ vector.toNat) (h' : vector.toNat < 0xFFFF) :
    (s.enterVector ret pushed vector).ram.read (256 + (s.cpu.sp - 2).toNat) = pushed := by
  rw [enterVector_eq s ret pushed h h']
  exact Memory.read_write_same _ _ _

theorem getFlag_pushedByBrk_unused (p : Byte) : getFlag (pushedByBrk p) .u = true := by
  simp [getFlag_pushedByBrk]

theorem getFlag_pushedByInterrupt_unused (p : Byte) : getFlag (pushedByInterrupt p) .u = true := by
  simp [getFlag_pushedByInterrupt]

end Sys2Proof.Machine

namespace Sys2Proof.Claims

open Sys2Proof Sys2Proof.Machine

/-- Settles O13: the PPU's counters, flags, latch and framebuffer, the driver's state and the ROMs are
each kept by every operation an instruction is built of. -/
theorem instructionsDoNotMovePpu : Obligations.InstructionsDoNotMovePpu := by
  unfold Obligations.InstructionsDoNotMovePpu
  intro i s t ht
  obtain ⟨hline, hcycle, hzero, hover, hnmi, hframe⟩ :=
    (keeps_ppuUnmoved s).exec_any (fun _ _ _ h => h) ht ⟨rfl, rfl, rfl, rfl, rfl, rfl⟩
  obtain ⟨hdriver, -⟩ :=
    (keeps_outside s).exec_any (fun _ _ _ h => h) ht ⟨rfl, rfl, rfl, rfl⟩
  have hrom : RomKept s.cart t.cart :=
    (keeps_romKept s.cart).exec_any (fun _ _ _ h => h) ht (RomKept.refl _)
  exact ⟨hline, hcycle, hzero, hover, hnmi, hframe, hdriver, hrom⟩

/-- Settles O14: instructions and entries are made of operations that keep P.U, and whatever writes P
wholly, in the register or on the stack, forces it. -/
theorem unusedFlagIsOne : Obligations.UnusedFlagIsOne := by
  unfold Obligations.UnusedFlagIsOne
  refine ⟨?instruction, ?plp, ?rti, ?reset, ?entry, ?php, ?brk, ?nmi, ?irq⟩
  case instruction => exact fun _ _ _ => keeps_unused.exec_any fun _ _ _ h => h
  case plp =>
    intro s t ht
    cases ht
    exact getFlag_normP_unused _
  case rti =>
    intro s t ht
    cases ht
    rw [returnFromInterrupt_eq]
    exact getFlag_normP_unused _
  case reset =>
    intro s
    rw [cpuReset_eq]
    show getFlag 0x24 .u = true
    decide
  case entry =>
    intro s h
    exact ⟨keeps_unused.cpuNmi (fun _ _ h => h) h, keeps_unused.cpuIrq (fun _ _ h => h) h⟩
  case php =>
    intro s t ht
    cases ht
    rw [push_read]
    exact getFlag_pushedByBrk_unused _
  case brk =>
    intro s t ht
    cases ht
    rw [enterVector_read_status s _ _ (by decide) (by decide)]
    exact getFlag_pushedByBrk_unused _
  case nmi =>
    intro s hn
    rw [cpuNmi_running hn, State.addCycles_ram, enterVector_read_status s _ _ (by decide) (by decide)]
    exact getFlag_pushedByInterrupt_unused _
  case irq =>
    intro s hn hi
    rw [cpuIrq_running hn hi, State.addCycles_ram,
      enterVector_read_status s _ _ (by decide) (by decide)]
    exact getFlag_pushedByInterrupt_unused _

end Sys2Proof.Claims
end

section
/-! PROOF. A step runs the instruction its next bytes decode to: the decoder over a list of bytes and
the fetch through the bus choose the same length from the opcode byte (spec/30_encoding.md R90, R98). -/

namespace Sys2Proof.Claims

open Sys2Proof Sys2Proof.Machine

/-! Fetching a list of bytes. -/

theorem fetches_nil (s t : State) : Fetches s [] t ↔ t = s := Iff.rfl

theorem fetches_cons (s t : State) (b : Byte) (bs : List Byte) :
    Fetches s (b :: bs) t ↔ s.fetchByte.1 = b ∧ Fetches s.fetchByte.2 bs t := Iff.rfl

theorem fetchByte_cpu (s : State) :
    s.fetchByte.2.cpu = { s.cpu with pc := s.cpu.pc + 1 } := by
  unfold State.fetchByte State.setPc
  dsimp only
  rw [busRead_cpu]

/-- Fetching moves PC past the bytes and leaves the CPU's other registers (spec/10_state.md R24). -/
theorem Fetches.cpu {s t : State} {bs : List Byte} (h : Fetches s bs t) :
    t.cpu = { s.cpu with pc := s.cpu.pc + BitVec.ofNat 16 bs.length } := by
  induction bs generalizing s with
  | nil =>
    rw [fetches_nil] at h
    subst h
    simp
  | cons b bs ih =>
    rw [fetches_cons] at h
    rw [ih h.2, fetchByte_cpu, List.length_cons, Nat.add_comm, BitVec.ofNat_add, BitVec.add_assoc]
    rfl

/-- The fetch of an instruction gives what its bytes, fetched one after another, decode to. -/
theorem fetchInstr_of_decode {s t : State} {bs : List Byte} {i : Instr}
    (hd : decode bs = .ok (i, [])) (hf : Fetches s bs t) : s.fetchInstr = (i, t) := by
  cases bs with
  | nil => cases hd
  | cons op rest =>
    obtain ⟨rfl, hrest⟩ := (fetches_cons ..).mp hf
    unfold State.fetchInstr
    dsimp only [decode] at hd ⊢
    split at hd
    case isTrue h1 =>
      cases hd
      rw [if_pos h1, (fetches_nil ..).mp hrest]
    case isFalse h1 =>
      rw [if_neg h1]
      split at hd
      case isTrue h2 =>
        rw [if_pos h2]
        match rest with
        | [] => cases hd
        | b1 :: rest =>
          cases hd
          obtain ⟨rfl, hnil⟩ := (fetches_cons ..).mp hrest
          rw [(fetches_nil ..).mp hnil]
      case isFalse h2 =>
        rw [if_neg h2]
        match rest with
        | [] => cases hd
        | [_] => cases hd
        | b1 :: b2 :: rest =>
          cases hd
          obtain ⟨rfl, hrest'⟩ := (fetches_cons ..).mp hrest
          obtain ⟨rfl, hnil⟩ := (fetches_cons ..).mp hrest'
          rw [(fetches_nil ..).mp hnil]

/-- The step, given its instruction and what that instruction answers. -/
theorem step_of_exec {s t u : State} {i : Instr} (hp : s.driver.poweredOn = true)
    (hn : s.cpu.halted = none) (hf : s.fetchInstr = (i, t)) (hu : exec i t = .next u) :
    step s = .next (u.finishStep (rowCycles i t)) := by
  rw [step_running hp hn, hf]
  unfold runInstr
  rw [hu]

/-- Settles O4: the fetch agrees with the decoder, and the end of the step follows from whether the
instruction halted. -/
theorem stepRunsDecodedInstruction : Obligations.StepRunsDecodedInstruction := by
  unfold Obligations.StepRunsDecodedInstruction
  intro s t bs i hp hn hd hf
  obtain ⟨u, hu⟩ := exec_answers i t
  have hstep : step s = .next (u.finishStep (rowCycles i t)) :=
    step_of_exec hp hn (fetchInstr_of_decode hd hf) hu
  refine ⟨hf.cpu, u, hu, fun op a hh => ?halted, fun hr => ?running⟩
  case halted => rw [hstep, finishStep_halted hh]
  case running => rw [hstep, finishStep_running hr]

end Sys2Proof.Claims
end

section
/-! PROOF. The CPU bus decoders, window by window, and the mirrors in them (spec/20_memory.md R50 to
R54): one equation for each window, and what the devices behind the windows keep. -/

namespace Sys2Proof.Machine

open Sys2Proof

/-! The windows of BusRead (R50) beside RAM and the cartridge. -/

theorem busRead_ppu_area (s : State) {a : Word} (h : 0x2000 ≤ a.toNat) (h' : a.toNat ≤ 0x3FFF) :
    s.busRead a = ((s.ppu.regRead s.params.a12Cooldown s.cart (a.toNat % 8)).1,
      { s with ppu := (s.ppu.regRead s.params.a12Cooldown s.cart (a.toNat % 8)).2.1,
               cart := (s.ppu.regRead s.params.a12Cooldown s.cart (a.toNat % 8)).2.2 }) := by
  unfold State.busRead
  dsimp only
  rw [if_neg (by omega), if_pos h']

theorem busRead_pad1 (s : State) {a : Word} (h : a.toNat = 0x4016) :
    s.busRead a = ((s.pads.read .one).1, { s with pads := (s.pads.read .one).2 }) := by
  unfold State.busRead
  dsimp only
  rw [if_neg (by omega), if_neg (by omega), if_pos h]

theorem busRead_pad2 (s : State) {a : Word} (h : a.toNat = 0x4017) :
    s.busRead a = ((s.pads.read .two).1, { s with pads := (s.pads.read .two).2 }) := by
  unfold State.busRead
  dsimp only
  rw [if_neg (by omega), if_neg (by omega), if_neg (by omega), if_pos h]

/-- The APU and I/O space without the controller ports (R54). -/
theorem busRead_unmapped (s : State) {a : Word} (h : 0x4000 ≤ a.toNat) (h' : a.toNat ≤ 0x401F)
    (h1 : a.toNat ≠ 0x4016) (h2 : a.toNat ≠ 0x4017) : s.busRead a = (0x00, s) := by
  unfold State.busRead
  dsimp only
  rw [if_neg (by omega), if_neg (by omega), if_neg h1, if_neg h2, if_pos h']

/-! The windows of BusWrite (R51) beside RAM and the cartridge. -/

theorem busWrite_ppu_area (s : State) {a : Word} (h : 0x2000 ≤ a.toNat) (h' : a.toNat ≤ 0x3FFF)
    (d : Byte) :
    s.busWrite a d
      = { s with ppu := (s.ppu.regWrite s.params.a12Cooldown s.cart (a.toNat % 8) d).1,
                 cart := (s.ppu.regWrite s.params.a12Cooldown s.cart (a.toNat % 8) d).2 } := by
  unfold State.busWrite
  dsimp only
  rw [if_neg (by omega), if_pos h']

theorem busWrite_dma (s : State) {a : Word} (h : a.toNat = 0x4014) (d : Byte) :
    s.busWrite a d = s.oamDma d := by
  unfold State.busWrite
  dsimp only
  rw [if_neg (by omega), if_neg (by omega), if_pos h]

theorem busWrite_strobe (s : State) {a : Word} (h : a.toNat = 0x4016) (d : Byte) :
    s.busWrite a d = { s with pads := s.pads.strobeWrite d } := by
  unfold State.busWrite
  dsimp only
  rw [if_neg (by omega), if_neg (by omega), if_neg (by omega), if_pos h]

/-- The APU and I/O space without OAM DMA and the strobe; $4017 is in it (R51, R54). -/
theorem busWrite_unmapped (s : State) {a : Word} (h : 0x4000 ≤ a.toNat) (h' : a.toNat ≤ 0x401F)
    (h1 : a.toNat ≠ 0x4014) (h2 : a.toNat ≠ 0x4016) (d : Byte) : s.busWrite a d = s := by
  unfold State.busWrite
  dsimp only
  rw [if_neg (by omega), if_neg (by omega), if_neg h1, if_neg h2, if_pos h']

/-- A bus write lands in exactly one of the six windows (R51). -/
theorem busWrite_cases (s : State) (a : Word) (d : Byte) :
    (a.toNat ≤ 0x1FFF ∧ s.busWrite a d = { s with ram := s.ram.write (a.toNat % 0x800) d })
      ∨ (0x2000 ≤ a.toNat ∧ a.toNat ≤ 0x3FFF ∧ s.busWrite a d
          = { s with ppu := (s.ppu.regWrite s.params.a12Cooldown s.cart (a.toNat % 8) d).1,
                     cart := (s.ppu.regWrite s.params.a12Cooldown s.cart (a.toNat % 8) d).2 })
      ∨ (a.toNat = 0x4014 ∧ s.busWrite a d = s.oamDma d)
      ∨ (a.toNat = 0x4016 ∧ s.busWrite a d = { s with pads := s.pads.strobeWrite d })
      ∨ (0x4000 ≤ a.toNat ∧ a.toNat ≤ 0x401F ∧ a.toNat ≠ 0x4014 ∧ a.toNat ≠ 0x4016
          ∧ s.busWrite a d = s)
      ∨ (0x4020 ≤ a.toNat ∧ s.busWrite a d = { s with cart := s.cart.cpuWrite a.toNat d }) := by
  by_cases hram : a.toNat ≤ 0x1FFF
  · exact .inl ⟨hram, busWrite_ram_area s (by omega) d⟩
  by_cases hppu : a.toNat ≤ 0x3FFF
  · exact .inr (.inl ⟨by omega, hppu, busWrite_ppu_area s (by omega) hppu d⟩)
  by_cases hdma : a.toNat = 0x4014
  · exact .inr (.inr (.inl ⟨hdma, busWrite_dma s hdma d⟩))
  by_cases hstrobe : a.toNat = 0x4016
  · exact .inr (.inr (.inr (.inl ⟨hstrobe, busWrite_strobe s hstrobe d⟩)))
  by_cases hio : a.toNat ≤ 0x401F
  · exact .inr (.inr (.inr (.inr (.inl
      ⟨by omega, hio, hdma, hstrobe, busWrite_unmapped s (by omega) hio hdma hstrobe d⟩))))
  · exact .inr (.inr (.inr (.inr (.inr ⟨by omega, busWrite_cart_area s (by omega) d⟩))))

/-! What the devices keep. -/

/-- A cartridge write changes PRG-RAM at one byte, and only through its window (R301). -/
theorem Cart.cpuWrite_prgRam_read (c : Cart) (a : Nat) (d : Byte) (k : Nat) :
    (c.cpuWrite a d).prgRam.read k
      = if 0x6000 ≤ a ∧ a < 0x8000 ∧ k = a - 0x6000 then d else c.prgRam.read k := by
  rcases c.cpuWrite_cases a d with ⟨ha, e⟩ | ⟨ha, ha', e⟩ | ⟨ha, e⟩ <;> rw [e]
  · rw [if_neg (by omega)]
  · rw [Memory.read_write]
    simp only [ha, ha', true_and]
  · rw [if_neg (by omega), Cart.registerWrite_eq]

/-- Only PPUDATA reaches the cartridge (R259). -/
theorem Ppu.regWrite_cart (cd : Nat) (p : Ppu) (c : Cart) {k : Nat} (hk : k ≠ 7) (d : Byte) :
    (p.regWrite cd c k d).2 = c := by
  unfold Ppu.regWrite
  split
  case h_7 => exact absurd rfl hk
  all_goals rfl

theorem Ppu.writeScroll_eq (p : Ppu) (d : Byte) :
    p.writeScroll d
      = { p with t := (p.writeScroll d).t, x := (p.writeScroll d).x, w := (p.writeScroll d).w } := by
  unfold Ppu.writeScroll
  split <;> rfl

theorem Ppu.writeAddr_eq (p : Ppu) (d : Byte) :
    p.writeAddr d
      = { p with t := (p.writeAddr d).t, v := (p.writeAddr d).v, w := (p.writeAddr d).w } := by
  unfold Ppu.writeAddr
  dsimp only
  split <;> rfl

/-- Only PPUDATA reaches CIRAM and palette RAM (R259). -/
theorem Ppu.regWrite_vram (cd : Nat) (p : Ppu) (c : Cart) {k : Nat} (hk : k ≠ 7) (d : Byte) :
    (p.regWrite cd c k d).1.ciram = p.ciram ∧ (p.regWrite cd c k d).1.palettes = p.palettes := by
  unfold Ppu.regWrite
  split
  case h_5 => rw [Ppu.writeScroll_eq]; exact ⟨rfl, rfl⟩
  case h_6 => rw [Ppu.writeAddr_eq]; exact ⟨rfl, rfl⟩
  case h_7 => exact absurd rfl hk
  all_goals exact ⟨rfl, rfl⟩

/-- Only OAMDATA reaches OAM (R259). -/
theorem Ppu.regWrite_oam (cd : Nat) (p : Ppu) (c : Cart) {k : Nat} (hk : k ≠ 4) (d : Byte) :
    (p.regWrite cd c k d).1.oam = p.oam := by
  unfold Ppu.regWrite
  split
  case h_4 => exact absurd rfl hk
  case h_5 => rw [Ppu.writeScroll_eq]
  case h_6 => rw [Ppu.writeAddr_eq]
  case h_7 =>
    unfold Ppu.writeData
    dsimp only
    rw [Ppu.busWrite_ppu]
  all_goals rfl

/-- OAM DMA keeps, of the cartridge, what the A12 tap keeps (R57). -/
theorem oamDma_keeps {q : Cart → Prop} (ht : ∀ cd c a, q c → q (Cart.tap cd c a)) (s : State)
    (page : Byte) (h : q s.cart) : q (s.oamDma page).cart :=
  foldl_oamDma_keeps ht page (List.range 256) s h

/-- OAM DMA changes, of the PPU, OAM and what the bus reads of a PPU page change (R57). -/
theorem oamDma_ppu (s : State) (page : Byte) :
    (s.oamDma page).ppu
      = { s.ppu with vblank := (s.oamDma page).ppu.vblank, w := (s.oamDma page).ppu.w,
                     readBuffer := (s.oamDma page).ppu.readBuffer, v := (s.oamDma page).ppu.v,
                     oam := (s.oamDma page).ppu.oam } :=
  (foldl_oamDma_frame page (List.range 256) s).ppu

/-- The address of the PPU register that a mirror of it stands for (R53). -/
theorem ppuRegister_toNat (a : Word) :
    (0x2000 ||| (a &&& 7) : Word).toNat = 0x2000 + a.toNat % 8 := by
  have hmod : a.toNat &&& 7 = a.toNat % 8 := land_mask a.toNat 3
  have hor : 0x2000 ||| (a.toNat % 8) = 0x2000 + a.toNat % 8 :=
    (Nat.two_pow_add_eq_or_of_lt (i := 13) (by omega) 1).symm
  rw [BitVec.toNat_or, BitVec.toNat_and]
  show 0x2000 ||| (a.toNat &&& 7) = _
  rw [hmod, hor]

end Sys2Proof.Machine

namespace Sys2Proof.Claims

open Sys2Proof Sys2Proof.Machine

/-- The read side effects touch registers only: no byte of a device's memory changes (R50). -/
theorem busRead_devicesKept (s : State) (a : Word) : DevicesKept s (s.busRead a).2 := by
  have hcart : (s.busRead a).2.cart.prgRam = s.cart.prgRam
      ∧ (s.busRead a).2.cart.prgRom = s.cart.prgRom ∧ (s.busRead a).2.cart.chr = s.cart.chr :=
    busRead_keeps (q := fun c => c.prgRam = s.cart.prgRam ∧ c.prgRom = s.cart.prgRom
      ∧ c.chr = s.cart.chr) (fun cd c a h => by simpa using h) s a ⟨rfl, rfl, rfl⟩
  obtain ⟨hram, hrom, hchr⟩ := hcart
  exact
    { prgRam := fun k => by rw [hram]
      prgRom := fun k => by rw [hrom]
      chr := fun k => by rw [hchr]
      ciram := fun k => by rw [busRead_ppu]
      oam := fun k => by rw [busRead_ppu]
      palettes := fun k => by rw [busRead_ppu]
      framebuffer := fun k => by rw [busRead_ppu] }

/-- Settles O15: each window by its equation, and the frame from what every bus read keeps. -/
theorem busReadDecoder : Obligations.BusReadDecoder := by
  unfold Obligations.BusReadDecoder
  intro s a
  exact
    { ram := fun h => by rw [busRead_ram_area s (by omega)]; exact ⟨rfl, rfl⟩
      ppu := fun h h' => by rw [busRead_ppu_area s h h']; exact ⟨rfl, rfl⟩
      pad1 := fun h => by rw [busRead_pad1 s h]; exact ⟨rfl, rfl, rfl⟩
      pad2 := fun h => by rw [busRead_pad2 s h]; exact ⟨rfl, rfl, rfl⟩
      unmapped := fun h h' h1 h2 => by rw [busRead_unmapped s h h' h1 h2]; exact ⟨rfl, rfl⟩
      cart := fun h => by rw [busRead_cart_area s h]; exact ⟨rfl, rfl⟩
      rest := ⟨busRead_cpu s a, busRead_ram s a, busRead_driver s a, busRead_params s a⟩
      memories := busRead_devicesKept s a }

/-! The memories a bus write leaves. -/

theorem busWrite_prgRam_read (s : State) (a : Word) (d : Byte) (k : Nat) :
    (s.busWrite a d).cart.prgRam.read k
      = if 0x6000 ≤ a.toNat ∧ a.toNat < 0x8000 ∧ k = a.toNat - 0x6000 then d
        else s.cart.prgRam.read k := by
  rcases busWrite_cases s a d with ⟨h, e⟩ | ⟨-, h, e⟩ | ⟨h, e⟩ | ⟨h, e⟩ | ⟨-, h, -, -, e⟩
    | ⟨-, e⟩ <;> rw [e]
  case inr.inr.inr.inr.inr => exact s.cart.cpuWrite_prgRam_read a.toNat d k
  all_goals rw [if_neg (by omega)]
  case inr.inl =>
    exact Ppu.regWrite_keeps (q := fun c => c.prgRam.read k = s.cart.prgRam.read k)
      (fun cd c a d h => by simpa using h) _ _ _ _ rfl
  case inr.inr.inl =>
    exact oamDma_keeps (q := fun c => c.prgRam.read k = s.cart.prgRam.read k)
      (fun cd c a h => by simpa using h) s d rfl

/-- CHR changes through PPUDATA only (R51, R259). -/
theorem busWrite_chr (s : State) {a : Word} (d : Byte)
    (h : ¬(0x2000 ≤ a.toNat ∧ a.toNat ≤ 0x3FFF ∧ a.toNat % 8 = 7)) :
    (s.busWrite a d).cart.chr = s.cart.chr := by
  rcases busWrite_cases s a d with ⟨-, e⟩ | ⟨h1, h2, e⟩ | ⟨-, e⟩ | ⟨-, e⟩ | ⟨-, -, -, -, e⟩
    | ⟨-, e⟩ <;> rw [e]
  case inr.inl =>
    exact congrArg Cart.chr (s.ppu.regWrite_cart _ s.cart (fun hk => h ⟨h1, h2, hk⟩) d)
  case inr.inr.inl =>
    exact oamDma_keeps (q := fun c => c.chr = s.cart.chr) (fun cd c a h => by simpa using h) s d rfl
  case inr.inr.inr.inr.inr => exact s.cart.cpuWrite_chr a.toNat d

/-- CIRAM and palette RAM change through PPUDATA only (R51, R259). -/
theorem busWrite_vram (s : State) {a : Word} (d : Byte)
    (h : ¬(0x2000 ≤ a.toNat ∧ a.toNat ≤ 0x3FFF ∧ a.toNat % 8 = 7)) :
    (s.busWrite a d).ppu.ciram = s.ppu.ciram ∧ (s.busWrite a d).ppu.palettes = s.ppu.palettes := by
  rcases busWrite_cases s a d with ⟨-, e⟩ | ⟨h1, h2, e⟩ | ⟨-, e⟩ | ⟨-, e⟩ | ⟨-, -, -, -, e⟩
    | ⟨-, e⟩ <;> rw [e]
  case inr.inl => exact s.ppu.regWrite_vram _ s.cart (fun hk => h ⟨h1, h2, hk⟩) d
  case inr.inr.inl => rw [oamDma_ppu]; exact ⟨rfl, rfl⟩
  all_goals exact ⟨rfl, rfl⟩

/-- OAM changes through OAMDATA and OAM DMA only (R51, R57, R259). -/
theorem busWrite_oam (s : State) {a : Word} (d : Byte)
    (h : ¬(0x2000 ≤ a.toNat ∧ a.toNat ≤ 0x3FFF ∧ a.toNat % 8 = 4)) (hdma : a.toNat ≠ 0x4014) :
    (s.busWrite a d).ppu.oam = s.ppu.oam := by
  rcases busWrite_cases s a d with ⟨-, e⟩ | ⟨h1, h2, e⟩ | ⟨h1, -⟩ | ⟨-, e⟩ | ⟨-, -, -, -, e⟩
    | ⟨-, e⟩
  case inr.inl => rw [e]; exact s.ppu.regWrite_oam _ s.cart (fun hk => h ⟨h1, h2, hk⟩) d
  case inr.inr.inl => exact absurd h1 hdma
  all_goals rw [e]

/-- Settles O16: each window by its equation, and each memory by what can reach it. -/
theorem busWriteDecoder : Obligations.BusWriteDecoder := by
  unfold Obligations.BusWriteDecoder
  intro s a d
  exact
    { ram := fun k => by
        rw [busWrite_ram]
        split
        case isTrue h =>
          rw [Memory.read_write]
          simp only [show a.toNat ≤ 0x1FFF by omega, true_and]
        case isFalse h => rw [if_neg (by omega)]
      ppu := fun h h' => by rw [busWrite_ppu_area s h h' d]
      dma := fun h => busWrite_dma s h d
      strobe := fun h => busWrite_strobe s h d
      ignored := fun h h' h1 h2 => busWrite_unmapped s h h' h1 h2 d
      cart := fun h => busWrite_cart_area s h d
      cpu := busWrite_cpu s a d
      ppuKept := fun h => by rw [busWrite_ram_area s (by omega) d]; exact ⟨rfl, rfl⟩
      padsKept := fun h => by
        by_cases hram : a.toNat < 0x2000
        · rw [busWrite_ram_area s hram d]
        · rw [busWrite_ppu_area s (by omega) h d]
      prgRam := busWrite_prgRam_read s a d
      prgRom := busWrite_keeps (q := fun c => ∀ k, c.prgRom.read k = s.cart.prgRom.read k)
        (fun cd c a h => by simpa using h) (fun cd c a d h => by simpa using h)
        (fun c a d h => by simpa using h) s a d (fun _ => rfl)
      chr := fun h k => by rw [busWrite_chr s d h]
      vram := fun h k => by
        obtain ⟨hciram, hpal⟩ := busWrite_vram s d h
        rw [hciram, hpal]
        exact ⟨rfl, rfl⟩
      oam := fun h hdma k => by rw [busWrite_oam s d h hdma]
      frame := ⟨by rw [busWrite_ppu], busWrite_driver s a d, busWrite_params s a d⟩ }

/-! Mirrors and the unmapped space. -/

/-- Settles O17: the two addresses are congruent modulo 0x800, and both lie in RAM's window. -/
theorem ramMirroring : Obligations.RamMirroring := by
  unfold Obligations.RamMirroring
  intro s a v h
  have hnat : (BitVec.ofNat 16 (a.toNat % 0x800)).toNat = a.toNat % 0x800 := by
    rw [BitVec.toNat_ofNat]; omega
  have hread : ∀ t : State, t.busRead (BitVec.ofNat 16 (a.toNat % 0x800))
      = (t.ram.read (a.toNat % 0x800), t) := fun t => by
    rw [busRead_ram_area t (by rw [hnat]; omega), hnat, Nat.mod_mod]
  rw [hread, hread, busWrite_ram_area s (by omega), busRead_ram_area s (by omega)]
  exact ⟨Memory.read_write_same _ _ _, rfl⟩

/-- Settles O18: both addresses select the register a mod 8. -/
theorem ppuRegisterMirroring : Obligations.PpuRegisterMirroring := by
  unfold Obligations.PpuRegisterMirroring
  intro s a d h h'
  have hreg : (0x2000 ||| (a &&& 7) : Word).toNat = 0x2000 + a.toNat % 8 := ppuRegister_toNat a
  have hmod : (0x2000 ||| (a &&& 7) : Word).toNat % 8 = a.toNat % 8 := by omega
  constructor
  · rw [busRead_ppu_area s h h', busRead_ppu_area s (by omega) (by omega), hmod]
  · rw [busWrite_ppu_area s h h', busWrite_ppu_area s (by omega) (by omega), hmod]

/-- Settles O19, by the equations of the unmapped window. -/
theorem apuSpaceIsUnmapped : Obligations.ApuSpaceIsUnmapped := by
  unfold Obligations.ApuSpaceIsUnmapped
  intro s a d h h'
  exact ⟨busRead_unmapped s h h', fun h1 h2 _ => busWrite_unmapped s h h' h1 h2 d⟩

end Sys2Proof.Claims
end

section
/-! PROOF. OAM DMA: the states between its 256 bus reads, and what it leaves in OAM when the reads have
no side effect (spec/20_memory.md R57, R58). -/

namespace Sys2Proof.Machine

open Sys2Proof

/-- The state after the first n bytes of OAM DMA (R57). -/
def State.afterDmaBytes (s : State) (page : Byte) (n : Nat) : State :=
  (List.range n).foldl (State.oamDmaByte page) s

theorem afterDmaBytes_succ (s : State) (page : Byte) (n : Nat) :
    s.afterDmaBytes page (n + 1) = State.oamDmaByte page (s.afterDmaBytes page n) n := by
  unfold State.afterDmaBytes
  rw [List.range_succ, List.foldl_append]
  rfl

theorem afterDmaBytes_frame (s : State) (page : Byte) (n : Nat) :
    DmaFrame s (s.afterDmaBytes page n) := foldl_oamDma_frame page (List.range n) s

theorem oamDma_eq (s : State) (page : Byte) :
    s.oamDma page = (s.afterDmaBytes page 256).addCycles (dmaCycles s.params.dmaCost) := rfl

/-- The address of byte i of a page. -/
theorem pageByte_toNat (page : Byte) {i : Nat} (hi : i < 256) :
    (word16 page (BitVec.ofNat 8 i)).toNat = page.toNat * 256 + i := by
  rw [word16_toNat, BitVec.toNat_ofNat]
  show page.toNat * 256 + i % 256 = _
  rw [Nat.mod_eq_of_lt hi]

/-- The machine with another OAM. -/
def State.withOam (s : State) (m : Memory) : State := { s with ppu := { s.ppu with oam := m } }

/-- Where the reads of a page give the bytes f and have no side effect, the first n bytes of OAM DMA
change OAM only, and it holds f from OAMADDR on: the slots of 256 bytes are apart modulo 256. -/
theorem afterDmaBytes_of_pure {s : State} {page : Byte} {f : Nat → Byte}
    (hread : ∀ m i, i < 256 →
      (s.withOam m).busRead (word16 page (BitVec.ofNat 8 i)) = (f i, s.withOam m))
    {n : Nat} (hn : n ≤ 256) :
    ∃ m, s.afterDmaBytes page n = s.withOam m
      ∧ ∀ i, i < n → m.read ((s.ppu.oamaddr.toNat + i) % 256) = f i := by
  induction n with
  | zero => exact ⟨s.ppu.oam, rfl, fun i hi => absurd hi (Nat.not_lt_zero i)⟩
  | succ n ih =>
    obtain ⟨m, hm, hf⟩ := ih (by omega)
    refine ⟨m.write ((s.ppu.oamaddr.toNat + n) % 256) (f n), ?_, fun i hi => ?_⟩
    · rw [afterDmaBytes_succ, hm]
      unfold State.oamDmaByte
      rw [hread m n hn]
      rfl
    · rw [Memory.read_write]
      by_cases h : i = n
      · rw [h, if_pos rfl]
      · rw [if_neg (by omega), hf i (by omega)]

/-- The same of the whole transfer. -/
theorem oamDma_of_pure {s : State} {page : Byte} {f : Nat → Byte}
    (hread : ∀ m i, i < 256 →
      (s.withOam m).busRead (word16 page (BitVec.ofNat 8 i)) = (f i, s.withOam m)) :
    (s.oamDma page).cart = s.cart ∧ (s.oamDma page).pads = s.pads
      ∧ ∀ i, i < 256 → (s.oamDma page).ppu.oam.read ((s.ppu.oamaddr.toNat + i) % 256) = f i := by
  obtain ⟨m, hm, hf⟩ := afterDmaBytes_of_pure hread (Nat.le_refl 256)
  rw [oamDma_eq, hm]
  exact ⟨rfl, rfl, hf⟩

/-- A page of RAM and its mirrors (R52). -/
theorem oamDma_ram_page (s : State) {page : Byte} (h : page.toNat < 0x20) :
    (s.oamDma page).cart = s.cart ∧ (s.oamDma page).pads = s.pads ∧ ∀ i, i < 256 →
      (s.oamDma page).ppu.oam.read ((s.ppu.oamaddr.toNat + i) % 256)
        = s.ram.read ((page.toNat * 256 + i) % 0x800) :=
  oamDma_of_pure fun m i hi => by
    have ha := pageByte_toNat page hi
    rw [busRead_ram_area _ (by omega), ha]
    rfl

/-- A page of the cartridge (R55). -/
theorem oamDma_cart_page (s : State) {page : Byte} (h : 0x41 ≤ page.toNat) :
    (s.oamDma page).cart = s.cart ∧ (s.oamDma page).pads = s.pads ∧ ∀ i, i < 256 →
      (s.oamDma page).ppu.oam.read ((s.ppu.oamaddr.toNat + i) % 256)
        = s.cart.cpuRead (page.toNat * 256 + i) :=
  oamDma_of_pure fun m i hi => by
    have ha := pageByte_toNat page hi
    rw [busRead_cart_area _ (by omega), ha]
    rfl

end Sys2Proof.Machine

namespace Sys2Proof.Claims

open Sys2Proof Sys2Proof.Machine

/-- One byte of OAM DMA is one bus read and one store into OAM (R57). -/
theorem afterDmaBytes_reads (s : State) (page : Byte) (i : Nat) :
    ∃ b u, ReadAt (s.afterDmaBytes page i) (word16 page (BitVec.ofNat 8 i)) b u
      ∧ s.afterDmaBytes page (i + 1) = { u with ppu := { u.ppu with
          oam := u.ppu.oam.write ((s.ppu.oamaddr.toNat + i) % 256) b } } := by
  refine ⟨_, _, busReadDecoder _ _, ?_⟩
  have haddr : ((s.afterDmaBytes page i).busRead (word16 page (BitVec.ofNat 8 i))).2.ppu.oamaddr
      = s.ppu.oamaddr := by
    rw [busRead_ppu, (afterDmaBytes_frame s page i).ppu]
  rw [afterDmaBytes_succ, ← haddr]
  rfl

/-- Settles O21: the states between the reads are those of the fold, and on a page without read side
effects OAM is the page. -/
theorem oamDmaCopiesPage : Obligations.OamDmaCopiesPage := by
  unfold Obligations.OamDmaCopiesPage
  intro s page
  have hframe : DmaFrame s (s.afterDmaBytes page 256) := afterDmaBytes_frame s page 256
  exact ⟨⟨s.afterDmaBytes page, rfl, fun i _ => afterDmaBytes_reads s page i, oamDma_eq s page⟩,
    by rw [oamDma_ppu], oamDma_cpu s page, fun k => congrArg (Memory.read · k) hframe.ram,
    hframe.driver, hframe.params, oamDma_ram_page s, oamDma_cart_page s⟩

end Sys2Proof.Claims
end

section
/-! PROOF. The PPU's address space above the pattern tables: palette entries and nametables, by the
arithmetic of their indices (spec/20_memory.md R65 to R67). -/

namespace Sys2Proof.Machine

open Sys2Proof

/-! The indices as numbers. -/

/-- PalIndex with its mask and its four aliases as remainders (R66). -/
theorem palIndex_eq (a : Nat) :
    palIndex a = if 16 ≤ a % 32 ∧ a % 4 = 0 then a % 32 - 16 else a % 32 := by
  have hmask : a &&& 0x1F = a % 32 := land_mask a 5
  unfold palIndex
  dsimp only
  rw [hmask]
  split <;> split <;> omega

/-- Two addresses are one palette entry exactly when they are the same entry of 32 or an aliased pair:
both a multiple of 4, and the same of 16 (R66). -/
theorem palIndex_eq_palIndex_iff (a b : Nat) :
    palIndex a = palIndex b
      ↔ a % 32 = b % 32 ∨ (a % 4 = 0 ∧ b % 4 = 0 ∧ a % 16 = b % 16) := by
  rw [palIndex_eq, palIndex_eq]
  split <;> split <;> omega

/-- NtIndex with its shifts and masks as quotients and remainders (R65). -/
theorem ntIndex_eq (m : Mirroring) (a : Nat) :
    ntIndex m a = (if m = .horizontal then a / 0x400 % 4 / 2 else a / 0x400 % 4 % 2) * 0x400
      + a % 0x400 := by
  have htable : (a >>> 10) &&& 3 = a / 0x400 % 4 := by
    rw [Nat.shiftRight_eq_div_pow]
    exact land_mask (a / 0x400) 2
  have hoffset : a &&& 0x3FF = a % 0x400 := land_mask a 10
  have hlow : ∀ k : Nat, k &&& 1 = k % 2 := fun k => land_mask k 1
  have hhigh : ∀ k : Nat, k >>> 1 = k / 2 := fun k => Nat.shiftRight_eq_div_pow k 1
  unfold ntIndex
  dsimp only
  rw [htable, hoffset, hlow, hhigh]
  cases m <;> rfl

/-- An address of PPU space is its own mask. -/
theorem land_ppu_space {a : Nat} (h : a ≤ 0x3FFF) : a &&& 0x3FFF = a :=
  (land_mask a 14).trans (Nat.mod_eq_of_lt (by omega))

/-! The windows of PpuRead and PpuWrite (R67). -/

section
variable (cd : Nat) (p : Ppu) (c : Cart) {a : Nat}

theorem Ppu.busRead_nametable (h : 0x2000 ≤ a) (h' : a ≤ 0x3EFF) :
    p.busRead cd c a = (p.ciram.read (ntIndex c.currentMirroring a), c) := by
  unfold Ppu.busRead
  dsimp only
  rw [land_ppu_space (by omega), if_neg (by omega), if_pos (by omega)]

theorem Ppu.busWrite_nametable (h : 0x2000 ≤ a) (h' : a ≤ 0x3EFF) (d : Byte) :
    p.busWrite cd c a d
      = ({ p with ciram := p.ciram.write (ntIndex c.currentMirroring a) d }, c) := by
  unfold Ppu.busWrite
  dsimp only
  rw [land_ppu_space (by omega), if_neg (by omega), if_pos (by omega)]

theorem Ppu.busRead_palette (h : 0x3F00 ≤ a) (h' : a ≤ 0x3FFF) :
    p.busRead cd c a = (p.palettes.read (palIndex a), c) := by
  unfold Ppu.busRead
  dsimp only
  rw [land_ppu_space h', if_neg (by omega), if_neg (by omega)]

theorem Ppu.busWrite_palette (h : 0x3F00 ≤ a) (h' : a ≤ 0x3FFF) (d : Byte) :
    p.busWrite cd c a d = ({ p with palettes := p.palettes.write (palIndex a) d }, c) := by
  unfold Ppu.busWrite
  dsimp only
  rw [land_ppu_space h', if_neg (by omega), if_neg (by omega)]

end

end Sys2Proof.Machine

namespace Sys2Proof.Claims

open Sys2Proof Sys2Proof.Machine

/-- Settles O22: a write and a read of palette RAM meet exactly where PalIndex agrees. -/
theorem paletteMirrors : Obligations.PaletteMirrors := by
  unfold Obligations.PaletteMirrors
  intro cd p c v a b ha ha' hb hb'
  dsimp only
  rw [← palIndex_eq_palIndex_iff, p.busWrite_palette cd c ha ha', Ppu.busRead_palette _ _ _ hb hb',
    p.busRead_palette cd c hb hb']
  constructor
  · intro h
    rw [h]
    exact Memory.read_write_same _ _ _
  · intro h
    exact Memory.read_write_other _ _ (Ne.symm h)

/-- Settles O23, by the nametable window and NtIndex as a number. -/
theorem nametableMirroring : Obligations.NametableMirroring := by
  unfold Obligations.NametableMirroring
  intro cd p c v a h h'
  dsimp only
  rw [p.busRead_nametable cd c h h', p.busWrite_nametable cd c h h', ntIndex_eq]
  exact ⟨rfl, rfl⟩

end Sys2Proof.Claims
end

section
/-! PROOF. The decoder and the encoder are each other's inverse (spec/30_encoding.md R90, R91, R100
to R102): every row of the opcode map is well-formed and encodes to its own bytes, and every
well-formed instruction is decoded from some bytes. -/

namespace Sys2Proof.Claims

open Sys2Proof Sys2Proof.Machine

/-! The decoder over bytes, by the length the opcode byte fixes (R90). -/

theorem decode_of_length_one {op : Byte} (h : opLength op = 1) (rest : List Byte) :
    decode (op :: rest) = .ok (decodeOp op 0 0, rest) := if_pos h

theorem decode_of_length_two {op : Byte} (h : opLength op = 2) (b1 : Byte) (rest : List Byte) :
    decode (op :: b1 :: rest) = .ok (decodeOp op b1 0, rest) := by
  rw [decode, if_neg (by omega), if_pos h]

theorem decode_of_length_three {op : Byte} (h1 : opLength op ≠ 1) (h2 : opLength op ≠ 2)
    (b1 b2 : Byte) (rest : List Byte) :
    decode (op :: b1 :: b2 :: rest) = .ok (decodeOp op b1 b2, rest) := by
  rw [decode, if_neg h1, if_neg h2]

/-- The bytes of a row of length n with operand byte b1 or operand word w, low byte first (R91). -/
def rowBytes (n : Nat) (op b1 : Byte) (w : Word) : List Byte :=
  match n with
  | 1 => [op]
  | 2 => [op, b1]
  | _ => [op, loByte w, hiByte w]

theorem rowBytes_eq_cons (n : Nat) (op b1 : Byte) (w : Word) :
    ∃ bs, rowBytes n op b1 w = op :: bs := by
  unfold rowBytes
  split <;> exact ⟨_, rfl⟩

theorem rowBytes_of_length_three {n : Nat} (h1 : n ≠ 1) (h2 : n ≠ 2) (op b1 b2 : Byte) :
    rowBytes n op b1 (word16 b2 b1) = [op, b1, b2] := by
  unfold rowBytes
  split
  case h_1 => exact absurd rfl h1
  case h_2 => exact absurd rfl h2
  case h_3 => rw [loByte_word16, hiByte_word16]

/-- What decoding a list of bytes gives: the row of its first byte with the bytes that follow as
operands, which are then no part of the rest. -/
theorem decode_cases {bs rest : List Byte} {i : Instr} (h : decode bs = .ok (i, rest)) :
    ∃ op b1 b2, i = decodeOp op b1 b2
      ∧ bs = rowBytes (opLength op) op b1 (word16 b2 b1) ++ rest := by
  cases bs with
  | nil => cases h
  | cons op bs =>
    by_cases h1 : opLength op = 1
    · rw [decode_of_length_one h1] at h
      cases h
      exact ⟨op, 0, 0, rfl, by rw [h1]; rfl⟩
    by_cases h2 : opLength op = 2
    · match bs with
      | [] => simp [decode, h2] at h
      | b1 :: bs =>
        rw [decode_of_length_two h2] at h
        cases h
        exact ⟨op, b1, 0, rfl, by rw [h2]; rfl⟩
    · match bs with
      | [] => simp [decode, h1, h2] at h
      | [_] => simp [decode, h1, h2] at h
      | b1 :: b2 :: bs =>
        rw [decode_of_length_three h1 h2] at h
        cases h
        exact ⟨op, b1, b2, rfl, by rw [rowBytes_of_length_three h1 h2]; rfl⟩

/-! The rows of the opcode map. -/

open Laws.Encoding in
/-- The law of every constructor (R90, R91). -/
theorem encoding_statement (i : Instr) : Statement i :=
  i.casesOn lda ldx ldy sta stx sty tax tay txa tya tsx txs pha pla php plp
    adc sbc and ora eor cmp cpx cpy bit inc dec inx iny dex dey asl lsr rol ror
    jmp jsr rts bpl bmi bvc bvs bcc bcs bne beq brk rti clc sec cli sei cld sed clv nop
    slo nopUnofficial kil unknown

/-- Every opcode byte is the row of a well-formed instruction, which encodes to that byte and its
operands (R100, R101): the 256 opcode bytes one by one, each evaluated with its operands as
variables. -/
theorem decodeOp_row (op b1 b2 : Byte) :
    ∃ i, decodeOp op b1 b2 = i ∧ i.wf = true
      ∧ encode i = rowBytes i.length op b1 (word16 b2 b1) := by
  obtain ⟨n, hn, rfl⟩ : ∃ n < 256, op = BitVec.ofNat 8 n := ⟨op.toNat, op.isLt, by simp⟩
  interval_cases n <;> exact ⟨_, rfl, rfl, rfl⟩

theorem wf_decodeOp (op b1 b2 : Byte) : (decodeOp op b1 b2).wf = true := by
  obtain ⟨i, rfl, hwf, -⟩ := decodeOp_row op b1 b2
  exact hwf

/-- The operand bytes do not change the length (R90). -/
theorem length_decodeOp (op b1 b2 : Byte) : (decodeOp op b1 b2).length = opLength op := by
  obtain ⟨i, rfl, hwf, hrow⟩ := decodeOp_row op b1 b2
  obtain ⟨op', he, hl⟩ := (encoding_statement _).1 hwf
  obtain ⟨bs, hbs⟩ := rowBytes_eq_cons (decodeOp op b1 b2).length op b1 (word16 b2 b1)
  rw [hrow, hbs] at he
  cases he
  exact hl.symm

theorem encode_decodeOp (op b1 b2 : Byte) :
    encode (decodeOp op b1 b2) = rowBytes (opLength op) op b1 (word16 b2 b1) := by
  obtain ⟨i, rfl, -, hrow⟩ := decodeOp_row op b1 b2
  rw [hrow, length_decodeOp]

/-- Settles O2: what decodes is a row of the opcode map, and the row encodes to the bytes it
took. -/
theorem decodeThenEncode : Obligations.DecodeThenEncode := by
  unfold Obligations.DecodeThenEncode
  intro bs i rest h
  obtain ⟨op, b1, b2, rfl, rfl⟩ := decode_cases h
  exact ⟨wf_decodeOp op b1 b2, by rw [encode_decodeOp]⟩

/-! Every well-formed instruction is decoded from some bytes. -/

/-- Some bytes decode to i, whatever follows them. -/
def IsDecoded (i : Instr) : Prop := ∃ bs, ∀ rest, decode (bs ++ rest) = .ok (i, rest)

/-- The memory operand of a form, from its one or two operand bytes (R91). -/
def operandOf (mode : MemMode) (b1 b2 : Byte) : MemOperand :=
  match mode with
  | .zp => .zp b1
  | .zpx => .zpx b1
  | .zpy => .zpy b1
  | .abs => .abs (word16 b2 b1)
  | .abx => .abx (word16 b2 b1)
  | .aby => .aby (word16 b2 b1)
  | .izx => .izx b1
  | .izy => .izy b1

/-- Those operand bytes. -/
def operandBytesOf (mode : MemMode) (b1 b2 : Byte) : List Byte :=
  match mode with
  | .zp | .zpx | .zpy | .izx | .izy => [b1]
  | .abs | .abx | .aby => [b1, b2]

theorem exists_word16 (w : Word) : ∃ b1 b2, word16 b2 b1 = w :=
  ⟨loByte w, hiByte w, word16_hi_lo w⟩

theorem exists_operandOf (m : MemOperand) : ∃ b1 b2, operandOf m.mode b1 b2 = m := by
  cases m with
  | zp z => exact ⟨z, 0, rfl⟩
  | zpx z => exact ⟨z, 0, rfl⟩
  | zpy z => exact ⟨z, 0, rfl⟩
  | abs a => obtain ⟨b1, b2, rfl⟩ := exists_word16 a; exact ⟨b1, b2, rfl⟩
  | abx a => obtain ⟨b1, b2, rfl⟩ := exists_word16 a; exact ⟨b1, b2, rfl⟩
  | aby a => obtain ⟨b1, b2, rfl⟩ := exists_word16 a; exact ⟨b1, b2, rfl⟩
  | izx z => exact ⟨z, 0, rfl⟩
  | izy z => exact ⟨z, 0, rfl⟩

/-- A mnemonic has the listed forms: each decodes from its opcode byte in codes and its operand
bytes. -/
def HasForms (codes : MemMode → Option Byte) (l : List MemMode) (mk : MemOperand → Instr) : Prop :=
  ∀ b1 b2 rest,
    l.map (fun mode => (codes mode).map fun op => decode (op :: operandBytesOf mode b1 b2 ++ rest))
      = l.map fun mode => some (.ok (mk (operandOf mode b1 b2), rest))

theorem isDecoded_mem {mk : MemOperand → Instr} {m : MemOperand} {l : List MemMode}
    (h : m.isOneOf l = true) (codes : MemMode → Option Byte) (hforms : HasForms codes l mk) :
    IsDecoded (mk m) := by
  obtain ⟨b1, b2, hm⟩ := exists_operandOf m
  have hform (rest : List Byte) :=
    List.map_inj_left.mp (hforms b1 b2 rest) m.mode (List.contains_iff_mem.mp h)
  rw [hm] at hform
  obtain ⟨op, hop, -⟩ := Option.map_eq_some_iff.mp (hform [])
  rw [hop] at hform
  exact ⟨op :: operandBytesOf m.mode b1 b2, fun rest => Option.some.inj (hform rest)⟩

theorem isDecoded_source {mk : Source → Instr} {o : Source} {l : List MemMode}
    (h : o.isOneOf l = true) (imm : Byte) (codes : MemMode → Option Byte)
    (himm : ∀ v rest, decode ([imm, v] ++ rest) = .ok (mk (.imm v), rest))
    (hforms : HasForms codes l fun m => mk (.mem m)) : IsDecoded (mk o) := by
  cases o with
  | imm v => exact ⟨[imm, v], himm v⟩
  | mem m => exact isDecoded_mem (mk := fun m => mk (.mem m)) h codes hforms

theorem isDecoded_target {mk : Target → Instr} {t : Target} {l : List MemMode}
    (h : t.isOneOf l = true) (acc : Byte) (codes : MemMode → Option Byte)
    (hacc : ∀ rest, decode ([acc] ++ rest) = .ok (mk .acc, rest))
    (hforms : HasForms codes l fun m => mk (.mem m)) : IsDecoded (mk t) := by
  cases t with
  | acc => exact ⟨[acc], hacc⟩
  | mem m => exact isDecoded_mem (mk := fun m => mk (.mem m)) h codes hforms

/-- The unofficial NOPs, opcode byte by opcode byte (R202). -/
theorem isDecoded_nop {op : Byte} {o : NopOperand} (h : op ∈ nopOpcodes o) :
    IsDecoded (.nopUnofficial op o) := by
  cases o with
  | imp => exact ⟨[op], fun _ => by fin_cases h <;> rfl⟩
  | imm v => exact ⟨[op, v], fun _ => by fin_cases h <;> rfl⟩
  | zp z => exact ⟨[op, z], fun _ => by fin_cases h <;> rfl⟩
  | zpx z => exact ⟨[op, z], fun _ => by fin_cases h <;> rfl⟩
  | abs a =>
    obtain ⟨b1, b2, rfl⟩ := exists_word16 a
    exact ⟨[op, b1, b2], fun _ => by fin_cases h; rfl⟩
  | abx a =>
    obtain ⟨b1, b2, rfl⟩ := exists_word16 a
    exact ⟨[op, b1, b2], fun _ => by fin_cases h <;> rfl⟩

theorem isDecoded_kil {op : Byte} (h : op ∈ kilOpcodes) : IsDecoded (.kil op) :=
  ⟨[op], fun _ => by fin_cases h <;> rfl⟩

theorem isDecoded_unknown {op : Byte} (h : op ∈ unknownOpcodes) : IsDecoded (.unknown op) :=
  ⟨[op], fun _ => by fin_cases h <;> rfl⟩

/-- Every well-formed instruction is decoded from some bytes, constructor by constructor. -/
theorem isDecoded_of_wf {i : Instr} (h : i.wf = true) : IsDecoded i := by
  cases i with
  | lda o => exact isDecoded_source h 0xA9 codesLda (fun _ _ => rfl) fun _ _ _ => rfl
  | ldx o => exact isDecoded_source h 0xA2 codesLdx (fun _ _ => rfl) fun _ _ _ => rfl
  | ldy o => exact isDecoded_source h 0xA0 codesLdy (fun _ _ => rfl) fun _ _ _ => rfl
  | sta m => exact isDecoded_mem h codesSta fun _ _ _ => rfl
  | stx m => exact isDecoded_mem h codesStx fun _ _ _ => rfl
  | sty m => exact isDecoded_mem h codesSty fun _ _ _ => rfl
  | tax => exact ⟨[0xAA], fun _ => rfl⟩
  | tay => exact ⟨[0xA8], fun _ => rfl⟩
  | txa => exact ⟨[0x8A], fun _ => rfl⟩
  | tya => exact ⟨[0x98], fun _ => rfl⟩
  | tsx => exact ⟨[0xBA], fun _ => rfl⟩
  | txs => exact ⟨[0x9A], fun _ => rfl⟩
  | pha => exact ⟨[0x48], fun _ => rfl⟩
  | pla => exact ⟨[0x68], fun _ => rfl⟩
  | php => exact ⟨[0x08], fun _ => rfl⟩
  | plp => exact ⟨[0x28], fun _ => rfl⟩
  | adc o => exact isDecoded_source h 0x69 codesAdc (fun _ _ => rfl) fun _ _ _ => rfl
  | sbc o => exact isDecoded_source h 0xE9 codesSbc (fun _ _ => rfl) fun _ _ _ => rfl
  | and o => exact isDecoded_source h 0x29 codesAnd (fun _ _ => rfl) fun _ _ _ => rfl
  | ora o => exact isDecoded_source h 0x09 codesOra (fun _ _ => rfl) fun _ _ _ => rfl
  | eor o => exact isDecoded_source h 0x49 codesEor (fun _ _ => rfl) fun _ _ _ => rfl
  | cmp o => exact isDecoded_source h 0xC9 codesCmp (fun _ _ => rfl) fun _ _ _ => rfl
  | cpx o => exact isDecoded_source h 0xE0 codesCpx (fun _ _ => rfl) fun _ _ _ => rfl
  | cpy o => exact isDecoded_source h 0xC0 codesCpy (fun _ _ => rfl) fun _ _ _ => rfl
  | bit m => exact isDecoded_mem h codesBit fun _ _ _ => rfl
  | inc m => exact isDecoded_mem h codesInc fun _ _ _ => rfl
  | dec m => exact isDecoded_mem h codesDec fun _ _ _ => rfl
  | inx => exact ⟨[0xE8], fun _ => rfl⟩
  | iny => exact ⟨[0xC8], fun _ => rfl⟩
  | dex => exact ⟨[0xCA], fun _ => rfl⟩
  | dey => exact ⟨[0x88], fun _ => rfl⟩
  | asl t => exact isDecoded_target h 0x0A codesAsl (fun _ => rfl) fun _ _ _ => rfl
  | lsr t => exact isDecoded_target h 0x4A codesLsr (fun _ => rfl) fun _ _ _ => rfl
  | rol t => exact isDecoded_target h 0x2A codesRol (fun _ => rfl) fun _ _ _ => rfl
  | ror t => exact isDecoded_target h 0x6A codesRor (fun _ => rfl) fun _ _ _ => rfl
  | jmp t =>
    cases t with
    | abs a => obtain ⟨b1, b2, rfl⟩ := exists_word16 a; exact ⟨[0x4C, b1, b2], fun _ => rfl⟩
    | ind p => obtain ⟨b1, b2, rfl⟩ := exists_word16 p; exact ⟨[0x6C, b1, b2], fun _ => rfl⟩
  | jsr a => obtain ⟨b1, b2, rfl⟩ := exists_word16 a; exact ⟨[0x20, b1, b2], fun _ => rfl⟩
  | rts => exact ⟨[0x60], fun _ => rfl⟩
  | bpl d => exact ⟨[0x10, d], fun _ => rfl⟩
  | bmi d => exact ⟨[0x30, d], fun _ => rfl⟩
  | bvc d => exact ⟨[0x50, d], fun _ => rfl⟩
  | bvs d => exact ⟨[0x70, d], fun _ => rfl⟩
  | bcc d => exact ⟨[0x90, d], fun _ => rfl⟩
  | bcs d => exact ⟨[0xB0, d], fun _ => rfl⟩
  | bne d => exact ⟨[0xD0, d], fun _ => rfl⟩
  | beq d => exact ⟨[0xF0, d], fun _ => rfl⟩
  | brk => exact ⟨[0x00], fun _ => rfl⟩
  | rti => exact ⟨[0x40], fun _ => rfl⟩
  | clc => exact ⟨[0x18], fun _ => rfl⟩
  | sec => exact ⟨[0x38], fun _ => rfl⟩
  | cli => exact ⟨[0x58], fun _ => rfl⟩
  | sei => exact ⟨[0x78], fun _ => rfl⟩
  | cld => exact ⟨[0xD8], fun _ => rfl⟩
  | sed => exact ⟨[0xF8], fun _ => rfl⟩
  | clv => exact ⟨[0xB8], fun _ => rfl⟩
  | nop => exact ⟨[0xEA], fun _ => rfl⟩
  | slo m => exact isDecoded_mem h codesSlo fun _ _ _ => rfl
  | nopUnofficial op o => exact isDecoded_nop (List.contains_iff_mem.mp h)
  | kil op => exact isDecoded_kil (List.contains_iff_mem.mp h)
  | unknown op => exact isDecoded_unknown (List.contains_iff_mem.mp h)

/-- Settles O1: some bytes decode to the instruction, and by O2 they are its encoding. -/
theorem encodeThenDecode : Obligations.EncodeThenDecode := by
  unfold Obligations.EncodeThenDecode
  intro i rest h
  obtain ⟨bs, hbs⟩ := isDecoded_of_wf h
  obtain ⟨-, he⟩ := decodeThenEncode (bs ++ rest) i rest (hbs rest)
  rw [he]
  exact hbs rest

/-- Settles O3: each word evaluates. -/
theorem decodesSpecWords : Obligations.DecodesSpecWords :=
  ⟨rfl, rfl, rfl, rfl, rfl, rfl, rfl, rfl, rfl, rfl, rfl, rfl, rfl⟩

end Sys2Proof.Claims
end

section
/-! PROOF. The effective address of every operand form as a number (spec/30_encoding.md R93 to
R96). -/

namespace Sys2Proof.Machine

open Sys2Proof

theorem zext16_add_toNat (z r : Byte) : (zext16 (z + r)).toNat = (z.toNat + r.toNat) % 256 := by
  rw [zext16_toNat, BitVec.toNat_add]

theorem add_zext16_toNat (a : Word) (r : Byte) :
    (a + zext16 r).toNat = (a.toNat + r.toNat) % 65536 := by
  rw [BitVec.toNat_add, zext16_toNat]

theorem ea_izx_toNat (s : State) (z : Byte) :
    (s.ea (.izx z)).toNat
      = (s.ram.read ((z.toNat + s.cpu.x.toNat + 1) % 256)).toNat * 256
        + (s.ram.read ((z.toNat + s.cpu.x.toNat) % 256)).toNat := by
  show (s.zeroPagePointer (z + s.cpu.x)).toNat = _
  rw [zeroPagePointer_toNat, BitVec.toNat_add, Nat.mod_add_mod]

theorem ea_izy_toNat (s : State) (z : Byte) :
    (s.ea (.izy z)).toNat
      = ((s.ram.read ((z.toNat + 1) % 256)).toNat * 256 + (s.ram.read z.toNat).toNat
          + s.cpu.y.toNat) % 65536 := by
  show (s.zeroPagePointer z + zext16 s.cpu.y).toNat = _
  rw [add_zext16_toNat, zeroPagePointer_toNat]

end Sys2Proof.Machine

namespace Sys2Proof.Claims

open Sys2Proof Sys2Proof.Machine

/-- Settles O42, one form after another. -/
theorem effectiveAddresses : Obligations.EffectiveAddresses := by
  unfold Obligations.EffectiveAddresses
  intro s z a
  exact ⟨zext16_toNat z, zext16_add_toNat z _, zext16_add_toNat z _, rfl, add_zext16_toNat a _,
    add_zext16_toNat a _, ea_izx_toNat s z, ea_izy_toNat s z⟩

end Sys2Proof.Claims
end

section
/-! PROOF. The cycles a step reports, and those it leaves owed: an instruction owes OAM DMA's, the
advance 7 for each interrupt entered (spec/30_encoding.md R107 to R110, spec/60_exceptions.md R214,
R230). -/

namespace Sys2Proof.Machine

open Sys2Proof Sys2Proof.Claims

/-! What an instruction owes (R57, R58). -/

/-- The cycles owed for a store to a, if there is one: those of OAM DMA for $4014, else none
(R58). -/
def dmaCharge (s : State) (a : Option Word) : Nat :=
  if a = some 0x4014 then dmaCycles s.params.dmaCost else 0

theorem busWrite_extraCycles (s : State) (a : Word) (d : Byte) :
    (s.busWrite a d).cpu.extraCycles = s.cpu.extraCycles + dmaCharge s (some a) := by
  have haddr : some a = some 0x4014 ↔ a.toNat = 0x4014 := by
    rw [Option.some_inj, ← BitVec.toNat_inj]
    rfl
  rw [busWrite_cpu, dmaCharge, if_congr haddr rfl rfl]
  dsimp only
  split <;> rfl

theorem load_extraCycles (s : State) (o : Source) :
    (s.load o).2.cpu.extraCycles = s.cpu.extraCycles := by rw [load_cpu]

theorem modify_extraCycles (s : State) (m : MemOperand) (f : Byte → Byte) :
    (s.modify m f).2.cpu.extraCycles = s.cpu.extraCycles + dmaCharge s (some (s.ea m)) := by
  unfold State.modify
  dsimp only
  rw [busWrite_extraCycles, busRead_cpu, dmaCharge, busRead_params]
  rfl

theorem shift_mem_extraCycles (s : State) (m : MemOperand) (f : Byte → Bool → Byte × Bool) :
    (s.shift (.mem m) f).cpu.extraCycles = s.cpu.extraCycles + dmaCharge s (some (s.ea m)) := by
  unfold State.shift
  rw [State.setP_extraCycles]
  exact modify_extraCycles s m _

theorem push_extraCycles (s : State) (v : Byte) :
    (s.push v).cpu.extraCycles = s.cpu.extraCycles := by rw [push_eq]

theorem pushWord_extraCycles (s : State) (w : Word) :
    (s.pushWord w).cpu.extraCycles = s.cpu.extraCycles := by rw [pushWord_eq]

theorem pull_extraCycles (s : State) : s.pull.2.cpu.extraCycles = s.cpu.extraCycles := by
  rw [pull_eq, State.setSp_extraCycles]

theorem pullWord_extraCycles (s : State) : s.pullWord.2.cpu.extraCycles = s.cpu.extraCycles := by
  rw [pullWord_eq, State.setSp_extraCycles]

theorem indTarget_extraCycles (s : State) (p : Word) :
    (s.indTarget p).2.cpu.extraCycles = s.cpu.extraCycles := by
  unfold State.indTarget
  dsimp only
  rw [busRead_cpu, busRead_cpu]

theorem branch_extraCycles (s : State) (f : Flag) (b : Bool) (d : Byte) :
    (s.branch f b d).cpu.extraCycles = s.cpu.extraCycles := by
  unfold State.branch
  split <;> rfl

theorem enterVector_extraCycles (s : State) (ret : Word) (pushed : Byte) (vector : Word) :
    (s.enterVector ret pushed vector).cpu.extraCycles = s.cpu.extraCycles := by
  unfold State.enterVector
  simp [push_eq, pushWord_eq]

/-- Every instruction owes what its one store is charged. -/
theorem exec_charges (i : Instr) (s : State) :
    ∃ t, exec i s = .next t
      ∧ t.cpu.extraCycles = s.cpu.extraCycles + dmaCharge s (storedTo i s) := by
  cases i with
  | lda o | ldx o | ldy o | adc o | sbc o | and o | ora o | eor o | cmp o | cpx o | cpy o =>
    exact ⟨_, rfl, load_extraCycles s o⟩
  | bit m => exact ⟨_, rfl, load_extraCycles s (.mem m)⟩
  | sta m | stx m | sty m => exact ⟨_, rfl, busWrite_extraCycles s _ _⟩
  | inc m | dec m =>
    refine ⟨_, rfl, ?_⟩
    rw [State.updateZN_extraCycles]
    exact modify_extraCycles s m _
  | slo m =>
    refine ⟨_, rfl, ?_⟩
    rw [State.setP_extraCycles, State.setA_extraCycles]
    exact modify_extraCycles s m _
  | asl t | lsr t | rol t | ror t =>
    cases t with
    | acc => exact ⟨_, rfl, rfl⟩
    | mem m => exact ⟨_, rfl, shift_mem_extraCycles s m _⟩
  | pha | php => exact ⟨_, rfl, push_extraCycles s _⟩
  | pla | plp => exact ⟨_, rfl, pull_extraCycles s⟩
  | jmp t =>
    cases t with
    | abs a => exact ⟨_, rfl, rfl⟩
    | ind p => exact ⟨_, rfl, indTarget_extraCycles s p⟩
  | jsr a => exact ⟨_, rfl, pushWord_extraCycles s _⟩
  | rts => exact ⟨_, rfl, pullWord_extraCycles s⟩
  | bpl d | bmi d | bvc d | bvs d | bcc d | bcs d | bne d | beq d =>
    exact ⟨_, rfl, branch_extraCycles s _ _ d⟩
  | brk => exact ⟨_, rfl, enterVector_extraCycles s _ _ _⟩
  | rti => exact ⟨_, rfl, by rw [returnFromInterrupt_eq]; rfl⟩
  | tax | tay | txa | tya | tsx | txs | inx | iny | dex | dey => exact ⟨_, rfl, rfl⟩
  | clc | sec | cli | sei | cld | sed | clv | nop => exact ⟨_, rfl, rfl⟩
  | nopUnofficial op o | kil op | unknown op => exact ⟨_, rfl, rfl⟩

theorem fetchInstr_extraCycles (s : State) :
    s.fetchInstr.2.cpu.extraCycles = s.cpu.extraCycles := by
  unfold State.fetchInstr
  dsimp only
  repeat' split
  all_goals simp only [fetchByte_cpu]

/-! What the advance owes (R214, R230). -/

theorem enterVector_interrupt (s : State) (ret : Word) (pushed : Byte) (vector : Word) :
    getFlag (s.enterVector ret pushed vector).cpu.p .i = true := by
  unfold State.enterVector
  simp [getFlag_normP, getFlag_setFlag]

theorem cpuNmi_extraCycles {s : State} (hn : s.cpu.halted = none) :
    s.cpuNmi.cpu.extraCycles = s.cpu.extraCycles + 7 := by
  rw [cpuNmi_running hn, State.addCycles_extraCycles, enterVector_extraCycles]

theorem cpuIrq_extraCycles {s : State} (hn : s.cpu.halted = none)
    (hi : getFlag s.cpu.p .i = false) : s.cpuIrq.cpu.extraCycles = s.cpu.extraCycles + 7 := by
  rw [cpuIrq_running hn hi, State.addCycles_extraCycles, enterVector_extraCycles]

theorem cpuNmi_interrupt {s : State} (hn : s.cpu.halted = none) :
    getFlag s.cpuNmi.cpu.p .i = true := by
  rw [cpuNmi_running hn]
  exact enterVector_interrupt _ _ _ _

theorem deliverNmi_cpu_of_latch {s : State} (h : s.ppu.nmiOccurred = true) :
    s.deliverNmi.cpu = s.cpuNmi.cpu := by
  unfold State.deliverNmi
  rw [if_pos h]

theorem deliverNmi_of_no_latch {s : State} (h : s.ppu.nmiOccurred = false) : s.deliverNmi = s := by
  unfold State.deliverNmi
  rw [if_neg (by simp [h])]

theorem deliverIrq_masked {s : State} (h : getFlag s.cpu.p .i = true) : s.deliverIrq = s := by
  unfold State.deliverIrq
  rw [if_neg (by simp [h])]

/-- A sub-cycle of a running machine enters at most one interrupt, because an NMI entry sets P.I,
and owes 7 cycles for it. -/
theorem subCycle_extraCycles {s : State} (hn : s.cpu.halted = none) :
    s.subCycle.cpu.extraCycles = s.cpu.extraCycles + if enters s then 7 else 0 := by
  have hrun : s.ppuTick.cpu.halted = none := hn
  unfold State.subCycle enters
  cases hnmi : s.ppuTick.ppu.nmiOccurred with
  | true =>
    have hcpu := deliverNmi_cpu_of_latch hnmi
    rw [deliverIrq_masked (by rw [hcpu]; exact cpuNmi_interrupt hrun), hcpu,
      cpuNmi_extraCycles hrun]
    rfl
  | false =>
    rw [deliverNmi_of_no_latch hnmi, Bool.false_or]
    unfold State.deliverIrq
    rw [ppuTick_cpu]
    split
    case isTrue h =>
      have hi : getFlag s.cpu.p .i = false := by simpa using (Bool.and_eq_true_iff.mp h).2
      exact cpuIrq_extraCycles hrun hi
    case isFalse => rfl

theorem advance_stepCycles (n : Nat) (s : State) :
    (State.advance n s).driver.stepCycles = s.driver.stepCycles := by
  obtain ⟨-, -, hdriver⟩ := advance_outside n s
  rw [hdriver]

/-- The advance of a running machine owes 7 cycles for each interrupt it enters. -/
theorem advance_extraCycles (n : Nat) {s : State} (hn : s.cpu.halted = none) :
    (State.advance n s).cpu.extraCycles = s.cpu.extraCycles + 7 * entries n s := by
  induction n generalizing s with
  | zero => rfl
  | succ n ih =>
    have hsub : s.subCycle.cpu.halted = none := (advance_halted 1 s).trans hn
    show (State.advance n s.subCycle).cpu.extraCycles = _
    rw [ih hsub, subCycle_extraCycles hn, entries]
    split <;> omega

end Sys2Proof.Machine

namespace Sys2Proof.Claims

open Sys2Proof Sys2Proof.Machine

/-- A step that does not end halted ran an instruction that did not halt. -/
theorem halted_of_finishStep {u : State} {c : Nat} (h : (u.finishStep c).cpu.halted = none) :
    u.cpu.halted = none := by
  cases hu : u.cpu.halted with
  | none => rfl
  | some r =>
    rw [finishStep_halted hu] at h
    exact hu.symm.trans h

/-- Settles O7: the count is what finishStep reports of the instruction, the debt what the advance
adds. -/
theorem reportedCycleCount : Obligations.ReportedCycleCount := by
  unfold Obligations.ReportedCycleCount
  intro s t _ hstep ht
  obtain ⟨-, -, u, hu, rfl⟩ := step_next hstep
  obtain ⟨u', hu', hcharge⟩ := exec_charges s.fetchInstr.1 s.fetchInstr.2
  obtain rfl : u = u' := by
    rw [hu] at hu'
    exact Host.Outcome.next.inj hu'
  have hrun := halted_of_finishStep ht
  obtain ⟨-, hparams, -⟩ := (keeps_outside s).fetchInstr ⟨rfl, rfl, rfl, rfl⟩
  refine ⟨s.fetchInstr.1, s.fetchInstr.2, u, rfl, hu, ?owed, ?reported, ?base, ?documented,
    ?advance, ?debt⟩
  case owed =>
    rw [hcharge, fetchInstr_extraCycles, dmaCharge, hparams]
    congr
    cases s.params.dmaCost <;> rfl
  case reported => rw [finishStep_running hrun, advance_stepCycles]
  case base => intro h; unfold rowCycles; rw [hparams, h]
  case documented => intro h; unfold rowCycles; rw [hparams, h]
  case advance => exact finishStep_running hrun _
  case debt =>
    rw [finishStep_running hrun]
    exact (advance_extraCycles _ (by exact hrun)).trans (Nat.zero_add _)

end Sys2Proof.Claims
end

section
/-! PROOF. Loads, stores, transfers and the stack instructions (spec/40_load_store_transfer.md R120 to
R135): the flags a write to P leaves, what a push and a pull do to the stack, and that a pull gives back
what was pushed. -/

namespace Sys2Proof.Machine

open Sys2Proof Sys2Proof.Claims

/-! The flags a write to P leaves. -/

/-- A row of the flag table needs the six flags of the byte only: the write itself sees to B and U
(R26, R28). -/
theorem statusAfter_normP {p q : Byte} {c z i d v n : Option Bool}
    (hc : getFlag q .c = c.getD (getFlag p .c)) (hz : getFlag q .z = z.getD (getFlag p .z))
    (hi : getFlag q .i = i.getD (getFlag p .i)) (hd : getFlag q .d = d.getD (getFlag p .d))
    (hv : getFlag q .v = v.getD (getFlag p .v)) (hn : getFlag q .n = n.getD (getFlag p .n)) :
    StatusAfter p (normP q) c z i d v n where
  carry := (getFlag_normP q .c).trans hc
  zero := (getFlag_normP q .z).trans hz
  interrupt := (getFlag_normP q .i).trans hi
  decimal := (getFlag_normP q .d).trans hd
  overflow := (getFlag_normP q .v).trans hv
  negative := (getFlag_normP q .n).trans hn
  breakBit := getFlag_normP q .b
  unused := getFlag_normP_unused q

/-- SetZN writes Z and N from r and no other flag (R14). -/
theorem znFrom_updateZN {s : State} {p : Byte} (hp : s.cpu.p = p) (r : Byte) :
    ZnFrom p (s.updateZN r).cpu.p r := by
  subst hp
  have hflag := getFlag_setZN s.cpu.p r
  exact statusAfter_normP (hflag .c) (hflag .z) (hflag .i) (hflag .d) (hflag .v) (hflag .n)

/-- A byte pulled into P gives it all six flags (R135). -/
theorem statusAfter_setP (s : State) (p v : Byte) :
    StatusAfter p (s.setP v).cpu.p (some (getFlag v .c)) (some (getFlag v .z))
      (some (getFlag v .i)) (some (getFlag v .d)) (some (getFlag v .v)) (some (getFlag v .n)) :=
  statusAfter_normP rfl rfl rfl rfl rfl rfl

/-- The byte PHP and BRK push gives P back, since a pull drops B (R28, R135). -/
theorem normP_pushedByBrk {p : Byte} (hu : getFlag p .u = true) (hb : getFlag p .b = false) :
    normP (pushedByBrk p) = p := by
  refine eq_of_flags fun f => ?_
  rw [getFlag_normP, getFlag_pushedByBrk]
  cases f <;> simp [hu, hb]

/-! The operand of a read instruction. -/

theorem operand_load (s : State) (o : Source) : Operand s o (s.load o).1 (s.load o).2 := by
  cases o with
  | imm b => exact ⟨rfl, rfl⟩
  | mem m => exact busReadDecoder s (s.ea m)

theorem load_p (s : State) (o : Source) : (s.load o).2.cpu.p = s.cpu.p := by rw [load_cpu]

/-! Push and pull. -/

theorem push_frame (s : State) (v : Byte) :
    s.push v = { s with ram := (s.push v).ram, cpu := { s.cpu with sp := s.cpu.sp - 1 } } := by
  rw [push_eq]

theorem push_ram_read (s : State) (v : Byte) (k : Nat) :
    (s.push v).ram.read k = if k = 256 + s.cpu.sp.toNat then v else s.ram.read k := by
  rw [push_eq]
  exact Memory.read_write _ _ _ _

theorem exec_pla (s : State) :
    exec .pla s
      = .next (((s.setSp (s.cpu.sp + 1)).setA (s.ram.read (256 + (s.cpu.sp + 1).toNat))).updateZN
          (s.ram.read (256 + (s.cpu.sp + 1).toNat))) := by
  show execPla s = _
  unfold execPla
  rw [pull_eq]

theorem exec_plp (s : State) :
    exec .plp s
      = .next ((s.setSp (s.cpu.sp + 1)).setP (s.ram.read (256 + (s.cpu.sp + 1).toNat))) := by
  show execPlp s = _
  unfold execPlp
  rw [pull_eq]

/-! What was pushed is pulled. -/

/-- w has the stack of t: the same SP, and the same byte in every slot SP can point at. -/
structure SameStack (t w : State) : Prop where
  sp   : w.cpu.sp = t.cpu.sp
  read : ∀ sp : Byte, w.ram.read (256 + sp.toNat) = t.ram.read (256 + sp.toNat)

theorem sameStack_of_page1 {t w : State}
    (hpage : ∀ k, 0x100 ≤ k → k < 0x200 → w.ram.read k = t.ram.read k)
    (hsp : w.cpu.sp = t.cpu.sp) : SameStack t w where
  sp := hsp
  read sp := hpage _ (by omega) (by have := sp.isLt; omega)

/-- A byte written to another slot of the stack is not seen. -/
theorem read_write_other_slot (m : Memory) {i j : Byte} (b : Byte) (h : j ≠ i) :
    (m.write (256 + i.toNat) b).read (256 + j.toNat) = m.read (256 + j.toNat) :=
  Memory.read_write_other m b fun he => h (BitVec.eq_of_toNat_eq (Nat.add_left_cancel he))

theorem pull_of_push {s w : State} {v : Byte} (h : SameStack (s.push v) w) :
    w.pull = (v, w.setSp s.cpu.sp) := by
  have hsp : w.cpu.sp + 1 = s.cpu.sp := by
    rw [h.sp, push_eq]
    exact BitVec.sub_add_cancel _ _
  rw [pull_eq, hsp, h.read, push_read]

theorem pullWord_of_pushWord {s w : State} {x : Word} (h : SameStack (s.pushWord x) w) :
    w.pullWord = (x, w.setSp s.cpu.sp) := by
  have hw : w.cpu.sp = s.cpu.sp - 2 := by rw [h.sp, pushWord_eq]
  have hsp1 : w.cpu.sp + 1 = s.cpu.sp - 1 := by rw [hw]; bv_omega
  have hsp2 : w.cpu.sp + 2 = s.cpu.sp := by rw [hw]; bv_omega
  have hhigh : w.ram.read (256 + s.cpu.sp.toNat) = hiByte x := by
    rw [h.read, pushWord_eq]
    exact (read_write_other_slot _ _ (by bv_omega)).trans (Memory.read_write_same _ _ _)
  have hlow : w.ram.read (256 + (s.cpu.sp - 1).toNat) = loByte x := by
    rw [h.read, pushWord_eq]
    exact Memory.read_write_same _ _ _
  rw [pullWord_eq, hsp1, hsp2, hhigh, hlow, word16_hi_lo]

/-- A return undoes an entry: P is what the pushed byte leaves of it, PC the return address, and SP is
back (R183, R184). -/
theorem returnFromInterrupt_of_enterVector {s w : State} {ret vector : Word} {pushed : Byte}
    (hv : 0x4020 ≤ vector.toNat) (hv' : vector.toNat < 0xFFFF)
    (h : SameStack (s.enterVector ret pushed vector) w) :
    w.returnFromInterrupt
      = { w with cpu := { w.cpu with sp := s.cpu.sp, p := normP pushed, pc := ret } } := by
  have hw : w.cpu.sp = s.cpu.sp - 3 := by rw [h.sp, enterVector_eq s ret pushed hv hv']
  have hsp1 : w.cpu.sp + 1 = s.cpu.sp - 2 := by rw [hw]; bv_omega
  have hsp2 : w.cpu.sp + 2 = s.cpu.sp - 1 := by rw [hw]; bv_omega
  have hsp3 : w.cpu.sp + 3 = s.cpu.sp := by rw [hw]; bv_omega
  have hhigh : w.ram.read (256 + s.cpu.sp.toNat) = hiByte ret := by
    rw [h.read, enterVector_eq s ret pushed hv hv']
    exact (read_write_other_slot _ _ (by bv_omega)).trans
      ((read_write_other_slot _ _ (by bv_omega)).trans (Memory.read_write_same _ _ _))
  have hlow : w.ram.read (256 + (s.cpu.sp - 1).toNat) = loByte ret := by
    rw [h.read, enterVector_eq s ret pushed hv hv']
    exact (read_write_other_slot _ _ (by bv_omega)).trans (Memory.read_write_same _ _ _)
  have hstatus : w.ram.read (256 + (s.cpu.sp - 2).toNat) = pushed := by
    rw [h.read, enterVector_read_status s ret pushed hv hv']
  rw [returnFromInterrupt_eq, hsp1, hsp2, hsp3, hhigh, hlow, hstatus, word16_hi_lo]

end Sys2Proof.Machine

namespace Sys2Proof.Claims

open Sys2Proof Sys2Proof.Machine

/-- Settles O43: the operand is the bus decoder's read, which leaves the CPU; then one register write
and SetZN. -/
theorem loads : Obligations.Loads := by
  unfold Obligations.Loads
  intro s o
  refine ⟨⟨_, _, _, operand_load s o, rfl, ?lda, znFrom_updateZN (load_p s o) _⟩,
    ⟨_, _, _, operand_load s o, rfl, ?ldx, znFrom_updateZN (load_p s o) _⟩,
    ⟨_, _, _, operand_load s o, rfl, ?ldy, znFrom_updateZN (load_p s o) _⟩⟩
  all_goals
    rw [← load_cpu s o]
    rfl

/-- Settles O44: each store is one bus write, which the bus decoder's statement describes wholly. -/
theorem stores : Obligations.Stores := by
  unfold Obligations.Stores
  intro s m
  exact ⟨⟨_, rfl, busWriteDecoder s _ _⟩, ⟨_, rfl, busWriteDecoder s _ _⟩,
    ⟨_, rfl, busWriteDecoder s _ _⟩⟩

/-- Settles O45: each transfer is one register write, and SetZN but for TXS. -/
theorem transfers : Obligations.Transfers := by
  unfold Obligations.Transfers
  intro s
  exact ⟨⟨_, rfl, rfl, znFrom_updateZN rfl _⟩, ⟨_, rfl, rfl, znFrom_updateZN rfl _⟩,
    ⟨_, rfl, rfl, znFrom_updateZN rfl _⟩, ⟨_, rfl, rfl, znFrom_updateZN rfl _⟩,
    ⟨_, rfl, rfl, znFrom_updateZN rfl _⟩, rfl⟩

/-- Settles O46: each is one push, of A or of P with B and U set. -/
theorem pushes : Obligations.Pushes := by
  unfold Obligations.Pushes
  intro s
  exact ⟨⟨_, rfl, push_frame s _, push_ram_read s _⟩, ⟨_, rfl, push_frame s _, push_ram_read s _⟩⟩

/-- Settles O47: the pull moves SP alone, and the byte goes to A with SetZN, or to P. -/
theorem pulls : Obligations.Pulls := by
  unfold Obligations.Pulls
  intro s
  exact ⟨⟨_, exec_pla s, rfl, znFrom_updateZN rfl _⟩, ⟨_, exec_plp s, rfl, statusAfter_setP _ _ _⟩⟩

/-- Settles O48: a pull on the stack a push left gives the pushed value and the old SP, for a byte, a
word and an interrupt's three bytes. -/
theorem stackRoundTrips : Obligations.StackRoundTrips := by
  unfold Obligations.StackRoundTrips
  intro s t w u hpage hsp
  have hstack : SameStack t w := sameStack_of_page1 hpage hsp
  refine ⟨?pha, ?php, ?jsr, ?brk⟩
  case pha =>
    intro ht hu
    cases ht
    cases hu
    rw [pull_of_push hstack]
    exact ⟨rfl, rfl, rfl⟩
  case php =>
    intro hunused hbreak ht hu
    cases ht
    cases hu
    rw [pull_of_push hstack]
    exact ⟨normP_pushedByBrk hunused hbreak, rfl, rfl⟩
  case jsr =>
    intro dest ht hu
    cases ht
    cases hu
    have hword : SameStack (s.pushWord (s.cpu.pc - 1)) w := ⟨hstack.sp, hstack.read⟩
    rw [pullWord_of_pushWord hword]
    exact ⟨rfl, BitVec.sub_add_cancel _ _, rfl⟩
  case brk =>
    intro hunused hbreak ht hu
    cases ht
    cases hu
    rw [returnFromInterrupt_of_enterVector (by decide) (by decide) hstack]
    exact ⟨normP_pushedByBrk hunused hbreak, rfl, rfl⟩

end Sys2Proof.Claims
end

section
/-! PROOF. Arithmetic, logic, compares and increments (spec/41_arithmetic_logic.md R140 to R155):
the flags each flag computation leaves, as numbers; what a register write after a read of the operand
leaves; the byte a read-modify-write stores. -/

namespace Sys2Proof.Machine

open Sys2Proof Sys2Proof.Claims

/-! The carry and the overflow of an addition. -/

/-- The carry an addition takes in, as a number (R140). -/
def carryIn (p : Byte) : Nat := if getFlag p .c then 1 else 0

theorem carryIn_le_one (p : Byte) : carryIn p ≤ 1 := by
  unfold carryIn
  split <;> decide

theorem adcSum_eq (a m p : Byte) : adcSum a m p = a.toNat + m.toNat + carryIn p := rfl

theorem adcResult_toNat (a m p : Byte) :
    (adcResult a m p).toNat = (a.toNat + m.toNat + carryIn p) % 256 := BitVec.toNat_ofNat _ _

/-- The sum of the two bytes and the carry in two's complement. -/
def signedSum (a m p : Byte) : Int := a.toInt + m.toInt + carryIn p

theorem getLsbD_seven (v : Byte) : v.getLsbD 7 = decide (128 ≤ v.toNat) := BitVec.msb_eq_decide v

/-- The top bit of R140's V formula is up exactly when the two's-complement sum leaves a byte's
range: the operands agree in sign, and the result does not agree with them. -/
theorem overflow_eq (a m p : Byte) :
    ((~~~ (a ^^^ m)) &&& (a ^^^ adcResult a m p)).getLsbD 7
      = decide (signedSum a m p < -128 ∨ 127 < signedSum a m p) := by
  have hbit : ((~~~ (a ^^^ m)) &&& (a ^^^ adcResult a m p)).getLsbD 7
      = (!(a.getLsbD 7 ^^ m.getLsbD 7) && (a.getLsbD 7 ^^ (adcResult a m p).getLsbD 7)) := by
    simp
  have hc := carryIn_le_one p
  rw [hbit, Bool.eq_iff_iff, getLsbD_seven, getLsbD_seven, getLsbD_seven, adcResult_toNat,
    signedSum, BitVec.toInt_eq_toNat_cond, BitVec.toInt_eq_toNat_cond]
  simp only [Bool.and_eq_true, Bool.not_eq_true', bne_eq_false_iff_eq, bne_iff_ne,
    decide_eq_decide, decide_eq_true_eq, ne_eq]
  omega

/-! SBC adds the complement (R141). -/

theorem adcSum_complement (a v p : Byte) :
    adcSum a (v ^^^ 0xFF) p = a.toNat + 255 - v.toNat + carryIn p := by
  rw [adcSum_eq, xor_ff_toNat]
  omega

/-- The carry out of SBC is "no borrow". -/
theorem carry_complement (a v p : Byte) :
    256 ≤ adcSum a (v ^^^ 0xFF) p ↔ v.toNat + (1 - carryIn p) ≤ a.toNat := by
  have hc := carryIn_le_one p
  rw [adcSum_complement]
  omega

theorem signedSum_complement (a v p : Byte) :
    signedSum a (v ^^^ 0xFF) p = a.toInt - v.toInt - (1 - (carryIn p : Int)) := by
  rw [signedSum, xor_ff_toInt]
  omega

/-! What the flag computations leave of P. -/

/-- ADC's row of the flag table (R140). -/
theorem statusAfter_adcFlags (a m p : Byte) :
    StatusAfter p (normP (adcFlags a m p)) (some (decide (256 ≤ adcSum a m p)))
      (some (decide (adcResult a m p = 0))) none none
      (some (decide (signedSum a m p < -128 ∨ 127 < signedSum a m p)))
      (some ((adcResult a m p).getLsbD 7)) := by
  have hflag := getFlag_adcFlags a m p
  exact statusAfter_normP (hflag .c) (hflag .z) (hflag .i) (hflag .d)
    ((hflag .v).trans (overflow_eq a m p)) (hflag .n)

/-- A compare's row (R145 to R147): the difference is 0 exactly when the bytes are equal. -/
theorem statusAfter_cmpFlags (r m p : Byte) :
    StatusAfter p (normP (cmpFlags r m p)) (some (decide (m.toNat ≤ r.toNat)))
      (some (decide (r = m))) none none none (some ((r - m).getLsbD 7)) := by
  have hflag := getFlag_cmpFlags r m p
  have hzero : (r - m == 0) = decide (r = m) := decide_eq_decide.mpr sub_eq_zero
  exact statusAfter_normP (hflag .c) ((hflag .z).trans hzero) (hflag .i) (hflag .d) (hflag .v)
    (hflag .n)

/-- BIT's row (R148). -/
theorem statusAfter_bitFlags (a m p : Byte) :
    StatusAfter p (normP (bitFlags a m p)) none (some (decide (a &&& m = 0))) none none
      (some (m.getLsbD 6)) (some (m.getLsbD 7)) := by
  have hflag := getFlag_bitFlags a m p
  exact statusAfter_normP (hflag .c) (hflag .z) (hflag .i) (hflag .d) (hflag .v) (hflag .n)

/-! A register write in the state u the read of the operand left, whose CPU is still that of s. -/

section
variable {s u : State} (hu : u.cpu = s.cpu)
include hu

theorem addToA_after_read (m : Byte) :
    u.addToA m = { u with cpu := { s.cpu with
      a := adcResult s.cpu.a m s.cpu.p, p := normP (adcFlags s.cpu.a m s.cpu.p) } } := by
  rw [← hu]
  rfl

theorem setAccumulator_after_read (r : Byte) :
    u.setAccumulator r = { u with cpu := { s.cpu with a := r, p := (u.updateZN r).cpu.p } } := by
  rw [← hu]
  rfl

theorem setP_after_read (v : Byte) :
    u.setP v = { u with cpu := { s.cpu with p := normP v } } := by
  rw [← hu]
  rfl

end

/-! The read-modify-write access (R99). -/

theorem modified_modify (s : State) (m : MemOperand) (f : Byte → Byte) :
    Modified s m (s.modify m f).1 (f (s.modify m f).1) (s.modify m f).2 :=
  ⟨_, busReadDecoder s _, busWriteDecoder _ _ _⟩

theorem modify_p (s : State) (m : MemOperand) (f : Byte → Byte) :
    (s.modify m f).2.cpu.p = s.cpu.p := by rw [modify_cpu]

theorem byte_add_one (v : Byte) : v + 1 = BitVec.ofNat 8 (v.toNat + 1) := by
  bv_omega

theorem byte_sub_one (v : Byte) : v - 1 = BitVec.ofNat 8 (v.toNat + 255) := by
  bv_omega

end Sys2Proof.Machine

namespace Sys2Proof.Claims

open Sys2Proof Sys2Proof.Machine

/-- Settles O49: both are one addition to A after the operand's read; SBC's is of the complement,
whose carry and overflow are those of the subtraction. -/
theorem addAndSubtract : Obligations.AddAndSubtract := by
  unfold Obligations.AddAndSubtract
  intro s o c
  have hadd := addToA_after_read (load_cpu s o)
  refine ⟨⟨_, _, _, operand_load s o, rfl, ?adc, ?adcFlags⟩,
    ⟨_, _, _, operand_load s o, rfl, ?sbc, ?sbcFlags⟩⟩
  case adc =>
    rw [hadd]
    rfl
  case adcFlags =>
    rw [hadd]
    exact statusAfter_adcFlags _ _ _
  case sbc =>
    rw [hadd, adcResult, adcSum_complement]
    rfl
  case sbcFlags =>
    have hstatus := statusAfter_adcFlags s.cpu.a ((s.load o).1 ^^^ 0xFF) s.cpu.p
    simp only [carry_complement, signedSum_complement] at hstatus
    rw [hadd]
    exact hstatus

/-- Settles O50: each is one write of A and SetZN after the operand's read. -/
theorem logicIntoA : Obligations.LogicIntoA := by
  unfold Obligations.LogicIntoA
  intro s o
  have hset := setAccumulator_after_read (load_cpu s o)
  exact ⟨⟨_, _, _, operand_load s o, rfl, hset _, fun _ => BitVec.getLsbD_and,
      znFrom_updateZN (load_p s o) _⟩,
    ⟨_, _, _, operand_load s o, rfl, hset _, fun _ => BitVec.getLsbD_or,
      znFrom_updateZN (load_p s o) _⟩,
    ⟨_, _, _, operand_load s o, rfl, hset _, fun _ => BitVec.getLsbD_xor,
      znFrom_updateZN (load_p s o) _⟩⟩

/-- Settles O51: each is one write of P after the operand's read. -/
theorem comparesAndBit : Obligations.ComparesAndBit := by
  unfold Obligations.ComparesAndBit
  intro s o m
  have hset := setP_after_read (load_cpu s o)
  exact ⟨⟨_, _, _, operand_load s o, rfl, hset _, statusAfter_cmpFlags _ _ _⟩,
    ⟨_, _, _, operand_load s o, rfl, hset _, statusAfter_cmpFlags _ _ _⟩,
    ⟨_, _, _, operand_load s o, rfl, hset _, statusAfter_cmpFlags _ _ _⟩,
    ⟨_, _, _, busReadDecoder s _, rfl, setP_after_read (busRead_cpu s _) _,
      statusAfter_bitFlags _ _ _⟩⟩

/-- Settles O52: a step up is + 1 and a step down is + 255 modulo 256; in memory it is one
read-modify-write access, in a register one register write, and SetZN follows. -/
theorem incrementsAndDecrements : Obligations.IncrementsAndDecrements := by
  unfold Obligations.IncrementsAndDecrements
  intro s m
  simp only [← byte_add_one, ← byte_sub_one]
  exact ⟨⟨_, _, _, modified_modify s m (· + 1), rfl, rfl, znFrom_updateZN (modify_p s m _) _⟩,
    ⟨_, _, _, modified_modify s m (· - 1), rfl, rfl, znFrom_updateZN (modify_p s m _) _⟩,
    ⟨_, rfl, rfl, znFrom_updateZN rfl _⟩, ⟨_, rfl, rfl, znFrom_updateZN rfl _⟩,
    ⟨_, rfl, rfl, znFrom_updateZN rfl _⟩, ⟨_, rfl, rfl, znFrom_updateZN rfl _⟩⟩

end Sys2Proof.Claims
end

section
/-! PROOF. Shifts, rotates and SLO (spec/42_shift_rotate.md R160 to R163, spec/45_unofficial.md R200):
the flags a shift leaves, and the top bit of a right shift's result. The results as numbers and the
read-modify-write access are laws above. -/

namespace Sys2Proof.Machine

open Sys2Proof Sys2Proof.Claims

/-- LSR brings a 0 into the top bit (R161). -/
theorem lsrByte_top (v : Byte) (c : Bool) : (lsrByte v c).1.getLsbD 7 = false := by
  have hv := v.isLt
  rw [getLsbD_seven, lsrByte_toNat, decide_eq_false_iff_not]
  omega

/-- ROR brings the old carry into the top bit (R163). -/
theorem rorByte_top (v : Byte) (c : Bool) : (rorByte v c).1.getLsbD 7 = c := by
  have hv := v.isLt
  rw [getLsbD_seven, rorByte_toNat]
  cases c with
  | false => rw [Bool.toNat_false, decide_eq_false_iff_not]; omega
  | true => rw [Bool.toNat_true, decide_eq_true_iff]; omega

/-- A shift's row of the flag table: C is the bit shifted out, Z and N come from the result, whose top
bit is n (R160 to R163). -/
theorem statusAfter_shiftFlags (p : Byte) {r : Byte} (c : Bool) {n : Bool} (hn : r.getLsbD 7 = n) :
    StatusAfter p (normP (shiftFlags p r c)) (some c) (some (decide (r = 0))) none none none
      (some n) := by
  have hflag := getFlag_shiftFlags p r c
  exact statusAfter_normP (hflag .c) (hflag .z) (hflag .i) (hflag .d) (hflag .v)
    ((hflag .n).trans hn)

end Sys2Proof.Machine

namespace Sys2Proof.Claims

open Sys2Proof Sys2Proof.Machine

/-- Settles O53: each writes A and P and nothing else; N is the result's top bit, which for LSR is 0
and for ROR the old carry. -/
theorem accumulatorShifts : Obligations.AccumulatorShifts := by
  unfold Obligations.AccumulatorShifts
  intro s c
  exact ⟨⟨_, rfl, rfl, aslByte_toNat _ c, statusAfter_shiftFlags _ _ rfl⟩,
    ⟨_, rfl, rfl, lsrByte_toNat _ c, statusAfter_shiftFlags _ _ (lsrByte_top _ c)⟩,
    ⟨_, rfl, rfl, rolByte_toNat _ c, statusAfter_shiftFlags _ _ rfl⟩,
    ⟨_, rfl, rfl, rorByte_toNat _ c, statusAfter_shiftFlags _ _ (rorByte_top _ c)⟩⟩

/-- Settles O54: each is one read-modify-write access with the shifted byte, and P is then written with
the shift's flags; SLO stores ASL's byte, and writes A too, with that byte ORed in. -/
theorem memoryShiftsAndSlo : Obligations.MemoryShiftsAndSlo := by
  unfold Obligations.MemoryShiftsAndSlo
  intro s m c
  have haccess (f : Byte → Bool → Byte × Bool) := modified_modify s m fun v => (f v c).1
  exact ⟨⟨_, _, _, _, haccess aslByte, rfl, rfl, aslByte_toNat _ c, statusAfter_shiftFlags _ _ rfl⟩,
    ⟨_, _, _, _, haccess lsrByte, rfl, rfl, lsrByte_toNat _ c,
      statusAfter_shiftFlags _ _ (lsrByte_top _ c)⟩,
    ⟨_, _, _, _, haccess rolByte, rfl, rfl, rolByte_toNat _ c, statusAfter_shiftFlags _ _ rfl⟩,
    ⟨_, _, _, _, haccess rorByte, rfl, rfl, rorByte_toNat _ c,
      statusAfter_shiftFlags _ _ (rorByte_top _ c)⟩,
    ⟨_, _, _, _, haccess aslByte, rfl, rfl, aslByte_toNat _ c, fun _ => BitVec.getLsbD_or,
      statusAfter_shiftFlags _ _ rfl⟩⟩

end Sys2Proof.Claims
end

section
/-! PROOF. Jumps, subroutines, branches, BRK and RTI (spec/43_control_transfer.md R170 to R184): the
pointer's second address and the return address as numbers, and what a pushed word and an entry through
a vector leave. -/

namespace Sys2Proof.Machine

open Sys2Proof Sys2Proof.Claims

/-! JMP through a pointer. -/

/-- The target's high byte is read in the pointer's own page: only the pointer's low byte is
incremented, modulo 256 (R171). -/
theorem pointerHigh_toNat (p : Word) :
    (word16 (hiByte p) (loByte p + 1)).toNat = p.toNat / 256 * 256 + (p.toNat + 1) % 256 := by
  have hp := p.isLt
  have hhigh : (hiByte p).toNat = p.toNat / 256 := by
    rw [hiByte, BitVec.extractLsb'_toNat, Nat.shiftRight_eq_div_pow]
    omega
  have hlow : (loByte p).toNat = p.toNat % 256 := BitVec.extractLsb'_toNat _ _ _
  rw [word16_toNat, BitVec.toNat_add, hhigh, hlow]
  simp

theorem indTarget_cpu (s : State) (p : Word) : (s.indTarget p).2.cpu = s.cpu := by
  unfold State.indTarget
  rw [busRead_cpu, busRead_cpu]

/-! A word on the stack. -/

/-- A pushed word lies high byte in the slot SP pointed at, low byte below (R59). -/
theorem pushWord_ram_read (s : State) (w : Word) (k : Nat) :
    (s.pushWord w).ram.read k
      = if k = 256 + s.cpu.sp.toNat then hiByte w
        else if k = 256 + (s.cpu.sp - 1).toNat then loByte w
        else s.ram.read k := by
  rw [pushWord_eq]
  by_cases hk : k = 256 + s.cpu.sp.toNat
  · subst hk
    rw [if_pos rfl, read_write_other_slot _ _ (by bv_omega), Memory.read_write_same]
  · rw [if_neg hk, Memory.read_write, Memory.read_write_other _ _ hk]

/-- The word after a word of two bytes, as a number modulo 2^16 (R173). -/
theorem word16_add_one (hi lo : Byte) :
    word16 hi lo + 1 = BitVec.ofNat 16 (hi.toNat * 256 + lo.toNat + 1) := by
  rw [← word16_toNat, BitVec.ofNat_add, BitVec.ofNat_toNat, BitVec.setWidth_eq]
  rfl

/-! Branches. -/

/-- A branch writes PC when its flag has the tested value, and does nothing otherwise (R174). -/
theorem branch_eq (s : State) (f : Flag) (b : Bool) (d : Byte) :
    s.branch f b d
      = if getFlag s.cpu.p f = b then
          { s with cpu := { s.cpu with
            pc := BitVec.ofInt 16 ((s.cpu.pc.toNat : Int) + d.toInt) } }
        else s := by
  rw [← branchTarget_eq]
  rfl

/-! Entry through a vector. -/

/-- The row of the flag table of an entry: P.I is set (R183, R212, R213). -/
theorem statusAfter_setInterrupt (p : Byte) :
    StatusAfter p (normP (setFlag p .i true)) none none (some true) none none none := by
  have hflag (g : Flag) := getFlag_setFlag p .i g true
  exact statusAfter_normP (hflag .c) (hflag .z) (hflag .i) (hflag .d) (hflag .v) (hflag .n)

end Sys2Proof.Machine

namespace Sys2Proof.Claims

open Sys2Proof Sys2Proof.Machine

/-- Settles O55: both reads of the indirect form are the bus decoder's, and leave the CPU to the one
write of PC. -/
theorem jumps : Obligations.Jumps := by
  unfold Obligations.Jumps
  intro s a
  refine ⟨rfl, _, _, _, _, _, busReadDecoder s a, busReadDecoder _ _, pointerHigh_toNat a, ?indirect⟩
  rw [← indTarget_cpu s a]
  rfl

/-- Settles O56: JSR is one pushed word and a write of PC, RTS one pulled word and a write of PC. -/
theorem callsAndReturns : Obligations.CallsAndReturns := by
  unfold Obligations.CallsAndReturns
  intro s a
  refine ⟨⟨_, rfl, ?jsr, pushWord_ram_read s _⟩, ?rts⟩
  case jsr =>
    rw [pushWord_eq]
    rfl
  case rts =>
    have hexec : exec .rts s = .next (s.pullWord.2.setPc (s.pullWord.1 + 1)) := rfl
    rw [hexec, pullWord_eq, word16_add_one]
    rfl

/-- Settles O58: BRK is the entry every interrupt shares, through $FFFE with P.B set in the pushed byte,
and RTI the return from it. -/
theorem breakAndReturn : Obligations.BreakAndReturn := by
  unfold Obligations.BreakAndReturn
  intro s
  have hentry := enterVector_eq s (s.cpu.pc + 1) (pushedByBrk s.cpu.p) (vector := 0xFFFE)
    (by decide) (by decide)
  exact ⟨⟨_, congrArg Host.Outcome.next hentry, rfl, statusAfter_setInterrupt _,
      read_pushed _ _ _ _ _⟩,
    ⟨_, congrArg Host.Outcome.next (returnFromInterrupt_eq s), rfl, rfl⟩⟩

/-- Settles O57: each is one branch on its flag and value. -/
theorem branches : Obligations.Branches := by
  unfold Obligations.Branches
  intro s d taken
  have hbranch (f : Flag) (b : Bool) :=
    congrArg (Host.Outcome.next (φ := Fault) (ρ := Refusal)) (branch_eq s f b d)
  exact ⟨hbranch .n false, hbranch .n true, hbranch .v false, hbranch .v true, hbranch .c false,
    hbranch .c true, hbranch .z false, hbranch .z true⟩

end Sys2Proof.Claims
end

section
/-! PROOF. Flag instructions, NOPs and halts (spec/44_flags_misc.md R190 to R197, spec/45_unofficial.md
R202 to R204): the row of the flag table that one flag write has. -/

namespace Sys2Proof.Machine

open Sys2Proof Sys2Proof.Claims

/-! One flag write. -/

/-- The column of flag g in the flag table, where only flag f is written, with b (R29). -/
def flagColumn (f : Flag) (b : Bool) (g : Flag) : Option Bool := if g = f then some b else none

/-- Each flag after a write to f is what its column says, or as before where that is empty. -/
theorem getFlag_setFlag_flagColumn (p : Byte) (f g : Flag) (b : Bool) :
    getFlag (setFlag p f b) g = (flagColumn f b g).getD (getFlag p g) := by
  rw [getFlag_setFlag, flagColumn]
  by_cases hg : g = f
  · rw [if_pos hg, if_pos hg, Option.getD_some]
  · rw [if_neg hg, if_neg hg, Option.getD_none]

/-- The row of a write to one flag: that flag only (R190 to R196). -/
theorem statusAfter_setFlag (s : State) (f : Flag) (b : Bool) :
    StatusAfter s.cpu.p (s.setFlag f b).cpu.p (flagColumn f b .c) (flagColumn f b .z)
      (flagColumn f b .i) (flagColumn f b .d) (flagColumn f b .v) (flagColumn f b .n) := by
  have hflag (g : Flag) := getFlag_setFlag_flagColumn s.cpu.p f g b
  exact statusAfter_normP (hflag .c) (hflag .z) (hflag .i) (hflag .d) (hflag .v) (hflag .n)

end Sys2Proof.Machine

namespace Sys2Proof.Claims

open Sys2Proof Sys2Proof.Machine

/-- Settles O59: each is one flag write, which writes P alone and has one filled column in its row. -/
theorem flagInstructions : Obligations.FlagInstructions := by
  unfold Obligations.FlagInstructions
  intro s
  have hstatus := statusAfter_setFlag s
  exact ⟨⟨_, rfl, rfl, hstatus .c false⟩, ⟨_, rfl, rfl, hstatus .c true⟩,
    ⟨_, rfl, rfl, hstatus .i false⟩, ⟨_, rfl, rfl, hstatus .i true⟩,
    ⟨_, rfl, rfl, hstatus .d false⟩, ⟨_, rfl, rfl, hstatus .d true⟩,
    ⟨_, rfl, rfl, hstatus .v false⟩⟩

/-- Settles O60: a NOP answers its own state, whatever its operand; KIL and the unknown opcodes are one
halt at the address before PC. -/
theorem nopsAndHalts : Obligations.NopsAndHalts := by
  unfold Obligations.NopsAndHalts
  intro s op o
  have hhalt : s.haltAtOpcode op = { s with cpu := { s.cpu with
      pc := s.cpu.pc - 1, halted := some (op, s.cpu.pc - 1) } } := rfl
  exact ⟨rfl, rfl, congrArg Host.Outcome.next hhalt, congrArg Host.Outcome.next hhalt⟩

end Sys2Proof.Claims
end

section
/-! PROOF. Which opcode bytes halt, and what the halting step leaves (spec/45_unofficial.md R203, R204,
spec/60_exceptions.md R220). -/

namespace Sys2Proof.Claims

open Sys2Proof Sys2Proof.Machine

/-! The rows of the halting opcodes. -/

theorem opLength_of_mem_haltOpcodes {op : Byte} (h : op ∈ kilOpcodes ++ unknownOpcodes) :
    opLength op = 1 :=
  Laws.Encoding.opLength_halt op (List.contains_iff_mem.mpr h)

theorem encode_kil {op : Byte} (h : (Instr.kil op).wf = true) : encode (.kil op) = [op] := if_pos h

theorem encode_unknown {op : Byte} (h : (Instr.unknown op).wf = true) :
    encode (.unknown op) = [op] := if_pos h

/-- A well-formed instruction of one byte is the row of that byte, by the round trip through its
encoding (R90). -/
theorem decodeOp_of_encode {i : Instr} {op : Byte} (hwf : i.wf = true) (he : encode i = [op])
    (hl : opLength op = 1) : decodeOp op 0 0 = i := by
  have hround := encodeThenDecode i [] hwf
  rw [he, List.singleton_append, decode_of_length_one hl] at hround
  cases hround
  rfl

/-- A halting byte is the row of KIL or of the unknown opcode that carries it. -/
theorem decodeOp_of_mem_haltOpcodes {op : Byte} (h : op ∈ kilOpcodes ++ unknownOpcodes) :
    decodeOp op 0 0 = .kil op ∨ decodeOp op 0 0 = .unknown op := by
  have hl := opLength_of_mem_haltOpcodes h
  rcases List.mem_append.mp h with hk | hu
  · have hwf : (Instr.kil op).wf = true := List.contains_iff_mem.mpr hk
    exact .inl (decodeOp_of_encode hwf (encode_kil hwf) hl)
  · have hwf : (Instr.unknown op).wf = true := List.contains_iff_mem.mpr hu
    exact .inr (decodeOp_of_encode hwf (encode_unknown hwf) hl)

/-- The first byte of a row's encoding is its opcode byte. -/
theorem opcode_of_encode_decodeOp {op b1 b2 op' : Byte} (h : encode (decodeOp op b1 b2) = [op']) :
    op' = op := by
  obtain ⟨bs, hbs⟩ := rowBytes_eq_cons (opLength op) op b1 (word16 b2 b1)
  rw [encode_decodeOp, hbs] at h
  exact (List.cons.inj h).1.symm

/-- No other byte is a row of a halting instruction: the row is well-formed and encodes to its opcode
byte. -/
theorem mem_haltOpcodes_of_decodeOp {op b1 b2 op' : Byte}
    (h : decodeOp op b1 b2 = .kil op' ∨ decodeOp op b1 b2 = .unknown op') :
    op ∈ kilOpcodes ++ unknownOpcodes := by
  have hwf := wf_decodeOp op b1 b2
  rcases h with h | h
  · rw [h] at hwf
    obtain rfl := opcode_of_encode_decodeOp (h ▸ encode_kil hwf)
    exact List.mem_append_left _ (List.contains_iff_mem.mp hwf)
  · rw [h] at hwf
    obtain rfl := opcode_of_encode_decodeOp (h ▸ encode_unknown hwf)
    exact List.mem_append_right _ (List.contains_iff_mem.mp hwf)

/-! The fetch, by its opcode byte, and the halt after it. -/

theorem fetchInstr_of_length_one {s : State} (h : opLength (s.busRead s.cpu.pc).1 = 1) :
    s.fetchInstr = (decodeOp (s.busRead s.cpu.pc).1 0 0, s.fetchByte.2) := if_pos h

/-- The instruction fetched is a row of the byte at PC. -/
theorem fetchInstr_isRow (s : State) :
    ∃ b1 b2, s.fetchInstr.1 = decodeOp (s.busRead s.cpu.pc).1 b1 b2 := by
  unfold State.fetchInstr
  dsimp only
  split
  · exact ⟨_, _, rfl⟩
  · split <;> exact ⟨_, _, rfl⟩

/-- KIL and the unknown opcodes halt alike (R203, R204). -/
theorem exec_halting {i : Instr} {op : Byte} (h : i = .kil op ∨ i = .unknown op) (s : State) :
    exec i s = .next (s.haltAtOpcode op) := by
  rcases h with rfl | rfl
  · rfl
  · rfl

/-- After the opcode fetch, the address before PC is the opcode's own (R203). -/
theorem haltAtOpcode_fetchByte (s : State) (op : Byte) :
    s.fetchByte.2.haltAtOpcode op = s.fetchByte.2.halt op s.cpu.pc := by
  have hpc : s.fetchByte.2.cpu.pc - 1 = s.cpu.pc := by
    rw [fetchByte_cpu]
    exact BitVec.add_sub_cancel _ _
  unfold State.haltAtOpcode
  rw [hpc]

/-! The two kinds of step. -/

/-- The step of a halting byte: the halt goes back over the one byte fetched, and the end of the step
copies the record (R220). -/
theorem step_next_of_haltOpcode {s t : State} (hstep : step s = .next t)
    (h : (s.busRead s.cpu.pc).1 ∈ kilOpcodes ++ unknownOpcodes) :
    t = { (s.busRead s.cpu.pc).2 with
          cpu := { s.cpu with halted := some ((s.busRead s.cpu.pc).1, s.cpu.pc) },
          driver := { s.driver with
            fatal := some (.cpuHalt (s.busRead s.cpu.pc).1 s.cpu.pc), stepCycles := none } } := by
  obtain ⟨-, -, u, hu, rfl⟩ := step_next hstep
  have hexec : u = s.fetchByte.2.halt (s.busRead s.cpu.pc).1 s.cpu.pc := by
    rw [fetchInstr_of_length_one (opLength_of_mem_haltOpcodes h),
      exec_halting (decodeOp_of_mem_haltOpcodes h), haltAtOpcode_fetchByte] at hu
    exact (Host.Outcome.next.inj hu).symm
  rw [hexec, finishStep_halted (State.halt_halted ..)]
  unfold State.halt
  rw [fetchByte_cpu, show s.fetchByte.2.driver = s.driver from busRead_driver ..]
  rfl

/-- The step of any other byte: its instruction records no halt, so register writes, bus accesses and
the advance keep the CPU running and the driver's record as it was. -/
theorem step_next_of_not_haltOpcode {s t : State} (hstep : step s = .next t)
    (h : (s.busRead s.cpu.pc).1 ∉ kilOpcodes ++ unknownOpcodes) :
    t.cpu.halted = none ∧ t.driver.fatal = s.driver.fatal := by
  obtain ⟨-, hrun, u, hu, rfl⟩ := step_next hstep
  obtain ⟨b1, b2, hrow⟩ := fetchInstr_isRow s
  rcases exec_cases hu with ⟨op, hi, -⟩ | ⟨-, -, hkeep⟩
  · rw [hrow] at hi
    exact absurd (mem_haltOpcodes_of_decodeOp hi) h
  · have hrun' : u.cpu.halted = none :=
      hkeep _ (keeps_halted none) ((keeps_halted none).fetchInstr hrun)
    have hdriver : u.driver = s.driver :=
      (hkeep _ (keeps_outside s) ((keeps_outside s).fetchInstr ⟨rfl, rfl, rfl, rfl⟩)).1
    rw [finishStep_running hrun', advance_halted, (advance_outside _ _).2.2]
    exact ⟨hrun', (congrArg Driver.fatal hdriver :)⟩

/-- Settles O6: the halting bytes are exactly the bytes whose row is a halting instruction, and the step
of each kind is said once above. -/
theorem haltsExactlyOnHaltOpcodes : Obligations.HaltsExactlyOnHaltOpcodes := by
  unfold Obligations.HaltsExactlyOnHaltOpcodes
  intro s t _ hstep
  exact ⟨step_next_of_haltOpcode hstep, step_next_of_not_haltOpcode hstep⟩

end Sys2Proof.Claims
end

section
/-! PROOF. Where a step stops (spec/60_exceptions.md R210, R220, R221): a machine that is off refuses, a
halted one faults, and frame() answers what its first step does. -/

namespace Sys2Proof.Machine

open Sys2Proof

/-- The end of a step is total, and so is an instruction (R210). -/
theorem runInstr_answers (i : Instr) (s : State) : ∃ t, runInstr i s = .next t := by
  obtain ⟨u, hu⟩ := exec_answers i s
  unfold runInstr
  rw [hu]
  exact ⟨_, rfl⟩

theorem step_halted {s : State} {h : Byte × Word} (hp : s.driver.poweredOn = true)
    (hh : s.cpu.halted = some h) : step s = .fault (.cpuHalt h.1 h.2) := by
  unfold step
  rw [if_pos hp, hh]

theorem step_off {s : State} (hp : s.driver.poweredOn = false) :
    step s = .refused .driverMisuse := by
  unfold step
  rw [if_neg (by simp [hp])]

theorem hostReset_off {s : State} (hp : s.driver.poweredOn = false) :
    hostReset s = .refused .driverMisuse := by
  unfold hostReset
  rw [if_neg (by simp [hp])]

theorem hostReset_on {s : State} (hp : s.driver.poweredOn = true) :
    hostReset s = .next s.resetSequence := if_pos hp

theorem frameWithin_of_step_fault {s : State} {r : Fault} (h : step s = .fault r) (k : Nat) :
    frameWithin (k + 1) s = .fault r := by
  unfold frameWithin
  rw [h]

theorem frameWithin_of_step_refused {s : State} {r : Refusal} (h : step s = .refused r) (k : Nat) :
    frameWithin (k + 1) s = .refused r := by
  unfold frameWithin
  rw [h]

end Sys2Proof.Machine

namespace Sys2Proof.Claims

open Sys2Proof Sys2Proof.Machine

/-- Settles O5: a running machine's instruction always answers, a halted machine's first step faults,
and a machine that is off refuses each call. -/
theorem stepStopsOnlyWhenHaltedOrOff : Obligations.StepStopsOnlyWhenHaltedOrOff := by
  unfold Obligations.StepStopsOnlyWhenHaltedOrOff
  refine ⟨fun s hp hn => ?running, fun s op a hp hh => ?halted, fun s hp => ?off⟩
  case running =>
    unfold Safe
    rw [step_running hp hn]
    exact runInstr_answers _ _
  case halted =>
    have hstep : step s = .fault (.cpuHalt op a) := step_halted hp hh
    exact ⟨hstep, frameWithin_of_step_fault hstep 14890⟩
  case off =>
    have hstep := step_off hp
    exact ⟨hstep, frameWithin_of_step_refused hstep 14890, hostReset_off hp⟩

end Sys2Proof.Claims
end

section
/-! PROOF. The NMI and IRQ entries, and their order after a sub-cycle (spec/60_exceptions.md R212 to
R214, R225, R230): both entries are one, through different vectors. -/

namespace Sys2Proof.Machine

open Sys2Proof Sys2Proof.Claims

/-! When an entry is ignored. -/

theorem cpuNmi_of_halted {s : State} (h : s.cpu.halted ≠ none) : s.cpuNmi = s := by
  unfold State.cpuNmi
  split
  case h_1 => rfl
  case h_2 hn => exact absurd hn h

/-- Suppressed: the CPU is halted, or P.I is 1 (R213). -/
theorem cpuIrq_suppressed {s : State} (h : s.cpu.halted ≠ none ∨ getFlag s.cpu.p .i = true) :
    s.cpuIrq = s := by
  unfold State.cpuIrq
  split
  case h_1 => rfl
  case h_2 hn => rw [if_pos (h.resolve_left (not_not_intro hn))]

/-! What an entry leaves. -/

/-- The entry NMI and IRQ share (R212 to R214): three stack bytes, P.I, PC from the vector, 7 cycles
owed, and nothing else. -/
theorem interruptEntry {s t : State} {vector : Word} (h : 0x4020 ≤ vector.toNat)
    (h' : vector.toNat < 0xFFFF)
    (ht : t = (s.enterVector s.cpu.pc (pushedByInterrupt s.cpu.p) vector).addCycles 7) :
    t = { s with
          ram := t.ram,
          cpu := { s.cpu with
            sp := s.cpu.sp - 3, p := t.cpu.p,
            pc := word16 (s.cart.cpuRead (vector.toNat + 1)) (s.cart.cpuRead vector.toNat),
            extraCycles := s.cpu.extraCycles + 7 } }
      ∧ StatusAfter s.cpu.p t.cpu.p none none (some true) none none none
      ∧ ∀ k, t.ram.read k
        = if k = 256 + s.cpu.sp.toNat then hiByte s.cpu.pc
          else if k = 256 + (s.cpu.sp - 1).toNat then loByte s.cpu.pc
          else if k = 256 + (s.cpu.sp - 2).toNat then (s.cpu.p &&& 0xEF) ||| 0x20
          else s.ram.read k := by
  rw [enterVector_eq _ _ _ h h'] at ht
  subst ht
  exact ⟨rfl, statusAfter_setInterrupt _, read_pushed _ _ _ _ _⟩

/-! The two checks of a sub-cycle. -/

theorem cpuNmi_ppu (s : State) : s.cpuNmi.ppu = s.ppu := by rw [cpuNmi_frame]

/-- A latched NMI is entered and acknowledged; the entry leaves the PPU to the acknowledgement. -/
theorem deliverNmi_of_latch {s : State} (h : s.ppu.nmiOccurred = true) :
    s.deliverNmi = { s.cpuNmi with ppu := { s.ppu with nmiOccurred := false } } := by
  unfold State.deliverNmi
  rw [if_pos h]
  dsimp only
  rw [cpuNmi_ppu]

theorem deliverIrq_of_line {s : State} (h : s.cart.consumeIrq = true)
    (hi : getFlag s.cpu.p .i = false) : s.deliverIrq = s.cpuIrq := by
  unfold State.deliverIrq
  rw [if_pos (by simp [h, hi])]

theorem deliverIrq_of_no_line {s : State} (h : s.cart.consumeIrq = false) : s.deliverIrq = s := by
  unfold State.deliverIrq
  rw [if_neg (by simp [h])]

/-- The IRQ check after an entered NMI finds P.I set (R225). -/
theorem subCycle_of_latch {s : State} (hn : s.cpu.halted = none)
    (h : s.ppuTick.ppu.nmiOccurred = true) : s.subCycle = s.ppuTick.deliverNmi :=
  deliverIrq_masked (by rw [deliverNmi_cpu_of_latch h]; exact cpuNmi_interrupt hn)

theorem subCycle_of_no_latch {s : State} (h : s.ppuTick.ppu.nmiOccurred = false) :
    s.subCycle = s.ppuTick.deliverIrq := by
  unfold State.subCycle
  rw [deliverNmi_of_no_latch h]

end Sys2Proof.Machine

namespace Sys2Proof.Claims

open Sys2Proof Sys2Proof.Machine

/-- Settles O39: the shared entry, through $FFFA. -/
theorem nmiEntry : Obligations.NmiEntry := by
  unfold Obligations.NmiEntry
  exact ⟨fun _ => cpuNmi_of_halted,
    fun _ hn => interruptEntry (vector := 0xFFFA) (by decide) (by decide) (cpuNmi_running hn)⟩

/-- Settles O40: the shared entry, through $FFFE, where nothing suppresses it. -/
theorem irqEntry : Obligations.IrqEntry := by
  unfold Obligations.IrqEntry
  exact ⟨fun _ => cpuIrq_suppressed,
    fun _ hn hi => interruptEntry (vector := 0xFFFE) (by decide) (by decide) (cpuIrq_running hn hi)⟩

/-- Settles O41: a latched NMI masks the IRQ check by the P.I its entry sets; without one the IRQ check
alone decides. -/
theorem interruptPriority : Obligations.InterruptPriority := by
  unfold Obligations.InterruptPriority
  intro s hn
  refine ⟨fun hnmi => ?nmi, fun hnmi hline hi => ?irq, fun hnmi hno => ?neither⟩
  case nmi => rw [subCycle_of_latch hn hnmi, deliverNmi_of_latch hnmi]
  case irq => rw [subCycle_of_no_latch hnmi, deliverIrq_of_line hline hi]
  case neither =>
    rw [subCycle_of_no_latch hnmi]
    rcases hno with hline | hi
    · exact deliverIrq_of_no_line hline
    · exact deliverIrq_masked hi

end Sys2Proof.Claims
end

section
/-! PROOF. Power-on and reset() (spec/60_exceptions.md R211, R232, R233, R236,
spec/70_reset_and_hazards.md R350, R351): the reset sequence as one state, the cartridge powerOn builds,
and where the reset banks put the vector. -/

namespace Sys2Proof.Machine

open Sys2Proof

/-! The reset sequence. -/

/-- Everything the reset sequence does (R350): the mapper's reset comes before the vector is read. -/
theorem resetSequence_eq (s : State) :
    s.resetSequence
      = { s with
          cpu := { a := 0, x := 0, y := 0, sp := 0xFD, p := 0x24, halted := none, extraCycles := 0,
                   pc := word16 (s.cart.reset.cpuRead 0xFFFD) (s.cart.reset.cpuRead 0xFFFC) },
          ppu := s.ppu.reset,
          cart := s.cart.reset,
          driver := { poweredOn := true, frameComplete := false, fatal := none,
                      stepCycles := none } } := by
  unfold State.resetSequence
  rw [cpuReset_eq]

/-- The reset sequence gives the CPU and the driver's record what the invariant asks of them. -/
theorem resetSequence_inv {s : State} (hw : s.ram.wf = true) (hb : s.ram.below 0x800 = true)
    (hppu : s.ppu.Inv) (hcart : s.cart.Inv) : s.resetSequence.Inv := by
  rw [resetSequence_eq]
  exact
    { cpu := { uIsOne := Claims.resetHasInvariant.cpu.uIsOne
               bIsZero := Claims.resetHasInvariant.cpu.bIsZero
               haltedAt := fun _ _ h => by cases h }
      ramWf := hw
      ramBelow := hb
      ppu := hppu.reset
      cart := hcart.reset
      fatal := rfl }

/-! The vector through the reset banks. -/

/-- A mapper's reset banks put the last 8 KiB of the ROM at $E000, and so does NROM up to 32 KiB (R303,
R307, R311, R319). -/
theorem Cart.reset_prgOffset_top {c : Cart} (h : c.Inv) (hm : c.mapper ≠ .nrom ∨ c.prgLen ≤ 0x8000)
    {a : Nat} (ha : 0xE000 ≤ a) (ha' : a ≤ 0xFFFF) :
    c.reset.prgOffset a = c.prgLen - (0x10000 - a) := by
  have hs := h.prgSome
  have hb := h.prgBanks
  unfold Cart.reset Cart.prgOffset
  cases hc : c.mapper with
  | nrom =>
    have hlen : c.prgLen = 0x4000 ∨ c.prgLen = 0x8000 := by
      have := hm.resolve_left (not_not_intro hc)
      omega
    show (a - 0x8000) % c.prgLen = _
    rcases hlen with e | e
    · rw [e]; omega
    · rw [e]; omega
  | uxrom bank =>
    show (if a < 0xC000 then _ else (c.prgLen / 0x4000 - 1) * 0x4000 + (a - 0xC000)) = _
    rw [if_neg (by omega)]
    omega
  | mmc1 r =>
    have hbank : Mmc1.atReset.prgBank c.n16 a = c.n16 - 1 := if_neg (by simp; omega)
    have hmask : a &&& 0x3FFF = a % 0x4000 := land_mask a 14
    show Mmc1.atReset.prgBank c.n16 a * 0x4000 + (a &&& 0x3FFF) = _
    rw [hbank, hmask, Cart.n16]
    omega
  | mmc3 r =>
    have hbank : Mmc3.atReset.prgBank c.n8 a = c.n8 - 1 := by
      have hw : (a >>> 13) &&& 3 = 3 := by
        rw [window_index (by omega) ha']
        omega
      unfold Mmc3.prgBank
      rw [hw]
      rfl
    have hmask : a &&& 0x1FFF = a % 0x2000 := land_mask a 13
    show (Mmc3.atReset.prgBank c.n8 a % c.n8) * 0x2000 + (a &&& 0x1FFF) = _
    rw [hbank, hmask, Cart.n8, Nat.mod_eq_of_lt (by omega)]
    omega

/-- A byte read there is that many bytes before the end of the ROM. -/
theorem Cart.reset_cpuRead_top {c : Cart} (h : c.Inv) (hm : c.mapper ≠ .nrom ∨ c.prgLen ≤ 0x8000)
    {a : Nat} (ha : 0xE000 ≤ a) (ha' : a ≤ 0xFFFF) :
    c.reset.cpuRead a = c.prgRom.read (c.prgLen - (0x10000 - a)) := by
  rw [Cart.cpuRead_rom _ (by omega), Cart.reset_prgOffset_top h hm ha ha']
  rfl

/-! The cartridge powerOn takes, and the one it builds. -/

/-- The conditions of R236, as a proposition. -/
theorem cartridgeValid_iff (c : Cartridge) :
    cartridgeValid c = true
      ↔ (c.mapperId = 0 ∨ c.mapperId = 1 ∨ c.mapperId = 2 ∨ c.mapperId = 4)
        ∧ c.prgLen ≠ 0 ∧ c.prgLen % 0x4000 = 0 ∧ c.chrLen % 0x2000 = 0 := by
  simp [cartridgeValid, and_assoc, or_assoc]

/-- A mapper starts with its registers at their reset values (R300, R328). -/
theorem mapperOfId_reset (n : Nat) : (mapperOfId n).reset = mapperOfId n := by
  unfold mapperOfId
  split <;> rfl

theorem mapperOfId_inRange (n : Nat) {n16 : Nat} (h : 0 < n16) : (mapperOfId n).InRange n16 := by
  unfold mapperOfId
  split
  · exact Nat.zero_le 4
  · exact h
  · exact Nat.zero_le 8
  · trivial

theorem buildCart_reset (c : Cartridge) (m : PowerOnMem) :
    (buildCart c m).reset = buildCart c m := by
  unfold Cart.reset
  rw [show (buildCart c m).mapper = mapperOfId c.mapperId from rfl, mapperOfId_reset]
  rfl

/-! PRG-RAM and CHR of the built cartridge (R232, R301). -/

theorem buildCart_prgRam_saved {c : Cartridge} {m : PowerOnMem} {img : Memory}
    (hb : c.battery = true) (hs : m.savedImage = some img) :
    (buildCart c m).prgRam = img.load 0x2000 := by
  unfold buildCart
  rw [hs, hb]
  rfl

theorem buildCart_prgRam_given {c : Cartridge} {m : PowerOnMem}
    (h : c.battery = false ∨ m.savedImage = none) :
    (buildCart c m).prgRam = m.prgRam.load 0x2000 := by
  unfold buildCart
  rcases h with hb | hs
  · rw [hb]
    cases m.savedImage <;> rfl
  · rw [hs]

theorem buildCart_chrRom {c : Cartridge} (m : PowerOnMem) (h : c.chrLen ≠ 0) :
    (buildCart c m).chrIsRam = false ∧ (buildCart c m).chrLen = c.chrLen
      ∧ (buildCart c m).chr = c.chrRom.load c.chrLen :=
  ⟨beq_eq_false_iff_ne.mpr h, if_neg h, if_neg h⟩

theorem buildCart_chrRam {c : Cartridge} (m : PowerOnMem) (h : c.chrLen = 0) :
    (buildCart c m).chrIsRam = true ∧ (buildCart c m).chrLen = 0x2000
      ∧ (buildCart c m).chr = m.chrRam.load 0x2000 :=
  ⟨beq_iff_eq.mpr h, if_pos h, if_pos h⟩

/-- PRG-RAM starts as loaded contents of 8 KiB. -/
theorem buildCart_prgRam_load (c : Cartridge) (m : PowerOnMem) :
    ∃ l : Memory, (buildCart c m).prgRam = l.load 0x2000 := by
  cases hb : c.battery with
  | false => exact ⟨_, buildCart_prgRam_given (.inl hb)⟩
  | true =>
    cases hs : m.savedImage with
    | none => exact ⟨_, buildCart_prgRam_given (.inr hs)⟩
    | some img => exact ⟨_, buildCart_prgRam_saved hb hs⟩

/-- CHR starts as loaded contents of whole 8 KiB banks. -/
theorem buildCart_chr_load {c : Cartridge} (m : PowerOnMem) (hb : c.chrLen % 0x2000 = 0) :
    0 < (buildCart c m).chrLen ∧ (buildCart c m).chrLen % 0x2000 = 0
      ∧ ∃ l : Memory, (buildCart c m).chr = l.load (buildCart c m).chrLen := by
  by_cases h : c.chrLen = 0
  · obtain ⟨-, hlen, hchr⟩ := buildCart_chrRam m h
    rw [hlen]
    exact ⟨by decide, by decide, _, hchr⟩
  · obtain ⟨-, hlen, hchr⟩ := buildCart_chrRom m h
    rw [hlen]
    exact ⟨Nat.pos_of_ne_zero h, hb, _, hchr⟩

theorem buildCart_inv {c : Cartridge} (m : PowerOnMem) (h : cartridgeValid c = true) :
    (buildCart c m).Inv := by
  obtain ⟨-, hprg, hprgBanks, hchrBanks⟩ := (cartridgeValid_iff c).mp h
  obtain ⟨hchrSome, hchrBanks', chr, hchr⟩ := buildCart_chr_load m hchrBanks
  obtain ⟨ram, hram⟩ := buildCart_prgRam_load c m
  have hn16 : 0 < (buildCart c m).n16 := by
    show 0 < c.prgLen / 0x4000
    omega
  exact
    { prgSome := Nat.pos_of_ne_zero hprg
      prgBanks := hprgBanks
      chrSome := hchrSome
      chrBanks := hchrBanks'
      prgRomWf := (Memory.load_ok _ _).1
      prgRomBelow := (Memory.load_ok _ _).2
      chrWf := by rw [hchr]; exact (Memory.load_ok _ _).1
      chrBelow := by rw [hchr]; exact (Memory.load_ok _ _).2
      prgRamWf := by rw [hram]; exact (Memory.load_ok _ _).1
      prgRamBelow := by rw [hram]; exact (Memory.load_ok _ _).2
      mapper := mapperOfId_inRange _ hn16 }

/-! The machine powerOn starts from. -/

/-- The PPU at power-on: loaded memories and an empty framebuffer. -/
theorem ppu_atReset_load_inv {ciram oam palettes : Memory}
    (h : paletteCanonical (palettes.load 0x20) = true) :
    (Ppu.atReset (ciram.load 0x800) (oam.load 0x100) (palettes.load 0x20) []).Inv :=
  { Claims.ppu_atReset_empty_inv with
    ciramWf := (Memory.load_ok _ _).1
    ciramBelow := (Memory.load_ok _ _).2
    oamWf := (Memory.load_ok _ _).1
    oamBelow := (Memory.load_ok _ _).2
    palWf := (Memory.load_ok _ _).1
    palBelow := (Memory.load_ok _ _).2
    palCanonical := h }

/-- The machine powerOn runs the reset sequence on (R232). -/
def beforeReset (params : Params) (c : Cartridge) (m : PowerOnMem) : State :=
  { cpu := State.reset.cpu,
    ram := m.ram.load 0x800,
    ppu := Ppu.atReset (m.ciram.load 0x800) (m.oam.load 0x100) (m.palettes.load 0x20) [],
    cart := buildCart c m,
    pads := Pads.atPowerOn,
    driver := State.reset.driver,
    params := params }

theorem powerOn_valid (params : Params) {c : Cartridge} (m : PowerOnMem)
    (h : cartridgeValid c = true) :
    powerOn params c m = .next (beforeReset params c m).resetSequence := if_pos h

theorem powerOn_invalid (params : Params) {c : Cartridge} (m : PowerOnMem)
    (h : ¬ cartridgeValid c = true) : powerOn params c m = .refused .invalidCartridge := if_neg h

theorem powerOn_inv (params : Params) {c : Cartridge} {m : PowerOnMem}
    (h : cartridgeValid c = true) (hpal : paletteCanonical (m.palettes.load 0x20) = true) :
    (beforeReset params c m).resetSequence.Inv :=
  resetSequence_inv (Memory.load_ok _ _).1 (Memory.load_ok _ _).2 (ppu_atReset_load_inv hpal)
    (buildCart_inv m h)

end Sys2Proof.Machine

namespace Sys2Proof.Claims

open Sys2Proof Sys2Proof.Machine

/-- Settles O10: the reset sequence on the machine powerOn builds, whose cartridge a reset leaves as it
is. -/
theorem powerOnStateAndRefusal : Obligations.PowerOnStateAndRefusal := by
  unfold Obligations.PowerOnStateAndRefusal
  intro params c m good
  have hvalid : cartridgeValid c = true ↔ good := cartridgeValid_iff c
  refine ⟨fun hbad => powerOn_invalid params m fun h => hbad (hvalid.mp h), fun hgood => ?good⟩
  have hgood := hvalid.mpr hgood
  have hcart : (beforeReset params c m).resetSequence.cart = buildCart c m := by
    rw [resetSequence_eq]
    exact buildCart_reset c m
  have hmapper {n : Nat} (hid : c.mapperId = n) : (buildCart c m).mapper = mapperOfId n :=
    congrArg mapperOfId hid
  refine ⟨_, powerOn_valid params m hgood, powerOn_inv params hgood, ?_⟩
  rw [hcart, resetSequence_eq, show (beforeReset params c m).cart = buildCart c m from rfl,
    buildCart_reset]
  exact ⟨rfl, rfl, rfl, rfl, rfl, rfl, rfl, rfl, hmapper, hmapper, hmapper, hmapper,
    buildCart_chrRom m, buildCart_chrRam m, fun _ => buildCart_prgRam_saved,
    buildCart_prgRam_given, rfl, rfl, rfl, rfl⟩

/-- Settles O11: the reset sequence on the machine as it is, with the vector's two bytes at the end of
the ROM. -/
theorem hostResetRestarts : Obligations.HostResetRestarts := by
  unfold Obligations.HostResetRestarts
  intro s hp hcart
  refine ⟨_, hostReset_on hp, ?_⟩
  rw [resetSequence_eq]
  exact ⟨rfl, fun hm => ⟨Cart.reset_cpuRead_top hcart hm (by decide) (by decide),
      Cart.reset_cpuRead_top hcart hm (by decide) (by decide)⟩,
    rfl, rfl, rfl, rfl, rfl, rfl, rfl, rfl⟩

end Sys2Proof.Claims
end

section
/-! PROOF. The PPU's eight registers (spec/61_ppu.md R250 to R261): the bits each write puts into v and
t, and the data port on each part of PPU space. -/

namespace Sys2Proof.Machine

open Sys2Proof

/-! Bits of a field that a mask keeps, and of a field taken from a byte. -/

/-- The bits of a value under a mask whose set bits are those i with q i. -/
theorem getLsbD_and_mask {n : Nat} {m : BitVec n} {q : Nat → Prop} [DecidablePred q]
    (hm : ∀ i < n, m.getLsbD i = decide (q i)) (r : BitVec n) (i : Nat) :
    (r &&& m).getLsbD i = (r.getLsbD i && decide (q i)) := by
  rw [BitVec.getLsbD_and]
  by_cases hi : i < n
  · rw [hm i hi]
  · rw [BitVec.getLsbD_of_ge r i (Nat.le_of_not_lt hi), Bool.false_and, Bool.false_and]

/-- The bits of a byte as a field of v or t that begins at bit n (R260). -/
theorem getLsbD_byteField (d : Byte) (n i : Nat) :
    ((d.setWidth 15) <<< n).getLsbD i = (decide (n ≤ i ∧ i < 15) && d.getLsbD (i - n)) := by
  rw [BitVec.getLsbD_shiftLeft, BitVec.getLsbD_setWidth]
  grind

/-! PPUSTATUS. -/

/-- The three flags stand in bits 7 to 5 of the status byte, and the five bits below are 0 (R252). -/
theorem Ppu.statusByte_bits (p : Ppu) :
    p.statusByte.getLsbD 7 = p.vblank ∧ p.statusByte.getLsbD 6 = p.sprite0
      ∧ p.statusByte.getLsbD 5 = p.overflow ∧ p.statusByte.toNat % 32 = 0 := by
  unfold Ppu.statusByte
  generalize p.vblank = v, p.sprite0 = s, p.overflow = o
  revert v s o
  decide

/-! The writes that put bits into t. -/

/-- A write to PPUCTRL puts the byte's two low bits into t[11:10] (R250). -/
theorem Ppu.writeCtrl_t_bit (p : Ppu) (d : Byte) (i : Nat) :
    (p.writeCtrl d).t.getLsbD i
      = if i = 10 then d.getLsbD 0 else if i = 11 then d.getLsbD 1 else p.t.getLsbD i := by
  have hkeep : ∀ i < 15, (~~~ 0x0C00#15).getLsbD i = decide (i ≠ 10 ∧ i ≠ 11) := by decide
  have hlow : ∀ i < 8, (0x03 : Byte).getLsbD i = decide (i < 2) := by decide
  unfold Ppu.writeCtrl
  rw [BitVec.getLsbD_or, getLsbD_and_mask hkeep, getLsbD_byteField, getLsbD_and_mask hlow]
  grind

section
variable {p : Ppu} (d : Byte)

/-- The first write of PPUSCROLL (R255). -/
theorem Ppu.writeScroll_first (hw : p.w = false) :
    p.writeScroll d
      = { p with t := (p.writeScroll d).t, x := d.extractLsb' 0 3, w := true } := by
  have hx : d.extractLsb' 0 3 = d.setWidth 3 := BitVec.setWidth_eq_extractLsb' (by decide) |>.symm
  rw [hx]
  unfold Ppu.writeScroll
  rw [hw]
  rfl

theorem Ppu.writeScroll_first_t_bit (hw : p.w = false) (i : Nat) :
    (p.writeScroll d).t.getLsbD i = if i < 5 then d.getLsbD (i + 3) else p.t.getLsbD i := by
  have hkeep : ∀ i < 15, (~~~ 0x001F#15).getLsbD i = decide (5 ≤ i) := by decide
  unfold Ppu.writeScroll
  rw [hw]
  show ((p.t &&& ~~~ 0x001F#15) ||| (d >>> 3).setWidth 15).getLsbD i = _
  rw [BitVec.getLsbD_or, getLsbD_and_mask hkeep, BitVec.getLsbD_setWidth,
    BitVec.getLsbD_ushiftRight]
  grind

/-- The second write of PPUSCROLL (R255). -/
theorem Ppu.writeScroll_second (hw : p.w = true) :
    p.writeScroll d = { p with t := (p.writeScroll d).t, w := false } := by
  unfold Ppu.writeScroll
  rw [hw]
  rfl

theorem Ppu.writeScroll_second_t_bit (hw : p.w = true) (i : Nat) :
    (p.writeScroll d).t.getLsbD i
      = if i < 5 then p.t.getLsbD i else if i < 10 then d.getLsbD (i - 2)
        else if i < 12 then p.t.getLsbD i else if i < 15 then d.getLsbD (i - 12) else false := by
  have hkeep : ∀ i < 15, (~~~ 0x73E0#15).getLsbD i = decide (i < 5 ∨ 10 ≤ i ∧ i < 12) := by decide
  have hfine : ∀ i < 8, (7 : Byte).getLsbD i = decide (i < 3) := by decide
  unfold Ppu.writeScroll
  rw [hw]
  show ((p.t &&& ~~~ 0x73E0#15) ||| (((d >>> 3).setWidth 15) <<< 5)
    ||| (((d &&& 7).setWidth 15) <<< 12)).getLsbD i = _
  rw [BitVec.getLsbD_or, BitVec.getLsbD_or, getLsbD_and_mask hkeep, getLsbD_byteField,
    getLsbD_byteField, getLsbD_and_mask hfine, BitVec.getLsbD_ushiftRight]
  grind

/-- The first write of PPUADDR (R256). -/
theorem Ppu.writeAddr_first (hw : p.w = false) :
    p.writeAddr d = { p with t := (p.writeAddr d).t, w := true } := by
  unfold Ppu.writeAddr
  rw [hw]
  rfl

theorem Ppu.writeAddr_first_t_bit (hw : p.w = false) (i : Nat) :
    (p.writeAddr d).t.getLsbD i
      = if i < 8 then p.t.getLsbD i else if i < 14 then d.getLsbD (i - 8) else false := by
  have hkeep : ∀ i < 15, (0x00FF#15).getLsbD i = decide (i < 8) := by decide
  have hlow : ∀ i < 8, (0x3F : Byte).getLsbD i = decide (i < 6) := by decide
  unfold Ppu.writeAddr
  rw [hw]
  show ((p.t &&& 0x00FF#15) ||| (((d &&& 0x3F).setWidth 15) <<< 8)).getLsbD i = _
  rw [BitVec.getLsbD_or, getLsbD_and_mask hkeep, getLsbD_byteField, getLsbD_and_mask hlow]
  grind

/-- The second write of PPUADDR (R256). -/
theorem Ppu.writeAddr_second (hw : p.w = true) :
    p.writeAddr d = { p with t := (p.writeAddr d).t, v := (p.writeAddr d).t, w := false } := by
  unfold Ppu.writeAddr
  rw [hw]
  rfl

theorem Ppu.writeAddr_second_t_bit (hw : p.w = true) (i : Nat) :
    (p.writeAddr d).t.getLsbD i = if i < 8 then d.getLsbD i else p.t.getLsbD i := by
  have hkeep : ∀ i < 15, (0x7F00#15).getLsbD i = decide (8 ≤ i) := by decide
  unfold Ppu.writeAddr
  rw [hw]
  show ((p.t &&& 0x7F00#15) ||| d.setWidth 15).getLsbD i = _
  rw [BitVec.getLsbD_or, getLsbD_and_mask hkeep, BitVec.getLsbD_setWidth]
  grind

end

/-! The data port. -/

section
variable (cd : Nat) (p : Ppu) (c : Cart) {a : Nat}

/-- A PPU bus access takes its address modulo 0x4000 (R67). -/
theorem Ppu.busRead_mod (n : Nat) : p.busRead cd c (n % 0x4000) = p.busRead cd c n := by
  have hmask : ∀ k, k &&& 0x3FFF = k % 0x4000 := fun k => land_mask k 14
  unfold Ppu.busRead
  simp only [hmask, Nat.mod_mod]

theorem Ppu.busWrite_mod (n : Nat) (d : Byte) :
    p.busWrite cd c (n % 0x4000) d = p.busWrite cd c n d := by
  have hmask : ∀ k, k &&& 0x3FFF = k % 0x4000 := fun k => land_mask k 14
  unfold Ppu.busWrite
  simp only [hmask, Nat.mod_mod]

/-- The pattern tables are read through the tap (R67, R301). -/
theorem Ppu.busRead_chr (h : a < 0x2000) :
    p.busRead cd c a = ((c.tap cd a).chrFetch a, c.tap cd a) := by
  unfold Ppu.busRead
  dsimp only
  rw [land_ppu_space (by omega), if_pos h]
  rfl

theorem Ppu.busWrite_chr (h : a < 0x2000) (d : Byte) :
    p.busWrite cd c a d = (p, c.ppuWrite cd a d) := by
  unfold Ppu.busWrite
  dsimp only
  rw [land_ppu_space (by omega), if_pos h]

/-- v after an access of the data port (R257, R258, R261). -/
theorem Ppu.v_add_inc :
    p.v + p.inc = BitVec.ofNat 15 (p.v.toNat + if p.ctrl.getLsbD 2 then 32 else 1) := by
  unfold Ppu.inc Ppu.inc32
  rw [BitVec.ofNat_add, BitVec.ofNat_toNat, BitVec.setWidth_eq]
  split <;> rfl

/-- A data port read below the palettes answers the old buffer (R257). -/
theorem Ppu.readData_buffered (h : p.v.toNat % 0x4000 < 0x3F00) :
    p.readData cd c = (p.readBuffer,
      { p with readBuffer := (p.busRead cd c (p.v.toNat % 0x4000)).1, v := p.v + p.inc },
      (p.busRead cd c (p.v.toNat % 0x4000)).2) := by
  have hmask : p.v.toNat &&& 0x3FFF = p.v.toNat % 0x4000 := land_mask _ 14
  unfold Ppu.readData
  dsimp only
  rw [hmask, if_pos h]

/-- A data port read of a palette answers it at once and buffers the nametable byte under it (R257). -/
theorem Ppu.readData_palette (h : 0x3F00 ≤ p.v.toNat % 0x4000) :
    p.readData cd c = (p.palettes.read (palIndex (p.v.toNat % 0x4000)),
      { p with
        readBuffer := p.ciram.read (ntIndex c.currentMirroring (p.v.toNat % 0x4000 - 0x1000)),
        v := p.v + p.inc }, c) := by
  have hmask : p.v.toNat &&& 0x3FFF = p.v.toNat % 0x4000 := land_mask _ 14
  have hunder : (p.v - 0x1000).toNat % 0x4000 = p.v.toNat % 0x4000 - 0x1000 := by
    have := p.v.isLt
    rw [BitVec.toNat_sub]
    show (0x8000 - 0x1000 + p.v.toNat) % 0x8000 % 0x4000 = _
    omega
  unfold Ppu.readData
  dsimp only
  rw [hmask, if_neg (by omega), p.busRead_palette cd c h (by omega),
    ← p.busRead_mod cd c (p.v - 0x1000).toNat, hunder,
    p.busRead_nametable cd c (by omega) (by omega)]

end

/-- What a write through the tap leaves of CHR (R301). -/
theorem Cart.ppuWrite_chr_read (cd : Nat) (c : Cart) (a : Nat) (d : Byte) (k : Nat) :
    (c.ppuWrite cd a d).chr.read k
      = if c.chrIsRam = true ∧ k = (c.tap cd a).chrOffset a then d else c.chr.read k := by
  rcases c.ppuWrite_cases cd a d with ⟨hrom, e⟩ | ⟨hram, e⟩ <;> rw [e]
  · rw [hrom, Cart.tap_chr, if_neg (by simp)]
  · rw [Memory.read_write]
    simp only [hram, true_and]

end Sys2Proof.Machine

namespace Sys2Proof.Claims

open Sys2Proof Sys2Proof.Machine

/-- Settles O24: register 2 of the PPU's window, and the bits of the status byte. -/
theorem statusReadClears : Obligations.StatusReadClears := by
  unfold Obligations.StatusReadClears
  intro s a h h' hreg
  obtain ⟨hv, hs, ho, hlow⟩ := s.ppu.statusByte_bits
  rw [busRead_ppu_area s h h', hreg]
  exact ⟨hv, hs, ho, hlow, rfl⟩

/-- Settles O25: the four writes one after another, each with the bits it leaves in t. -/
theorem scrollAndAddressWrites : Obligations.ScrollAndAddressWrites := by
  unfold Obligations.ScrollAndAddressWrites
  intro cd p c d
  refine ⟨⟨rfl, rfl⟩, fun hw => ⟨?scroll1, ?addr1⟩, fun hw => ⟨?scroll2, ?addr2⟩⟩
  case scroll1 =>
    have hbit := Ppu.writeScroll_first_t_bit d hw
    exact ⟨_, congrArg (·, c) (Ppu.writeScroll_first d hw), by grind, by grind⟩
  case addr1 =>
    have hbit := Ppu.writeAddr_first_t_bit d hw
    exact ⟨_, congrArg (·, c) (Ppu.writeAddr_first d hw), by grind, by grind, by grind⟩
  case scroll2 =>
    have hbit := Ppu.writeScroll_second_t_bit d hw
    exact ⟨_, congrArg (·, c) (Ppu.writeScroll_second d hw), by grind, by grind, by grind, by grind⟩
  case addr2 =>
    have hbit := Ppu.writeAddr_second_t_bit d hw
    exact ⟨_, congrArg (·, c) (Ppu.writeAddr_second d hw), by grind, by grind⟩

/-- Settles O26: the two kinds of data port read, and the bus reads they are made of. -/
theorem dataPortRead : Obligations.DataPortRead := by
  unfold Obligations.DataPortRead
  intro cd p c
  dsimp only
  rw [← p.v_add_inc]
  exact ⟨p.readData_buffered cd c, p.readData_palette cd c, p.busRead_chr cd c,
    fun h h' => p.busRead_nametable cd c h (by omega)⟩

/-- Settles O27: the bus write of each part of PPU space at v, and CHR after a write through the tap. -/
theorem dataPortWrite : Obligations.DataPortWrite := by
  unfold Obligations.DataPortWrite
  intro cd p c d
  dsimp only
  have hwrite : p.regWrite cd c 7 d
      = ({ (p.busWrite cd c (p.v.toNat % 0x4000) d).1 with v := p.v + p.inc },
          (p.busWrite cd c (p.v.toNat % 0x4000) d).2) := by
    rw [Ppu.busWrite_mod]
    rfl
  rw [← p.v_add_inc, hwrite]
  refine ⟨fun h => ?chr, fun h h' => ?nametable, fun h => ?palette, fun hrom k => ?rom,
    fun hram _ k => ?ram⟩
  case chr => rw [p.busWrite_chr cd c h]
  case nametable => rw [p.busWrite_nametable cd c h (by omega)]
  case palette => rw [p.busWrite_palette cd c h (by omega)]
  case rom => rw [Cart.ppuWrite_chr_read, hrom, if_neg (by simp)]
  case ram => rw [Cart.ppuWrite_chr_read]; simp only [hram, true_and]

/-- Settles O28: each register's arm, with the byte OAM then reads and the bits of t. -/
theorem oamPort : Obligations.OamPort := by
  unfold Obligations.OamPort
  intro cd p c d
  have hnext : p.oamaddr + 1 = BitVec.ofNat 8 (p.oamaddr.toNat + 1) := byte_add_one p.oamaddr
  refine ⟨rfl, rfl, rfl, ⟨_, ?_, fun k => Memory.read_write _ _ k d⟩, rfl,
    ⟨_, rfl, p.writeCtrl_t_bit d⟩, rfl, rfl, rfl⟩
  rw [← hnext]
  rfl

end Sys2Proof.Claims
end

section
/-! PROOF. The scroll register v (spec/61_ppu.md R260, R266 to R268): its four fields as slices of its
bits, what each masked write leaves of them, and IncY. -/

namespace Sys2Proof.Machine

open Sys2Proof

/-! The fields (R260), as slices of the bits. -/

theorem coarseX_eq (r : BitVec 15) : coarseX r = (r.extractLsb' 0 5).toNat := by
  rw [BitVec.extractLsb'_toNat, ← land_mask]
  rfl

theorem coarseY_eq (r : BitVec 15) : coarseY r = (r.extractLsb' 5 5).toNat := by
  rw [BitVec.extractLsb'_toNat, ← land_mask]
  rfl

theorem ntOf_eq (r : BitVec 15) : ntOf r = (r.extractLsb' 10 2).toNat := by
  rw [BitVec.extractLsb'_toNat, ← land_mask]
  rfl

theorem fineY_eq (r : BitVec 15) : fineY r = (r.extractLsb' 12 3).toNat := by
  rw [BitVec.extractLsb'_toNat, ← land_mask]
  rfl

/-- The four fields of a scroll register, from the top down (R260). -/
def scrollFields (r : BitVec 15) : Nat × Nat × Nat × Nat := (fineY r, ntOf r, coarseY r, coarseX r)

theorem scrollFields_eq (r : BitVec 15) :
    scrollFields r = ((r.extractLsb' 12 3).toNat, (r.extractLsb' 10 2).toNat,
      (r.extractLsb' 5 5).toNat, (r.extractLsb' 0 5).toNat) := by
  unfold scrollFields
  rw [fineY_eq, ntOf_eq, coarseY_eq, coarseX_eq]

/-! What the steps of IncY do to the fields (R268). -/

/-- Fine Y one up: no carry leaves a field below 7. -/
theorem scrollFields_addFineY {r : BitVec 15} (h : fineY r < 7) :
    scrollFields (r + 0x1000) = (fineY r + 1, ntOf r, coarseY r, coarseX r) := by
  have hr := r.isLt
  have hsum : (r + 0x1000).toNat = r.toNat + 0x1000 := by
    rw [fineY_eq, BitVec.extractLsb'_toNat, Nat.shiftRight_eq_div_pow] at h
    rw [BitVec.toNat_add]
    show (r.toNat + 0x1000) % 0x8000 = _
    omega
  unfold scrollFields
  simp only [fineY_eq, ntOf_eq, coarseY_eq, coarseX_eq, BitVec.extractLsb'_toNat, hsum,
    Nat.shiftRight_eq_div_pow, Prod.mk.injEq]
  omega

theorem scrollFields_clearFineY (r : BitVec 15) :
    scrollFields (r &&& ~~~ 0x7000#15) = (0, ntOf r, coarseY r, coarseX r) := by
  have hmask : (~~~ 0x7000#15).extractLsb' 12 3 = 0#3 ∧ (~~~ 0x7000#15).extractLsb' 10 2 = .allOnes 2
      ∧ (~~~ 0x7000#15).extractLsb' 5 5 = .allOnes 5
      ∧ (~~~ 0x7000#15).extractLsb' 0 5 = .allOnes 5 := by decide
  obtain ⟨h12, h10, h5, h0⟩ := hmask
  simp only [scrollFields_eq, ntOf_eq, coarseY_eq, coarseX_eq, BitVec.extractLsb'_and, h12, h10, h5,
    h0, BitVec.and_allOnes, BitVec.and_zero]
  rfl

/-- The other vertical nametable. -/
theorem scrollFields_flipVertical (r : BitVec 15) :
    scrollFields (r ^^^ 0x0800#15) = (fineY r, ntOf r ^^^ 2, coarseY r, coarseX r) := by
  have hmask : (0x0800#15).extractLsb' 12 3 = 0#3 ∧ (0x0800#15).extractLsb' 10 2 = 2#2
      ∧ (0x0800#15).extractLsb' 5 5 = 0#5 ∧ (0x0800#15).extractLsb' 0 5 = 0#5 := by decide
  obtain ⟨h12, h10, h5, h0⟩ := hmask
  simp only [scrollFields_eq, fineY_eq, ntOf_eq, coarseY_eq, coarseX_eq, BitVec.extractLsb'_xor, h12,
    h10, h5, h0, BitVec.xor_zero, BitVec.toNat_xor]
  rfl

theorem scrollFields_setCoarseY (r : BitVec 15) {n : Nat} (hn : n < 32) :
    scrollFields ((r &&& ~~~ 0x03E0#15) ||| (BitVec.ofNat 15 n <<< 5))
      = (fineY r, ntOf r, n, coarseX r) := by
  have hmask : (~~~ 0x03E0#15).extractLsb' 12 3 = .allOnes 3
      ∧ (~~~ 0x03E0#15).extractLsb' 10 2 = .allOnes 2 ∧ (~~~ 0x03E0#15).extractLsb' 5 5 = 0#5
      ∧ (~~~ 0x03E0#15).extractLsb' 0 5 = .allOnes 5 := by decide
  have hput : ∀ n < 32, (BitVec.ofNat 15 n <<< 5).extractLsb' 12 3 = 0#3
      ∧ (BitVec.ofNat 15 n <<< 5).extractLsb' 10 2 = 0#2
      ∧ ((BitVec.ofNat 15 n <<< 5).extractLsb' 5 5).toNat = n
      ∧ (BitVec.ofNat 15 n <<< 5).extractLsb' 0 5 = 0#5 := by decide
  obtain ⟨h12, h10, h5, h0⟩ := hmask
  obtain ⟨p12, p10, p5, p0⟩ := hput n hn
  simp only [scrollFields_eq, fineY_eq, ntOf_eq, coarseX_eq, BitVec.extractLsb'_or,
    BitVec.extractLsb'_and, h12, h10, h5, h0, p12, p10, p5, p0, BitVec.and_allOnes, BitVec.and_zero,
    BitVec.zero_or, BitVec.or_zero]

/-! IncY (R268). -/

theorem scrollFields_incY_of_lt {v : BitVec 15} (h : fineY v < 7) :
    scrollFields (incY v) = (fineY v + 1, ntOf v, coarseY v, coarseX v) := by
  unfold incY
  rw [if_pos h]
  exact scrollFields_addFineY h

theorem scrollFields_incY_of_seven {v : BitVec 15} (h : fineY v = 7) :
    scrollFields (incY v)
      = (0, if coarseY v = 29 then ntOf v ^^^ 2 else ntOf v,
          if coarseY v = 29 ∨ coarseY v = 31 then 0 else coarseY v + 1, coarseX v) := by
  have hlt : coarseY v < 32 := by rw [coarseY_eq]; exact BitVec.isLt _
  have hclear := scrollFields_clearFineY v
  have hflip := scrollFields_flipVertical (v &&& ~~~ 0x7000#15)
  simp only [scrollFields, Prod.mk.injEq] at hclear hflip
  obtain ⟨hfine, hnt, hcy, hcx⟩ := hclear
  obtain ⟨hfine', hnt', -, hcx'⟩ := hflip
  unfold incY
  rw [if_neg (by omega)]
  dsimp only
  rw [hcy, scrollFields_setCoarseY _ (by grind)]
  by_cases h29 : coarseY v = 29
  · rw [if_pos h29, if_pos h29, if_pos h29, if_pos (.inl h29), hfine', hnt', hcx', hfine, hnt, hcx]
  · rw [if_neg h29, if_neg h29, if_neg h29, hfine, hnt, hcx]
    simp only [h29, false_or]

end Sys2Proof.Machine

namespace Sys2Proof.Claims

open Sys2Proof Sys2Proof.Machine

/-- Settles O31: the fields IncY leaves, below row 7 of a tile and on it. -/
theorem verticalScrollStep : Obligations.VerticalScrollStep := by
  unfold Obligations.VerticalScrollStep
  intro v
  have hnt : ntOf v < 4 := by rw [ntOf_eq]; exact BitVec.isLt _
  have hfine : fineY v < 8 := by rw [fineY_eq]; exact BitVec.isLt _
  have hflip : ∀ n < 4, (n ^^^ 2) % 2 = n % 2 ∧ (n ^^^ 2) / 2 = 1 - n / 2 := by decide
  obtain ⟨hlow, hhigh⟩ := hflip _ hnt
  by_cases h : fineY v < 7
  · obtain ⟨hf, hn, hy, hx⟩ := by simpa [scrollFields] using scrollFields_incY_of_lt h
    exact ⟨hx, by rw [hn], fun _ => ⟨hf, hy, hn⟩, fun h7 => absurd h (by omega)⟩
  · obtain ⟨hf, hn, hy, hx⟩ := by
      simpa [scrollFields] using scrollFields_incY_of_seven (v := v) (by omega)
    refine ⟨hx, ?_, fun h7 => absurd h7 h, fun _ => ⟨hf, ?_, ?_, ?_⟩⟩
    · rw [hn]; split <;> omega
    · intro e; simp [hy, hn, e, hhigh]
    · intro e; simp [hy, hn, e]
    · intro e e'; simp [hy, hn, e, e']

end Sys2Proof.Claims
end

section
/-! PROOF. One sub-cycle of the PPU (spec/61_ppu.md R262 to R279): its place in the frame, the kinds of
event, and what the start of a visible line draws. -/

namespace Sys2Proof.Machine

open Sys2Proof

/-! The copies from t to v (R266, R267), bit by bit. -/

/-- The bits of a value with those under a mask taken from another. -/
theorem getLsbD_replace {m : BitVec 15} {q : Nat → Prop} [DecidablePred q]
    (hm : ∀ i < 15, m.getLsbD i = decide (q i)) (v t : BitVec 15) (i : Nat) :
    ((v &&& ~~~ m) ||| (t &&& m)).getLsbD i = if q i then t.getLsbD i else v.getLsbD i := by
  have hkeep : ∀ i < 15, (~~~ m).getLsbD i = decide (¬ q i) := fun i hi => by
    rw [BitVec.getLsbD_not, hm i hi, decide_not]
    simp [hi]
  rw [BitVec.getLsbD_or, getLsbD_and_mask hkeep, getLsbD_and_mask hm]
  by_cases hq : q i <;> simp [hq]

theorem Ppu.copyVertical_v_bit (p : Ppu) (i : Nat) :
    p.copyVertical.v.getLsbD i
      = if 11 ≤ i ∨ (5 ≤ i ∧ i ≤ 9) then p.t.getLsbD i else p.v.getLsbD i :=
  getLsbD_replace (m := 0x7BE0#15) (q := fun i => 11 ≤ i ∨ (5 ≤ i ∧ i ≤ 9)) (by decide) p.v p.t i

theorem Ppu.copyHorizontal_v_bit (p : Ppu) (i : Nat) :
    p.copyHorizontal.v.getLsbD i = if i = 10 ∨ i < 5 then p.t.getLsbD i else p.v.getLsbD i :=
  getLsbD_replace (m := 0x041F#15) (q := fun i => i = 10 ∨ i < 5) (by decide) p.v p.t i

/-! The line renderer (R267, R270 to R278). -/

/-- The PPU a visible line is rendered from: with the background shown, the horizontal bits of t are in
v (R267). -/
def Ppu.lineView (p : Ppu) : Ppu := if p.showBg then p.copyHorizontal else p

theorem Ppu.lineView_eq (p : Ppu) : p.lineView = { p with v := p.lineView.v } := by
  unfold Ppu.lineView
  split <;> rfl

section
variable (p : Ppu)

@[simp] theorem Ppu.lineView_sprite0 : p.lineView.sprite0 = p.sprite0 := by rw [Ppu.lineView_eq]
@[simp] theorem Ppu.lineView_overflow : p.lineView.overflow = p.overflow := by rw [Ppu.lineView_eq]
@[simp] theorem Ppu.lineView_framebuffer : p.lineView.framebuffer = p.framebuffer := by
  rw [Ppu.lineView_eq]
@[simp] theorem Ppu.lineView_palettes : p.lineView.palettes = p.palettes := by rw [Ppu.lineView_eq]
@[simp] theorem Ppu.lineView_showBg : p.lineView.showBg = p.showBg := by rw [Ppu.lineView_eq]; rfl
@[simp] theorem Ppu.lineView_showSprites : p.lineView.showSprites = p.showSprites := by
  rw [Ppu.lineView_eq]; rfl
@[simp] theorem Ppu.lineView_bgLeft : p.lineView.bgLeft = p.bgLeft := by rw [Ppu.lineView_eq]; rfl
@[simp] theorem Ppu.lineView_spritesLeft : p.lineView.spritesLeft = p.spritesLeft := by
  rw [Ppu.lineView_eq]; rfl

end

/-- v of a rendered line, bit by bit (R267). -/
theorem Ppu.lineView_v_bit (p : Ppu) (i : Nat) :
    p.lineView.v.getLsbD i
      = if p.showBg = true ∧ (i = 10 ∨ i < 5) then p.t.getLsbD i else p.v.getLsbD i := by
  unfold Ppu.lineView
  cases p.showBg with
  | false => simp
  | true => simpa using p.copyHorizontal_v_bit i

/-- A visible line's start renders the line, and with the background shown steps v down (R267). -/
theorem Ppu.lineStart_eq (p : Ppu) (c : Cart) (y : Nat) :
    p.lineStart c y
      = { renderLine p.lineView c y with v := if p.showBg then incY p.lineView.v else p.v } := by
  unfold Ppu.lineStart Ppu.lineView
  cases p.showBg <;> rfl

/-- The sprites of a line by the rule on OAM's y bytes (R274). -/
theorem Ppu.spritesOnLine_eq (p : Ppu) (y : Nat) :
    p.spritesOnLine y = (List.range 64).filter (fun n =>
      decide ((p.oam.read (4 * n)).toNat < 240 ∧ (p.oam.read (4 * n)).toNat + 1 ≤ y
        ∧ y < (p.oam.read (4 * n)).toNat + 1 + if p.ctrl.getLsbD 5 then 16 else 8)) := by
  unfold Ppu.spritesOnLine Ppu.spriteInRange
  simp only [Bool.decide_and, Bool.and_assoc]
  rfl

theorem spriteZeroHit_iff (p : Ppu) (c : Cart) (s : List Nat) (y x : Nat) :
    spriteZeroHit p c s y x = true
      ↔ 0 ∈ s ∧ p.showBg = true ∧ p.showSprites = true ∧ (bgPixel p c x).1 ≠ 0
        ∧ spritePattern p c 0 y x ≠ 0 ∧ ¬(x < 8 ∧ (p.bgLeft = false ∨ p.spritesLeft = false)) := by
  unfold spriteZeroHit
  simp only [Bool.and_eq_true, Bool.or_eq_true, Bool.not_eq_true', List.contains_iff_mem,
    decide_eq_true_eq, ← Bool.not_eq_true]
  tauto

/-- The overflow flag a line's rendering leaves (R274, decision D19). -/
theorem renderLine_overflow (p : Ppu) (c : Cart) (y : Nat) :
    (renderLine p c y).overflow
      = (p.overflow || ((p.showBg || p.showSprites) && decide (8 < (p.spritesOnLine y).length))) :=
  rfl

/-- The sprite-0 flag a line's rendering leaves (R278). -/
theorem renderLine_sprite0_iff (p : Ppu) (c : Cart) (y : Nat) :
    (renderLine p c y).sprite0 = true
      ↔ p.sprite0 = true ∨ (0 ∈ p.spritesOnLine y ∧ p.showBg = true ∧ p.showSprites = true
        ∧ ∃ x, x < 256 ∧ (bgPixel p c x).1 ≠ 0 ∧ spritePattern p c 0 y x ≠ 0
          ∧ ¬(x < 8 ∧ (p.bgLeft = false ∨ p.spritesLeft = false))) := by
  unfold renderLine
  simp only [Bool.or_eq_true, List.any_eq_true, List.mem_range, spriteZeroHit_iff]
  grind

/-- A line's pixels, and no other (R270). -/
theorem renderLine_pixel (p : Ppu) (c : Cart) (y y' : Nat) {x : Nat} (hx : x < 256) :
    (renderLine p c y).framebuffer.read (y' * 256 + x)
      = if y' = y then pixelColour p c (p.spritesOnLine y) y x
        else p.framebuffer.read (y' * 256 + x) := by
  unfold renderLine
  dsimp only
  rw [Memory.read_writeRow]
  by_cases h : y' = y
  · subst h
    simp [hx]
  · rw [dif_neg (by simp; omega), if_neg h]

/-- With both layers off a pixel is the backdrop (R277, decision D22). -/
theorem pixelColour_of_off {p : Ppu} (hb : p.showBg = false) (hs : p.showSprites = false) (c : Cart)
    (s : List Nat) (y x : Nat) : pixelColour p c s y x = p.palettes.read 0 &&& 0x3F := by
  unfold pixelColour bgPixel spritePixel
  simp only [hb, hs, Bool.not_false, Bool.true_or, if_true]
  rfl

/-! Events. -/

/-- The four kinds of event, by the PPU's position (R263 to R267). -/
theorem ppuEvent_cases (p : Ppu) (c : Cart) :
    (p.scanline = 241 ∧ p.cycle = 1 ∧ (ppuEvent p c).1 = p.vblankStart)
      ∨ (p.scanline = -1 ∧ p.cycle = 1 ∧ (ppuEvent p c).1 = p.preRenderClear)
      ∨ (0 ≤ p.scanline ∧ p.scanline ≤ 239 ∧ p.cycle = 0
          ∧ (ppuEvent p c).1 = p.lineStart c p.scanline.toNat)
      ∨ (¬(p.cycle = 1 ∧ (p.scanline = 241 ∨ p.scanline = -1))
          ∧ ¬(0 ≤ p.scanline ∧ p.scanline ≤ 239 ∧ p.cycle = 0)
          ∧ ∃ v, (ppuEvent p c).1 = { p with v := v }) := by
  obtain ⟨-, hvblank, hclear, hline, hrest⟩ := ppuEvent_ppu p c
  by_cases h1 : p.scanline = 241 ∧ p.cycle = 1
  · exact .inl ⟨h1.1, h1.2, hvblank h1.1 h1.2⟩
  by_cases h2 : p.scanline = -1 ∧ p.cycle = 1
  · exact .inr (.inl ⟨h2.1, h2.2, hclear h2.1 h2.2⟩)
  by_cases h3 : 0 ≤ p.scanline ∧ p.scanline ≤ 239 ∧ p.cycle = 0
  · obtain ⟨hlow, hhigh, hcycle⟩ := h3
    exact .inr (.inr (.inl ⟨hlow, hhigh, hcycle, hline hlow hhigh hcycle⟩))
  · exact .inr (.inr (.inr ⟨by omega, h3, hrest h1 h2 h3⟩))

/-- VBlank after an event (R264, R265). -/
theorem ppuEvent_vblank (p : Ppu) (c : Cart) :
    (ppuEvent p c).1.vblank
      = if p.scanline = 241 ∧ p.cycle = 1 then true
        else if p.scanline = -1 ∧ p.cycle = 1 then false else p.vblank := by
  rcases ppuEvent_cases p c with ⟨h1, h2, e⟩ | ⟨h1, h2, e⟩ | ⟨h1, h2, h3, e⟩ | ⟨h1, h2, v, e⟩ <;>
    rw [e]
  · rw [if_pos ⟨h1, h2⟩]; rfl
  · rw [if_neg (by omega), if_pos ⟨h1, h2⟩]; rfl
  · rw [if_neg (by omega), if_neg (by omega), Ppu.lineStart_eq, Ppu.lineView_eq]; rfl
  · rw [if_neg (by omega), if_neg (by omega)]

/-- The NMI latch after an event (R264, decision D15). -/
theorem ppuEvent_nmiOccurred (p : Ppu) (c : Cart) :
    (ppuEvent p c).1.nmiOccurred
      = if p.scanline = 241 ∧ p.cycle = 1 then p.nmiOccurred || p.nmiEnabled
        else p.nmiOccurred := by
  rcases ppuEvent_cases p c with ⟨h1, h2, e⟩ | ⟨h1, h2, e⟩ | ⟨h1, h2, h3, e⟩ | ⟨h1, h2, v, e⟩ <;>
    rw [e]
  · rw [if_pos ⟨h1, h2⟩]; rfl
  · rw [if_neg (by omega)]; rfl
  · rw [if_neg (by omega), Ppu.lineStart_eq, Ppu.lineView_eq]; rfl
  · rw [if_neg (by omega)]

/-- The sprite flags after an event: cleared before the frame, and set by a line's rendering (R265,
R274, R278). -/
theorem ppuEvent_spriteFlags (p : Ppu) (c : Cart) :
    ((ppuEvent p c).1.sprite0, (ppuEvent p c).1.overflow)
      = if p.scanline = -1 ∧ p.cycle = 1 then (false, false)
        else if 0 ≤ p.scanline ∧ p.scanline ≤ 239 ∧ p.cycle = 0 then
          ((renderLine p.lineView c p.scanline.toNat).sprite0,
            (renderLine p.lineView c p.scanline.toNat).overflow)
        else (p.sprite0, p.overflow) := by
  rcases ppuEvent_cases p c with ⟨h1, h2, e⟩ | ⟨h1, h2, e⟩ | ⟨h1, h2, h3, e⟩ | ⟨h1, h2, v, e⟩ <;>
    rw [e]
  · rw [if_neg (by omega), if_neg (by omega)]; rfl
  · rw [if_pos ⟨h1, h2⟩]; rfl
  · rw [if_neg (by omega), if_pos ⟨h1, h2, h3⟩, Ppu.lineStart_eq]
  · rw [if_neg (by omega), if_neg h2]

/-- The framebuffer after an event: a visible line's start renders it (R270). -/
theorem ppuEvent_framebuffer (p : Ppu) (c : Cart) :
    (ppuEvent p c).1.framebuffer
      = if 0 ≤ p.scanline ∧ p.scanline ≤ 239 ∧ p.cycle = 0 then
          (renderLine p.lineView c p.scanline.toNat).framebuffer
        else p.framebuffer := by
  rcases ppuEvent_cases p c with ⟨h1, h2, e⟩ | ⟨h1, h2, e⟩ | ⟨h1, h2, h3, e⟩ | ⟨h1, h2, v, e⟩ <;>
    rw [e]
  · rw [if_neg (by omega)]; rfl
  · rw [if_neg (by omega)]; rfl
  · rw [if_pos ⟨h1, h2, h3⟩, Ppu.lineStart_eq]
  · rw [if_neg h2]

/-- An event never moves the counters, so a tick is at the place the advance reached (R262). -/
theorem ppuTick_place (s : State) :
    s.ppuTick.ppu.scanline = s.ppu.advancePosition.1.scanline
      ∧ s.ppuTick.ppu.cycle = s.ppu.advancePosition.1.cycle :=
  (ppuEvent_ppu s.ppu.advancePosition.1 s.cart).1

end Sys2Proof.Machine

namespace Sys2Proof.Claims

open Sys2Proof Sys2Proof.Machine

/-! The place in the frame (R262). -/

/-- From a place inside a line, at the end of a line, and at the end of the frame. -/
theorem advancePosition_position {p : Ppu} (h : p.Inv) :
    position p.advancePosition.1 = (position p + 1) % 89342
      ∧ p.advancePosition.2 = decide (position p.advancePosition.1 = 0) := by
  have hlow := h.lineLow
  have hhigh := h.lineHigh
  have hcycle := h.cycleHigh
  unfold position Ppu.advancePosition
  dsimp only
  by_cases hwrap : p.cycle + 1 = 341
  · simp only [hwrap, decide_true, if_true]
    by_cases hlast : p.scanline + 1 = 261
    · rw [if_pos hlast, decide_eq_true hlast]
      exact ⟨by omega, rfl⟩
    · rw [if_neg hlast]
      exact ⟨by omega, decide_eq_decide.mpr (by omega)⟩
  · simp only [hwrap, decide_false, Bool.false_eq_true, if_false]
    rw [if_neg (by omega)]
    exact ⟨by omega, decide_eq_decide.mpr (by omega)⟩

/-- Settles O29: the event keeps the place the advance reached. -/
theorem subCycleMovesPosition : Obligations.SubCycleMovesPosition := by
  unfold Obligations.SubCycleMovesPosition
  intro s h
  obtain ⟨hline, hcycle⟩ := ppuTick_place s
  have hplace : position s.ppuTick.ppu = position s.ppu.advancePosition.1 := by
    unfold position
    rw [hline, hcycle]
  obtain ⟨hmove, hflag⟩ := advancePosition_position h
  rw [hplace]
  refine ⟨hmove, ?_, rfl, fun _ => rfl⟩
  rw [← hflag]
  rfl

/-- Settles O30: VBlank, the latch and the sprite flags after the event of the place the tick reaches. -/
theorem vblankAndNmiLatch : Obligations.VblankAndNmiLatch := by
  unfold Obligations.VblankAndNmiLatch
  intro s
  extract_lets t drawn p q y top h inRange bg sprites
  obtain ⟨hline, hcycle⟩ : t.ppu.scanline = p.scanline ∧ t.ppu.cycle = p.cycle := ppuTick_place s
  have hvblank := ppuEvent_vblank p s.cart
  have hnmi := ppuEvent_nmiOccurred p s.cart
  have hflags := ppuEvent_spriteFlags p s.cart
  rw [← hline, ← hcycle] at hvblank hnmi hflags
  have hlist : p.lineView.spritesOnLine y = inRange := by
    rw [Ppu.spritesOnLine_eq, Ppu.lineView_eq]
    rfl
  have hsprite0 := renderLine_sprite0_iff p.lineView s.cart y
  have hoverflow := renderLine_overflow p.lineView s.cart y
  rw [hlist] at hsprite0 hoverflow
  refine ⟨fun hl hc => ?vblank, fun hl hc => ?clear, fun hn => ?noVblank, fun hn => ?noNmi,
    fun hd => ?drawn, fun hn hd => ?rest⟩
  case vblank =>
    rw [if_pos ⟨hl, hc⟩] at hvblank hnmi
    exact ⟨hvblank, hnmi⟩
  case clear =>
    rw [if_neg (by omega), if_pos ⟨hl, hc⟩] at hvblank
    rw [if_pos ⟨hl, hc⟩] at hflags
    exact ⟨hvblank, congrArg Prod.fst hflags, congrArg Prod.snd hflags⟩
  case noVblank =>
    rw [if_neg (by omega), if_neg (by omega)] at hvblank
    exact hvblank
  case noNmi =>
    rw [if_neg (by omega)] at hnmi
    exact hnmi
  case drawn =>
    rw [if_neg (by omega), if_pos hd] at hflags
    simp only [Ppu.lineView_sprite0, Ppu.lineView_overflow, Ppu.lineView_showBg,
      Ppu.lineView_showSprites, Ppu.lineView_bgLeft, Ppu.lineView_spritesLeft] at hsprite0 hoverflow
    obtain ⟨h0, hover⟩ := Prod.mk.injEq .. ▸ hflags
    exact ⟨hover.trans hoverflow, h0 ▸ hsprite0⟩
  case rest =>
    rw [if_neg (by omega), if_neg hd] at hflags
    exact ⟨congrArg Prod.fst hflags, congrArg Prod.snd hflags⟩

/-- Settles O32: the framebuffer, v and the cartridge after the event of the place the tick reaches, and
the frame of an event. -/
theorem visibleLineIsRendered : Obligations.VisibleLineIsRendered := by
  unfold Obligations.VisibleLineIsRendered
  intro s
  extract_lets t drawn p q
  obtain ⟨hline, hcycle⟩ : t.ppu.scanline = p.scanline ∧ t.ppu.cycle = p.cycle := ppuTick_place s
  have hframe := ppuEvent_framebuffer p s.cart
  have hv := ppuEvent_v p s.cart
  have hcart := ppuEvent_cart p s.cart
  rw [← hline, ← hcycle] at hframe hv hcart
  have hpixel (hd : drawn) (y : Nat) {x : Nat} (hx : x < 256) : t.pixel y x
      = if y = t.ppu.scanline.toNat then
          pixelColour q s.cart (q.spritesOnLine t.ppu.scanline.toNat) t.ppu.scanline.toNat x
        else s.pixel y x := by
    have hread := renderLine_pixel p.lineView s.cart t.ppu.scanline.toNat y hx
    rw [if_pos hd] at hframe
    rw [Ppu.lineView_framebuffer] at hread
    exact (congrArg (Memory.read · _) hframe).trans hread
  refine ⟨fun hd => ?otherTicks, fun hd y x hx => ⟨fun hy => ?otherLines, fun hy => ?line⟩,
    p.lineView_v_bit, fun hd => ?drawnV, fun hl hc i => ?preRenderV, fun hd hp => ?otherV, hcart,
    ?ppuFrame, rfl⟩
  case otherTicks =>
    rw [if_neg hd] at hframe
    exact hframe
  case otherLines => rw [hpixel hd y hx, if_neg hy]
  case line =>
    rw [hpixel hd y hx, if_pos hy, ← hy]
    refine ⟨pixelColour_lt _ _ _ _ _, fun hb hs => ?_, rfl⟩
    have hoff := pixelColour_of_off (p := p.lineView) (p.lineView_showBg.trans hb)
      (p.lineView_showSprites.trans hs) s.cart (q.spritesOnLine y) y x
    rw [Ppu.lineView_palettes] at hoff
    exact hoff
  case drawnV =>
    have hp : ¬(t.ppu.scanline = -1 ∧ t.ppu.cycle = 0) := by omega
    rw [if_neg hp, if_pos hd] at hv
    refine hv.trans ?_
    show (if p.showBg then incY p.copyHorizontal.v else p.v) = if p.showBg then incY q.v else p.v
    unfold q
    split <;> rfl
  case preRenderV =>
    have hp : t.ppu.scanline = -1 ∧ t.ppu.cycle = 0 := ⟨hl, hc⟩
    rw [if_pos hp] at hv
    refine (congrArg (BitVec.getLsbD · i) hv).trans ?_
    show (if p.showBg then p.copyVertical.v else p.v).getLsbD i
      = if p.showBg = true ∧ (11 ≤ i ∨ (5 ≤ i ∧ i ≤ 9)) then p.t.getLsbD i else p.v.getLsbD i
    cases p.showBg with
    | false => simp
    | true => simpa using p.copyVertical_v_bit i
  case otherV =>
    rw [if_neg hp, if_neg hd, ite_self] at hv
    exact hv
  case ppuFrame =>
    rw [hline, hcycle]
    exact ppuEvent_frame p s.cart

end Sys2Proof.Claims
end

section
/-! PROOF. The cartridge's CPU space, NROM and UxROM, and the mirroring each mapper reports
(spec/62_mappers_controllers.md R301 to R306, R309, R317, R327). -/

namespace Sys2Proof.Machine

open Sys2Proof

/-! The windows of the CPU side below the ROM (R301). -/

theorem Cart.cpuRead_unmapped (c : Cart) {a : Nat} (h : a < 0x6000) : c.cpuRead a = 0x00 := if_pos h

theorem Cart.cpuRead_prgRam (c : Cart) {a : Nat} (h : 0x6000 ≤ a) (h' : a < 0x8000) :
    c.cpuRead a = c.prgRam.read (a - 0x6000) := by
  unfold Cart.cpuRead
  rw [if_neg (by omega), if_pos h']

theorem Cart.cpuWrite_unmapped (c : Cart) {a : Nat} (h : a < 0x6000) (d : Byte) :
    c.cpuWrite a d = c := if_pos h

theorem Cart.cpuWrite_prgRam (c : Cart) {a : Nat} (h : 0x6000 ≤ a) (h' : a < 0x8000) (d : Byte) :
    c.cpuWrite a d = { c with prgRam := c.prgRam.write (a - 0x6000) d } := by
  unfold Cart.cpuWrite
  rw [if_neg (by omega), if_pos h']

/-- Two PRG-RAMs give the same byte where they agree at its address: the rest of the space does not read
PRG-RAM. -/
theorem Cart.cpuRead_withPrgRam (c : Cart) (m : Memory) {b : Nat}
    (h : 0x6000 ≤ b → m.read (b - 0x6000) = c.prgRam.read (b - 0x6000)) :
    Cart.cpuRead { c with prgRam := m } b = c.cpuRead b := by
  by_cases hlow : b < 0x6000
  · rw [Cart.cpuRead_unmapped _ hlow, Cart.cpuRead_unmapped _ hlow]
  by_cases hram : b < 0x8000
  · rw [Cart.cpuRead_prgRam _ (by omega) hram, Cart.cpuRead_prgRam _ (by omega) hram]
    exact h (by omega)
  · rw [Cart.cpuRead_rom _ (by omega), Cart.cpuRead_rom _ (by omega)]
    rfl

/-! NROM and UxROM (R303 to R306). -/

section
variable {c : Cart}

theorem Cart.prgOffset_nrom (h : c.mapper = .nrom) (a : Nat) :
    c.prgOffset a = (a - 0x8000) % c.prgLen := by
  unfold Cart.prgOffset
  rw [h]

theorem Cart.prgOffset_uxrom {bank : Nat} (h : c.mapper = .uxrom bank) (a : Nat) :
    c.prgOffset a = if a < 0xC000 then bank * 0x4000 + (a - 0x8000)
      else (c.n16 - 1) * 0x4000 + (a - 0xC000) := by
  unfold Cart.prgOffset
  rw [h]

theorem Cart.registerWrite_nrom (h : c.mapper = .nrom) (a : Nat) (d : Byte) :
    c.registerWrite a d = c := by
  unfold Cart.registerWrite
  rw [h]

theorem Cart.registerWrite_uxrom {bank : Nat} (h : c.mapper = .uxrom bank) (a : Nat) (d : Byte) :
    c.registerWrite a d = { c with mapper := .uxrom (d.toNat % c.n16) } := by
  unfold Cart.registerWrite
  rw [h]

/-- CHR without banks (R304, R306). -/
theorem Cart.chrFetch_fixed {bank : Nat} (h : c.mapper = .nrom ∨ c.mapper = .uxrom bank) (a : Nat) :
    c.chrFetch a = c.chr.read (a % c.chrLen) := by
  unfold Cart.chrFetch Cart.chrOffset
  rcases h with h | h <;> rw [h]

end

/-- The last 16 KiB bank begins 16 KiB before the end of the ROM. -/
theorem Cart.lastBank_start {c : Cart} (h : c.Inv) : (c.n16 - 1) * 0x4000 = c.prgLen - 0x4000 := by
  have hbanks := h.prgBanks
  unfold Cart.n16
  omega

/-! Mirroring (R309, R317, R327). -/

section
variable {c : Cart}

theorem Cart.currentMirroring_mmc1 {r : Mmc1} (h : c.mapper = .mmc1 r) :
    c.currentMirroring
      = if r.control.getLsbD 0 = r.control.getLsbD 1 then .horizontal else .vertical := by
  have hcontrol : ∀ k : BitVec 5, (match k.toNat &&& 3 with
      | 0 => Mirroring.horizontal
      | 1 => .vertical
      | 2 => .vertical
      | _ => .horizontal) = if k.getLsbD 0 = k.getLsbD 1 then .horizontal else .vertical := by
    decide
  unfold Cart.currentMirroring
  rw [h]
  exact hcontrol r.control

theorem Cart.currentMirroring_mmc3_fourScreen {r : Mmc3} (h : c.mapper = .mmc3 r)
    (hm : c.mirroring = .fourScreen) : c.currentMirroring = .vertical := by
  unfold Cart.currentMirroring
  rw [h, hm]

theorem Cart.currentMirroring_mmc3 {r : Mmc3} (h : c.mapper = .mmc3 r)
    (hm : c.mirroring ≠ .fourScreen) :
    c.currentMirroring
      = if r.mirrorWritten then (if r.mirrorReg then .horizontal else .vertical)
        else c.mirroring := by
  unfold Cart.currentMirroring
  rw [h]
  cases hc : c.mirroring with
  | fourScreen => exact absurd hc hm
  | horizontal => rfl
  | vertical => rfl

theorem Cart.registerWrite_mmc3 {r : Mmc3} (h : c.mapper = .mmc3 r) (a : Nat) (d : Byte) :
    c.registerWrite a d = { c with mapper := .mmc3 (r.write a d) } := by
  unfold Cart.registerWrite
  rw [h]

end

/-- The eight registers of MMC3: address bits 14..13 choose the pair, bit 0 the register in it
(R315). -/
theorem Mmc3.write_eq (r : Mmc3) {a : Nat} (h : 0x8000 ≤ a) (h' : a ≤ 0xFFFF) (d : Byte) :
    r.write a d
      = if a < 0xA000 then
          (if a % 2 = 1 then
            { r with regs := r.regs.set (r.bankSelect.toNat % 8) d (by omega) }
          else { r with bankSelect := d })
        else if a < 0xC000 then
          (if a % 2 = 1 then { r with prgRamCtl := d }
          else { r with mirrorReg := d.getLsbD 0, mirrorWritten := true })
        else if a < 0xE000 then
          (if a % 2 = 1 then { r with irqReload := true, irqCounter := 0 }
          else { r with irqLatch := d })
        else
          (if a % 2 = 1 then { r with irqEnabled := true }
          else { r with irqEnabled := false, irqPending := false }) := by
  unfold Mmc3.write
  simp only [window_index h h', decide_eq_true_eq]
  by_cases h1 : a < 0xA000
  · rw [if_pos h1, show a / 0x2000 - 4 = 0 by omega]
    rfl
  by_cases h2 : a < 0xC000
  · rw [if_neg h1, if_pos h2, show a / 0x2000 - 4 = 1 by omega]
    rfl
  by_cases h3 : a < 0xE000
  · rw [if_neg h1, if_neg h2, if_pos h3, show a / 0x2000 - 4 = 2 by omega]
    rfl
  · rw [if_neg h1, if_neg h2, if_neg h3, show a / 0x2000 - 4 = 3 by omega]
    rfl

end Sys2Proof.Machine

namespace Sys2Proof.Claims

open Sys2Proof Sys2Proof.Machine

/-- Settles O20: the three windows of the CPU side, and the offset's bound from the invariant. -/
theorem cartridgeCpuSpace : Obligations.CartridgeCpuSpace := by
  unfold Obligations.CartridgeCpuSpace
  intro c a d hinv ha ha'
  refine ⟨fun h => ?unmapped, fun h h' => ?prgRam, fun h => ?rom⟩
  case unmapped => exact ⟨c.cpuRead_unmapped h, c.cpuWrite_unmapped h d⟩
  case prgRam =>
    rw [c.cpuWrite_prgRam h h']
    refine ⟨c.cpuRead_prgRam h h', ?_, fun b _ hb => ?_⟩
    · rw [Cart.cpuRead_prgRam _ h h']
      exact Memory.read_write_same _ _ _
    · exact c.cpuRead_withPrgRam _ fun hb' => Memory.read_write_other _ d (by omega)
  case rom =>
    rw [c.cpuWrite_rom h]
    exact ⟨c.cpuRead_rom h, c.prgOffset_lt hinv h (by omega), c.registerWrite_eq a d⟩

/-- Settles O33: UxROM's register, the two windows it leaves, and NROM without one. -/
theorem uxromBanking : Obligations.UxromBanking := by
  unfold Obligations.UxromBanking
  refine ⟨fun c bank a d hinv hm ha _ => ?uxrom, fun c a d hm ha _ => ?nrom,
    fun c bank a hm _ => Cart.chrFetch_fixed hm a⟩
  case uxrom =>
    rw [c.cpuWrite_rom ha, Cart.registerWrite_uxrom hm]
    refine ⟨rfl, fun b hb hb' => ?low, fun b hb _ => ?last, ?irq⟩
    case low =>
      rw [Cart.cpuRead_rom _ hb, Cart.prgOffset_uxrom rfl, if_pos hb']
    case last =>
      rw [Cart.cpuRead_rom _ (by omega), Cart.prgOffset_uxrom rfl, if_neg (by omega),
        ← c.lastBank_start hinv]
      rfl
    case irq =>
      unfold Cart.consumeIrq
      rw [hm]
  case nrom =>
    rw [c.cpuRead_rom ha, Cart.prgOffset_nrom hm, c.cpuWrite_rom ha, Cart.registerWrite_nrom hm]
    exact ⟨rfl, rfl⟩

/-- Settles O37, by the mirroring of each mapper; a write to MMC3's mirroring register sets both of its
fields. -/
theorem mapperMirroring : Obligations.MapperMirroring := by
  unfold Obligations.MapperMirroring
  refine ⟨fun c hm => ?nrom, fun c bank hm => ?uxrom, fun c r hm => Cart.currentMirroring_mmc1 hm,
    fun c r a d hm => ⟨Cart.currentMirroring_mmc3_fourScreen hm, fun hf hw => ?unwritten,
      fun hf ha ha' heven => ?written⟩⟩
  case nrom => unfold Cart.currentMirroring; rw [hm]
  case uxrom => unfold Cart.currentMirroring; rw [hm]
  case unwritten => rw [Cart.currentMirroring_mmc3 hm hf, hw]; rfl
  case written =>
    have hwrite : (c.cpuWrite a d).mapper
        = .mmc3 { r with mirrorReg := d.getLsbD 0, mirrorWritten := true } := by
      rw [c.cpuWrite_rom (by omega), Cart.registerWrite_mmc3 hm, r.write_eq (by omega) (by omega),
        if_neg (by omega), if_pos ha', if_neg (by omega)]
    have hkept : (c.cpuWrite a d).mirroring = c.mirroring := (romKept_cpuWrite c a d).mirroring
    exact Cart.currentMirroring_mmc3 hwrite (hkept.trans_ne hf)

end Sys2Proof.Claims
end

section
/-! PROOF. MMC1 (spec/62_mappers_controllers.md R302, R308 to R312): its serial port write by write, and
its banks as numbers. -/

namespace Sys2Proof.Machine

open Sys2Proof

/-! The serial port (R308). -/

/-- The port's bits after one more write: the byte's low bit at place n. -/
def serialShift (sh : BitVec 5) (n : Nat) (d : Byte) : BitVec 5 :=
  sh ||| (((d &&& 1).setWidth 5) <<< n)

theorem serialShift_bit (sh : BitVec 5) (n : Nat) (d : Byte) {i : Nat} (hi : i < 5) :
    (serialShift sh n d).getLsbD i = (sh.getLsbD i || (decide (i = n) && d.getLsbD 0)) := by
  have hone : ∀ i < 8, (1 : Byte).getLsbD i = decide (i = 0) := by decide
  unfold serialShift
  rw [BitVec.getLsbD_or, BitVec.getLsbD_shiftLeft, BitVec.getLsbD_setWidth, getLsbD_and_mask hone]
  grind

theorem Mmc1.write_reset (r : Mmc1) (a : Nat) {d : Byte} (h : d.getLsbD 7 = true) :
    r.write a d = { r with shift := 0, count := 0, control := r.control ||| 0x0C } := if_pos h

/-- A write that is not the fifth only moves a bit into the port. -/
theorem Mmc1.write_serial {r : Mmc1} (a : Nat) {d : Byte} (h : d.getLsbD 7 = false)
    (hc : r.count ≠ 4) :
    r.write a d = { r with shift := serialShift r.shift r.count d, count := r.count + 1 } := by
  have hc' : r.count + 1 ≠ 5 := by omega
  unfold Mmc1.write
  rw [h, if_neg Bool.false_ne_true]
  exact if_neg hc'

/-- The fifth loads the register that its own address selects. -/
theorem Mmc1.write_fifth {r : Mmc1} {a : Nat} (ha : 0x8000 ≤ a) (ha' : a ≤ 0xFFFF) {d : Byte}
    (h : d.getLsbD 7 = false) (hc : r.count = 4) :
    r.write a d
      = if a < 0xA000 then
          { r with shift := 0, count := 0, control := serialShift r.shift 4 d }
        else if a < 0xC000 then { r with shift := 0, count := 0, chr0 := serialShift r.shift 4 d }
        else if a < 0xE000 then { r with shift := 0, count := 0, chr1 := serialShift r.shift 4 d }
        else { r with shift := 0, count := 0, prg := serialShift r.shift 4 d } := by
  unfold Mmc1.write
  rw [h, hc, window_index ha ha']
  by_cases h1 : a < 0xA000
  · rw [if_pos h1, show a / 0x2000 - 4 = 0 by omega]
    rfl
  by_cases h2 : a < 0xC000
  · rw [if_neg h1, if_pos h2, show a / 0x2000 - 4 = 1 by omega]
    rfl
  by_cases h3 : a < 0xE000
  · rw [if_neg h1, if_neg h2, if_pos h3, show a / 0x2000 - 4 = 2 by omega]
    rfl
  · rw [if_neg h1, if_neg h2, if_neg h3, show a / 0x2000 - 4 = 3 by omega]
    rfl

/-- What five writes put together, the first one's bit lowest. -/
def serialValue (d1 d2 d3 d4 d5 : Byte) : BitVec 5 :=
  serialShift (serialShift (serialShift (serialShift (serialShift 0 0 d1) 1 d2) 2 d3) 3 d4) 4 d5

theorem serialValue_bits (d1 d2 d3 d4 d5 : Byte) :
    (serialValue d1 d2 d3 d4 d5).getLsbD 0 = d1.getLsbD 0
      ∧ (serialValue d1 d2 d3 d4 d5).getLsbD 1 = d2.getLsbD 0
      ∧ (serialValue d1 d2 d3 d4 d5).getLsbD 2 = d3.getLsbD 0
      ∧ (serialValue d1 d2 d3 d4 d5).getLsbD 3 = d4.getLsbD 0
      ∧ (serialValue d1 d2 d3 d4 d5).getLsbD 4 = d5.getLsbD 0 := by
  have hempty : ∀ i, (0 : BitVec 5).getLsbD i = false := fun _ => BitVec.getLsbD_zero
  unfold serialValue
  grind [serialShift_bit]

/-! The banks as numbers (R311, R312). -/

theorem Mmc1.prgBank_eq (r : Mmc1) (n a : Nat) :
    r.prgBank n a
      = if a < 0xC000 then
          (if r.control.toNat / 4 % 4 < 2 then r.prg.toNat % 16 / 2 * 2 % n
          else if r.control.toNat / 4 % 4 = 2 then 0 else r.prg.toNat % 16 % n)
        else
          (if r.control.toNat / 4 % 4 < 2 then (r.prg.toNat % 16 / 2 * 2 + 1) % n
          else if r.control.toNat / 4 % 4 = 2 then r.prg.toNat % 16 % n else n - 1) := by
  have hmode : r.prgMode = r.control.toNat / 4 % 4 := by
    unfold Mmc1.prgMode
    rw [Nat.shiftRight_eq_div_pow]
    exact land_mask _ 2
  have hlow : r.prg.toNat &&& 0x0F = r.prg.toNat % 16 := land_mask _ 4
  have heven : ∀ b < 16, b &&& 0x0E = b / 2 * 2 := by decide
  have hlt : r.control.toNat / 4 % 4 < 4 := Nat.mod_lt _ (by decide)
  unfold Mmc1.prgBank
  rw [hmode, hlow]
  dsimp only
  rw [heven _ (Nat.mod_lt _ (by decide))]
  generalize r.control.toNat / 4 % 4 = mode at hlt
  by_cases ha : a < 0xC000
  · simp only [ha]
    interval_cases mode <;> rfl
  · simp only [ha]
    interval_cases mode <;> rfl

theorem Mmc1.chrBank_eq (r : Mmc1) (n a : Nat) :
    r.chrBank n a
      = if r.control.getLsbD 4 then (if a < 0x1000 then r.chr0.toNat % n else r.chr1.toNat % n)
        else (if a < 0x1000 then r.chr0.toNat / 2 * 2 % n else (r.chr0.toNat / 2 * 2 + 1) % n) := by
  have heven : ∀ b < 32, b &&& 0x1E = b / 2 * 2 := by decide
  unfold Mmc1.chrBank
  simp only [decide_eq_true_eq, heven _ r.chr0.isLt]

section
variable {c : Cart} {r : Mmc1}

theorem Cart.registerWrite_mmc1 (h : c.mapper = .mmc1 r) (a : Nat) (d : Byte) :
    c.registerWrite a d = { c with mapper := .mmc1 (r.write a d) } := by
  unfold Cart.registerWrite
  rw [h]

theorem Cart.prgOffset_mmc1 (h : c.mapper = .mmc1 r) (a : Nat) :
    c.prgOffset a = r.prgBank c.n16 a * 0x4000 + a % 0x4000 := by
  have hmask : a &&& 0x3FFF = a % 0x4000 := land_mask a 14
  unfold Cart.prgOffset
  rw [h, hmask]

theorem Cart.chrOffset_mmc1 (h : c.mapper = .mmc1 r) (a : Nat) :
    c.chrOffset a = r.chrBank c.n4 a * 0x1000 + a % 0x1000 := by
  have hmask : a &&& 0x0FFF = a % 0x1000 := land_mask a 12
  unfold Cart.chrOffset
  rw [h, hmask]

end

end Sys2Proof.Machine

namespace Sys2Proof.Claims

open Sys2Proof Sys2Proof.Machine

/-- Five writes into an empty port leave every register but the one the fifth selects. -/
theorem mmc1_five_writes (r : Mmc1) (a1 a2 a3 a4 : Nat) {a5 : Nat} {d1 d2 d3 d4 d5 : Byte}
    (hs : r.shift = 0) (hc : r.count = 0) (ha : 0x8000 ≤ a5) (ha' : a5 ≤ 0xFFFF)
    (h1 : d1.getLsbD 7 = false) (h2 : d2.getLsbD 7 = false) (h3 : d3.getLsbD 7 = false)
    (h4 : d4.getLsbD 7 = false) (h5 : d5.getLsbD 7 = false) :
    ((((r.write a1 d1).write a2 d2).write a3 d3).write a4 d4).write a5 d5
      = if a5 < 0xA000 then { r with control := serialValue d1 d2 d3 d4 d5 }
        else if a5 < 0xC000 then { r with chr0 := serialValue d1 d2 d3 d4 d5 }
        else if a5 < 0xE000 then { r with chr1 := serialValue d1 d2 d3 d4 d5 }
        else { r with prg := serialValue d1 d2 d3 d4 d5 } := by
  obtain ⟨shift, count, control, chr0, chr1, prg⟩ := r
  subst hs hc
  rw [Mmc1.write_serial a1 h1 (show 0 ≠ 4 by decide),
    Mmc1.write_serial a2 h2 (show 1 ≠ 4 by decide), Mmc1.write_serial a3 h3 (show 2 ≠ 4 by decide),
    Mmc1.write_serial a4 h4 (show 3 ≠ 4 by decide),
    Mmc1.write_fifth ha ha' h5 rfl]
  rfl

/-- Settles O34: the port write by write, and the banks as numbers under the offsets. -/
theorem mmc1SerialPort : Obligations.Mmc1SerialPort := by
  unfold Obligations.Mmc1SerialPort
  refine ⟨fun r a d h => r.write_reset a h, fun r a d h hc => ⟨_, Mmc1.write_serial a h (by omega)⟩,
    ?five, ?prg, ?chr⟩
  case five =>
    intro r a1 a2 a3 a4 a5 d1 d2 d3 d4 d5 hs hc ha ha' h1 h2 h3 h4 h5
    obtain ⟨b0, b1, b2, b3, b4⟩ := serialValue_bits d1 d2 d3 d4 d5
    exact ⟨_, b0, b1, b2, b3, b4, mmc1_five_writes r a1 a2 a3 a4 hs hc ha ha' h1 h2 h3 h4 h5⟩
  case prg =>
    intro c r a d hm ha _
    rw [c.cpuWrite_rom ha, Cart.registerWrite_mmc1 hm, c.cpuRead_rom ha, Cart.prgOffset_mmc1 hm,
      Mmc1.prgBank_eq]
    exact ⟨rfl, rfl⟩
  case chr =>
    intro c r a hm _
    unfold Cart.chrFetch
    rw [Cart.chrOffset_mmc1 hm, Mmc1.chrBank_eq]
    rfl

end Sys2Proof.Claims
end

section
/-! PROOF. MMC3 (spec/62_mappers_controllers.md R302, R315 to R328): the counter's clocks, the A12
filter, the IRQ as a level, and the banks as numbers. -/

namespace Sys2Proof.Machine

open Sys2Proof

/-! The counter (R322). -/

theorem byte_eq_zero_iff (b : Byte) : b = 0 ↔ b.toNat = 0 := BitVec.toNat_inj.symm

/-- A clock while the counter is at 0 or a reload is due. -/
theorem Mmc3.clock_reloads {r : Mmc3} (h : r.irqReload = true ∨ r.irqCounter = 0) :
    r.clock = { r with irqCounter := r.irqLatch, irqReload := false,
                       irqPending := r.irqPending || (r.irqEnabled && decide (r.irqLatch = 0)) } :=
  Mmc3.clock_of_reload (by simpa using h)

/-- A clock while it runs. -/
theorem Mmc3.clock_counts {r : Mmc3} (hr : r.irqReload = false) (hc : r.irqCounter ≠ 0) :
    r.clock = { r with irqCounter := r.irqCounter - 1,
                       irqPending := r.irqPending
                         || (r.irqEnabled && decide (r.irqCounter - 1 = 0)) } :=
  Mmc3.clock_of_count (by simpa [hr] using hc)

/-- The filter's fields are out of a clock's reach. -/
theorem Mmc3.clock_withFilter (r : Mmc3) (low cool : Nat) :
    Mmc3.clock { r with lowCount := low, cooldown := cool }
      = { r.clock with lowCount := low, cooldown := cool } := by
  rw [Mmc3.clock_eq, Mmc3.clock_eq]

/-- A clock never lowers the IRQ (R323). -/
theorem Mmc3.clock_irqPending {r : Mmc3} (h : r.irqPending = true) : r.clock.irqPending = true := by
  rw [Mmc3.clock_eq, h]
  rfl

/-! The A12 filter (R324). -/

section
variable (r : Mmc3) (cd : Nat) {a : Nat}

/-- A12 of a CHR address as a number. -/
theorem bitAt_twelve (h : a < 0x2000) : bitAt a 12 = a / 0x1000 := by
  have hmod : bitAt a 12 = a / 0x1000 % 2 := by
    unfold bitAt
    rw [Nat.shiftRight_eq_div_pow]
    exact land_mask _ 1
  omega

theorem Mmc3.tap_low (h : a < 0x1000) :
    r.tap cd a = { r with lowCount := min (r.lowCount + 1) 8, cooldown := r.cooldown - 1 } := by
  unfold Mmc3.tap
  rw [bitAt_twelve (by omega), show a / 0x1000 = 0 by omega]
  rfl

theorem Mmc3.tap_filtered (h : 0x1000 ≤ a) (h' : a < 0x2000)
    (hf : ¬(8 ≤ r.lowCount ∧ r.cooldown = 0)) :
    r.tap cd a = { r with lowCount := 0, cooldown := r.cooldown - 1 } := by
  have hq : (decide (8 ≤ r.lowCount) && decide (r.cooldown = 0)) = false := by simpa using hf
  unfold Mmc3.tap
  rw [bitAt_twelve h', show a / 0x1000 = 1 by omega]
  simp only [decide_true, Bool.true_and, hq]
  rfl

theorem Mmc3.tap_clocks (h : 0x1000 ≤ a) (h' : a < 0x2000) (hl : 8 ≤ r.lowCount)
    (hc : r.cooldown = 0) :
    r.tap cd a = { r.clock with lowCount := 0, cooldown := cd } := by
  unfold Mmc3.tap
  rw [bitAt_twelve h', show a / 0x1000 = 1 by omega]
  simp only [decide_true, hl, hc, Bool.and_true, if_true, Mmc3.clock_withFilter]
  rfl

/-- A tapped access never lowers the IRQ (R323). -/
theorem Mmc3.tap_irqPending (a : Nat) (h : r.irqPending = true) :
    (r.tap cd a).irqPending = true := by
  unfold Mmc3.tap
  dsimp only
  split
  · exact Mmc3.clock_irqPending h
  · exact h

end

/-! The cartridge around the registers (R315, R325). -/

section
variable {c : Cart} {r : Mmc3}

theorem Cart.tap_mmc3 (h : c.mapper = .mmc3 r) (cd a : Nat) :
    c.tap cd a = { c with mapper := .mmc3 (r.tap cd a) } := by
  unfold Cart.tap
  rw [h]

theorem Cart.scanlineClock_mmc3 (h : c.mapper = .mmc3 r) :
    c.scanlineClock = { c with mapper := .mmc3 r.clock } := by
  unfold Cart.scanlineClock
  rw [h]

theorem Cart.consumeIrq_mmc3 (h : c.mapper = .mmc3 r) : c.consumeIrq = r.irqPending := by
  unfold Cart.consumeIrq
  rw [h]

end

/-- A mapper's reset values raise no IRQ (R325, R328). -/
theorem Cart.reset_consumeIrq (c : Cart) : c.reset.consumeIrq = false := by
  unfold Cart.reset Cart.consumeIrq
  cases c.mapper <;> rfl

/-! The banks as numbers (R319, R320). -/

/-- The 8 KiB bank of each window, before the modulo (R319). -/
theorem Mmc3.prgBank_eq (r : Mmc3) (n : Nat) {a : Nat} (h : 0x8000 ≤ a) (h' : a ≤ 0xFFFF) :
    r.prgBank n a
      = if a < 0xA000 then (if r.bankSelect.getLsbD 6 then n - 2 else r.regs[6].toNat)
        else if a < 0xC000 then r.regs[7].toNat
        else if a < 0xE000 then (if r.bankSelect.getLsbD 6 then r.regs[6].toNat else n - 2)
        else n - 1 := by
  unfold Mmc3.prgBank
  rw [window_index h h']
  by_cases h1 : a < 0xA000
  · rw [if_pos h1, show a / 0x2000 - 4 = 0 by omega]
    rfl
  by_cases h2 : a < 0xC000
  · rw [if_neg h1, if_pos h2, show a / 0x2000 - 4 = 1 by omega]
    rfl
  by_cases h3 : a < 0xE000
  · rw [if_neg h1, if_neg h2, if_pos h3, show a / 0x2000 - 4 = 2 by omega]
    rfl
  · rw [if_neg h1, if_neg h2, if_neg h3, show a / 0x2000 - 4 = 3 by omega]
    rfl

/-- The banks of the first four 1 KiB slots with cm = 0: two pairs of neighbours, each from an even
number (R320). -/
def Mmc3.wideBanks (r : Mmc3) : List Nat :=
  [r.regs[0].toNat / 2 * 2, r.regs[0].toNat / 2 * 2 + 1,
    r.regs[1].toNat / 2 * 2, r.regs[1].toNat / 2 * 2 + 1]

/-- The banks of the last four slots with cm = 0 (R320). -/
def Mmc3.narrowBanks (r : Mmc3) : List Nat :=
  [r.regs[2].toNat, r.regs[3].toNat, r.regs[4].toNat, r.regs[5].toNat]

/-- The column cm = 0 of R320's table. -/
theorem Mmc3.chrSlot_eq (r : Mmc3) {slot : Nat} (h : slot < 8) :
    r.chrSlot slot = (r.wideBanks ++ r.narrowBanks).getD slot 0 := by
  have heven : ∀ b : Byte, b.toNat &&& 0xFE = b.toNat / 2 * 2 := by decide
  have h0 : r.reg 0 &&& 0xFE = r.regs[0].toNat / 2 * 2 := heven r.regs[0]
  have h1 : r.reg 1 &&& 0xFE = r.regs[1].toNat / 2 * 2 := heven r.regs[1]
  unfold Mmc3.chrSlot
  rw [h0, h1]
  interval_cases slot <;> rfl

/-- cm = 1 exchanges the two halves (R320). -/
theorem Mmc3.chrBank_eq (r : Mmc3) {a : Nat} (h : a < 0x2000) :
    r.chrBank a = (if r.bankSelect.getLsbD 7 then r.narrowBanks ++ r.wideBanks
      else r.wideBanks ++ r.narrowBanks).getD (a / 0x400) 0 := by
  have hslot : (a >>> 10) &&& 7 = a / 0x400 := by
    rw [Nat.shiftRight_eq_div_pow]
    exact (land_mask _ 3).trans (by omega)
  have hlt : a / 0x400 < 8 := by omega
  unfold Mmc3.chrBank
  rw [hslot]
  dsimp only
  rw [Mmc3.chrSlot_eq r hlt, Mmc3.chrSlot_eq r (Nat.mod_lt _ (by decide))]
  generalize a / 0x400 = slot at hlt
  split
  · interval_cases slot <;> rfl
  · rfl

theorem Cart.prgOffset_mmc3 {c : Cart} {r : Mmc3} (h : c.mapper = .mmc3 r) (a : Nat) :
    c.prgOffset a = r.prgBank c.n8 a % c.n8 * 0x2000 + a % 0x2000 := by
  have hmask : a &&& 0x1FFF = a % 0x2000 := land_mask a 13
  unfold Cart.prgOffset
  rw [h, hmask]

theorem Cart.chrOffset_mmc3 {c : Cart} {r : Mmc3} (h : c.mapper = .mmc3 r) (a : Nat) :
    c.chrOffset a = r.chrBank a % c.n1 * 0x400 + a % 0x400 := by
  have hmask : a &&& 0x3FF = a % 0x400 := land_mask a 10
  unfold Cart.chrOffset
  rw [h, hmask]

end Sys2Proof.Machine

namespace Sys2Proof.Claims

open Sys2Proof Sys2Proof.Machine

theorem clocks_succ (k : Nat) (r : Mmc3) : clocks (k + 1) r = (clocks k r).clock := by
  induction k generalizing r with
  | zero => rfl
  | succ k ih => exact ih r.clock

/-- What k clocks from a due reload leave, k at most one more than the latch: the latch's number counted
down, and the IRQ only with the last (R326). -/
structure Counting (r : Mmc3) (k : Nat) (q : Mmc3) : Prop where
  counter : q.irqCounter.toNat = r.irqLatch.toNat + 1 - k
  pending : q.irqPending = decide (k = r.irqLatch.toNat + 1)
  enabled : q.irqEnabled = true
  reload  : q.irqReload = false

theorem counting_clocks {r : Mmc3} (he : r.irqEnabled = true) (hp : r.irqPending = false)
    (hr : r.irqReload = true ∨ r.irqCounter = 0) {k : Nat} (h1 : 1 ≤ k)
    (h2 : k ≤ r.irqLatch.toNat + 1) : Counting r k (clocks k r) := by
  induction k, h1 using Nat.le_induction with
  | base =>
    show Counting r 1 r.clock
    rw [Mmc3.clock_reloads hr, he, hp]
    exact { counter := rfl, pending := decide_eq_decide.mpr (by rw [byte_eq_zero_iff]; omega),
            enabled := rfl, reload := rfl }
  | succ k hk ih =>
    have q := ih (by omega)
    have hlatch := r.irqLatch.isLt
    have hcounter := q.counter
    have hne : (clocks k r).irqCounter ≠ 0 := fun h => by
      rw [byte_eq_zero_iff] at h
      omega
    have hnext : ((clocks k r).irqCounter - 1).toNat = r.irqLatch.toNat + 1 - (k + 1) := by
      rw [byte_sub_one, BitVec.toNat_ofNat]
      omega
    rw [clocks_succ, Mmc3.clock_counts q.reload hne, q.pending, q.enabled,
      decide_eq_false (show ¬ k = r.irqLatch.toNat + 1 by omega)]
    exact { counter := hnext, pending := decide_eq_decide.mpr (by rw [byte_eq_zero_iff]; omega),
            enabled := rfl, reload := q.reload }

/-- Settles O35: a clock by its two cases, the count by induction on the clocks, and the filter by A12
and its two conditions. -/
theorem mmc3CounterRaisesIrq : Obligations.Mmc3CounterRaisesIrq := by
  unfold Obligations.Mmc3CounterRaisesIrq
  refine ⟨fun r => ?clock, fun r k he hp hr h1 h2 => ?count, fun r cd a ha => ?filter,
    fun c r cd a hm => ⟨Cart.tap_mmc3 hm cd a, Cart.scanlineClock_mmc3 hm⟩, fun c cd a hv => ?others⟩
  case clock =>
    dsimp only
    by_cases h : r.irqReload = true ∨ r.irqCounter = 0
    · rw [if_pos h]
      exact Mmc3.clock_reloads h
    · rw [if_neg h]
      obtain ⟨hr, hc⟩ := not_or.mp h
      have hr := Bool.eq_false_of_not_eq_true hr
      rw [Mmc3.clock_counts hr hc, hr]
  case count =>
    have q := counting_clocks he hp hr h1 h2
    exact ⟨q.counter, q.pending⟩
  case filter =>
    exact ⟨r.tap_low cd, fun h hf => r.tap_filtered cd h ha hf,
      fun h hl hc => r.tap_clocks cd h ha hl hc⟩
  case others =>
    unfold Cart.tap Cart.scanlineClock Cart.consumeIrq
    cases hm : c.mapper with
    | nrom => exact ⟨rfl, rfl, rfl⟩
    | uxrom bank => exact ⟨rfl, rfl, rfl⟩
    | mmc1 r => exact ⟨rfl, rfl, rfl⟩
    | mmc3 r => rw [hm] at hv; exact absurd rfl hv

/-- Settles O36: the level through each operation, the eight registers by the address, and the banks as
numbers under the offsets. -/
theorem mmc3IrqIsLevel : Obligations.Mmc3IrqIsLevel := by
  unfold Obligations.Mmc3IrqIsLevel
  refine ⟨fun s r hm => ?level, fun r cd a d hp => ?kept, fun r a d ha ha' => ?registers,
    fun c r a d hm ha ha' => ?prg, fun c r a hm ha => ?chr⟩
  case level =>
    have hirq (t : State) : t.cpuIrq.cart = t.cart := by rw [cpuIrq_frame]
    exact ⟨Cart.consumeIrq_mmc3 hm, hirq s, by rw [cpuNmi_frame],
      deliverIrq_keeps (q := fun t => t.cart = s.cart) (fun t h => (hirq t).trans h) rfl,
      fun _ => Cart.consumeIrq_mmc3 hm, s.cart.reset_consumeIrq⟩
  case kept =>
    refine ⟨Mmc3.clock_irqPending hp, r.tap_irqPending cd a hp, fun ha ha' => ?_⟩
    rw [r.write_eq ha ha']
    grind
  case registers =>
    rw [r.write_eq ha ha']
    refine ⟨fun h he => ?_, fun h he => ?_, fun h h' he => ?_, fun h h' he => ?_, fun h h' he => ?_,
      fun h h' he => ?_, fun h he => ?_, fun h he => ?_⟩
    · rw [if_pos h, if_neg (by omega)]
    · rw [if_pos h, if_pos he]
      refine ⟨_, rfl, fun j => ?_⟩
      rw [Fin.getElem_fin, Vector.getElem_set]
      simp only [eq_comm, Fin.getElem_fin]
    · rw [if_neg (by omega), if_pos h', if_neg (by omega)]
    · rw [if_neg (by omega), if_pos h', if_pos he]
    · rw [if_neg (by omega), if_neg (by omega), if_pos h', if_neg (by omega)]
    · rw [if_neg (by omega), if_neg (by omega), if_pos h', if_pos he]
    · rw [if_neg (by omega), if_neg (by omega), if_neg (by omega), if_neg (by omega)]
    · rw [if_neg (by omega), if_neg (by omega), if_neg (by omega), if_pos he]
  case prg =>
    rw [c.cpuWrite_rom ha, Cart.registerWrite_mmc3 hm, c.cpuRead_rom ha, Cart.prgOffset_mmc3 hm,
      Mmc3.prgBank_eq r _ ha ha']
    exact ⟨rfl, rfl⟩
  case chr =>
    unfold Cart.chrFetch
    rw [Cart.chrOffset_mmc3 hm, Mmc3.chrBank_eq r ha]
    rfl

end Sys2Proof.Claims
end

section
/-! PROOF. The controller ports (spec/62_mappers_controllers.md R330 to R335): a strobe latches both
pads, and each read of a port shifts its pad's register. -/

namespace Sys2Proof.Machine

open Sys2Proof

/-- The address of a pad's port (R333). -/
def Pad.port : Pad → Word
  | .one => 0x4016
  | .two => 0x4017

/-- A pad's shift register (R330). -/
def Pads.shiftOf (p : Pads) : Pad → Byte
  | .one => p.shift1
  | .two => p.shift2

theorem busRead_port (s : State) (pad : Pad) :
    s.busRead pad.port = ((s.pads.read pad).1, { s with pads := (s.pads.read pad).2 }) := by
  cases pad with
  | one => exact busRead_pad1 s rfl
  | two => exact busRead_pad2 s rfl

/-- A read with the strobe low gives the register's low bit and shifts it (R333). -/
theorem Pads.read_low {p : Pads} (h : p.strobe = false) (pad : Pad) :
    (p.read pad).1 = p.shiftOf pad &&& 1 ∧ (p.read pad).2.shiftOf pad = shiftPad (p.shiftOf pad)
      ∧ (p.read pad).2.strobe = false := by
  unfold Pads.read
  rw [h]
  cases pad <;> exact ⟨rfl, rfl, rfl⟩

/-- The strobe raised and then lowered latches both pads (R332). -/
theorem Pads.strobe_latches (p : Pads) {d1 d0 : Byte} (h1 : d1.getLsbD 0 = true)
    (h0 : d0.getLsbD 0 = false) :
    (p.strobeWrite d1).strobeWrite d0
      = { p with shift1 := p.buttons1, shift2 := p.buttons2, strobe := false } := by
  have hraise : p.strobeWrite d1 = { p with strobe := true } := by
    unfold Pads.strobeWrite
    dsimp only
    rw [h1, Bool.not_true, Bool.and_false]
    rfl
  rw [hraise]
  unfold Pads.strobeWrite
  rw [h0]
  rfl

/-- A shifted register: each bit from the place above, and a 1 into bit 7 (R333). -/
theorem getLsbD_shiftPad (r : Byte) {i : Nat} (hi : i < 8) :
    (shiftPad r).getLsbD i = if i + 1 < 8 then r.getLsbD (i + 1) else true := by
  have htop : ∀ i < 8, (0x80 : Byte).getLsbD i = decide (i = 7) := by decide
  unfold shiftPad
  rw [BitVec.getLsbD_or, BitVec.getLsbD_ushiftRight, htop i hi]
  grind

/-- After n shifts: the bits n places up, and ones behind them (R335). -/
theorem getLsbD_iterate_shiftPad (r : Byte) (n : Nat) {i : Nat} (hi : i < 8) :
    (shiftPad^[n] r).getLsbD i = if i + n < 8 then r.getLsbD (i + n) else true := by
  induction n generalizing i with
  | zero => rw [Nat.add_zero, if_pos hi]; rfl
  | succ n ih =>
    rw [Function.iterate_succ_apply', getLsbD_shiftPad _ hi]
    by_cases h : i + 1 < 8
    · rw [if_pos h, ih h, Nat.add_right_comm, Nat.add_assoc]
    · rw [if_neg h, if_neg (by omega)]

/-- The low bit of a byte as the byte a port answers. -/
theorem and_one_eq (r : Byte) : r &&& 1 = if r.getLsbD 0 then 0x01 else 0x00 := by
  revert r
  decide

end Sys2Proof.Machine

namespace Sys2Proof.Claims

open Sys2Proof Sys2Proof.Machine

/-- n reads of a port with the strobe low shift its register n times (R333). -/
theorem readsAt_port (pad : Pad) (n : Nat) {s : State} (h : s.pads.strobe = false) :
    (readsAt pad.port n s).pads.strobe = false
      ∧ (readsAt pad.port n s).pads.shiftOf pad = shiftPad^[n] (s.pads.shiftOf pad) := by
  induction n generalizing s with
  | zero => exact ⟨h, rfl⟩
  | succ n ih =>
    obtain ⟨-, hshift, hstrobe⟩ := Pads.read_low h pad
    unfold readsAt
    rw [busRead_port, Function.iterate_succ_apply, ← hshift]
    exact ih hstrobe

/-- The byte of the read after n reads. -/
theorem read_after_readsAt (pad : Pad) (n : Nat) {s : State} (h : s.pads.strobe = false) :
    ((readsAt pad.port n s).busRead pad.port).1
      = if (if n < 8 then (s.pads.shiftOf pad).getLsbD n else true) then 0x01 else 0x00 := by
  obtain ⟨hstrobe, hshift⟩ := readsAt_port pad n h
  obtain ⟨hbyte, -, -⟩ := Pads.read_low hstrobe pad
  rw [busRead_port, hbyte, hshift, and_one_eq, getLsbD_iterate_shiftPad _ n (by decide),
    Nat.zero_add]

/-- Settles O38: both ports after a strobe that latched the live buttons. -/
theorem controllerRoundTrip : Obligations.ControllerRoundTrip := by
  unfold Obligations.ControllerRoundTrip
  intro s d1 d0 n h1 h0
  have hlatch : ((s.busWrite 0x4016 d1).busWrite 0x4016 d0).pads
      = { s.pads with shift1 := s.pads.buttons1, shift2 := s.pads.buttons2, strobe := false } := by
    rw [busWrite_strobe s rfl, busWrite_strobe _ rfl]
    exact s.pads.strobe_latches h1 h0
  have hread := fun pad => read_after_readsAt pad n (congrArg Pads.strobe hlatch)
  rw [hlatch] at hread
  exact ⟨hread .one, hread .two⟩

end Sys2Proof.Claims
end
